-- ==== Sys2Proof/Word.lean ====
section
/-!
DEFINITION. The word types of the block: bytes, the 16-bit timeout, the 32-bit request header and the
32-bit elapsed-time accumulator (spec/00_scope.md R10, spec/30_encoding.md R70, spec/10_state.md R23).
-/

namespace Sys2Proof

/-- "A byte is an unsigned 8-bit value, 0x00..0xFF" (R10). -/
abbrev Byte := BitVec 8

/-- The timeout field `H[31:16]`, milliseconds, unsigned (R70, R8 `TIMEOUT_BITS` = 16). -/
abbrev Timeout := BitVec 16

/-- The request header word H (R70). -/
abbrev Header := BitVec 32

/-- The poller's accumulator (R23, R8 `ELAPSED_BITS` = 32). -/
abbrev Millis := BitVec 32

end Sys2Proof
end

