-- ==== Sys2Proof/Config.lean ====
section
/-!
DEFINITION. What is fixed for a run: the constants of the source (spec/00_scope.md R7), the parameters
the spec decides (R8), the parameters it leaves OPEN (R9), and the free values of the environment
(spec/20_memory.md R62).
-/

namespace Sys2Proof

/-- The start sequence `00 00 FF` that opens every frame (R7; spec/90_conflicts.md C1). -/
def startSeq : List Byte := [0x00, 0x00, 0xFF]

/-- The direction byte host to chip (R7). -/
def tfiHost : Byte := 0xD4

/-- The final byte of a frame (R7). -/
def postamble : Byte := 0x00

/-- The six bytes of the ACK frame (R7, R80). -/
def ackConst : List Byte := [0x00, 0x00, 0xFF, 0x00, 0xFF, 0x00]

/-- The status byte that means ready (R7). -/
def readyByte : Byte := 0x01

/-- `POLL_INTERVAL_MS` (R7). -/
def pollIntervalMs : Nat := 10

/-- `DEFAULT_TIMEOUT_MS`, the default of the written form of SEND_COMMAND_AND_ACK (R7, R86). -/
def defaultTimeoutMs : Timeout := 1000

/-- `STATUS_OK`, the status byte of a response that means success (R7). -/
def statusOk : Byte := 0x00

/-- `SCRATCH_SIZE`, the number of cells of RX (R8). -/
def scratchSize : Nat := 64

/-- `FILL_BYTE`, the byte sent while reading (R8). -/
def fillByte : Byte := 0x00

/-- The parameters that stay OPEN: "A model takes each as an argument of its configuration, and no
rule assumes a value for them" (R9). A state carries one configuration, no step changes it, and a
statement about every state is a statement about every configuration. -/
structure Config where
  /-- `STATUS_READ_CMD`, the status-read request byte. -/
  statusReadCmd : Byte
  /-- `DATA_WRITE_PREFIX`, an optional byte sent after chip-select assert and before the frame. -/
  dataWritePrefix : Option Byte
  /-- `DATA_READ_PREFIX`, an optional byte sent before the data bytes of a response read. -/
  dataReadPrefix : Option Byte
  /-- `SETTLE_PRE_MS`, the delay before the first transfer of a response read. -/
  settlePreMs : Nat
  /-- `SETTLE_BETWEEN_MS`, the delay between transfers of a response read. -/
  settleBetweenMs : Nat
deriving DecidableEq, Repr, Inhabited

/-- The configuration of the board the block stands on. It has no value Lean can see: nothing can be
proved of it that does not hold for every configuration (DESIGN CHOICE, safe, notes/assumptions/6.md). -/
opaque Config.board : Config

/-- Free value: what the environment answers at its `n`-th draw. "The environment (transport plus
chip) may return any byte 0x00..0xFF, and no law links it to earlier bytes" (R62). It has no body
(DESIGN CHOICE, safe, notes/assumptions/5.md). -/
opaque Config.draw (n : Nat) : Byte

end Sys2Proof
end

