-- ==== Sys2Proof/Syntax.lean ====
section
/-!
DEFINITION. The instructions of the block, one constructor per row of spec/opcode_table.json, and the
encoded forms a decoder reads: the request `(H, P)` of the command port (spec/30_encoding.md R70) and
the PN532 command a host names by its code (spec/43_pn532_commands.md).
-/

namespace Sys2Proof

/-- A request on the command port: the header word and the payload (R70). -/
structure Request where
  header  : Header
  payload : List Byte
deriving DecidableEq, Repr

/-- The seven operations that the field OP selects (R71). -/
inductive Operation where
  | encode
  | readResponse
  | decodeAck
  | waitReady
  | sendCommandAndAck
  | checkFrame
  | checkResponse
deriving DecidableEq, Repr

/-- The operands the host gives beside a command code or sub-command code. A code alone stands for
`CommandOperands.bare`. DESIGN CHOICE, notes/assumptions/9.md and 10.md. -/
structure CommandOperands where
  /-- Bytes of P that stand before a sub-command code; only the four sub-commands have them, since
  the code's position in P is not in source (N9). -/
  lead    : List Byte
  /-- The argument bytes P of a command, or the bytes of P after a sub-command code. -/
  args    : List Byte
  /-- The timeout of the handshake; `none` is the omitted operand of R86. -/
  timeout : Option Timeout
  /-- The length the host reads: "READ_RESPONSE <len>". -/
  length  : Byte
  /-- The host's choice `[, STATUS]`, for the two commands whose rule leaves it (R174, R175). -/
  status  : Bool
deriving DecidableEq, Repr

/-- No operand given. -/
def CommandOperands.bare : CommandOperands :=
  { lead := [], args := [], timeout := none, length := 0, status := false }

/-- An encoded instruction: a request header word with its payload, or a PN532 command code (or
sub-command code) with its operands. -/
inductive Coded where
  | request (r : Request)
  | command (code : Byte) (ops : CommandOperands)
deriving DecidableEq, Repr

/-- Why a request is refused, in the order of test (spec/60_exceptions.md R202). -/
inductive RequestRefusal where
  /-- OP is 0x0 or 0x8..0xF (R88). -/
  | illegalOp
  /-- A reserved bit or a field the operation does not use is nonzero (R72). -/
  | reservedField
  /-- P is non-empty for an operation that takes no payload (R73). -/
  | unexpectedPayload
  /-- `1 + N > SCRATCH_SIZE` (R74). -/
  | payloadTooLong
  /-- READ_RESPONSE with `A > SCRATCH_SIZE` (R74). -/
  | lengthTooLong
deriving DecidableEq, Repr

/-- Why a host's PN532 command spells none of the twelve commands of spec/43_pn532_commands.md. Such
a command never reaches the block (DESIGN CHOICE, safe, notes/assumptions/17.md). -/
inductive CommandReject where
  /-- The code is none of the twelve. -/
  | unlistedCode
  /-- An operand is given that the command's rule does not have. -/
  | strayOperand
deriving DecidableEq, Repr

/-- What the decoder answers where it gives no instruction. -/
inductive Reject where
  | request (why : RequestRefusal)
  | command (why : CommandReject)
deriving DecidableEq, Repr

/-- The instructions, one constructor per row of spec/opcode_table.json, in the table's order. -/
inductive Instr where
  /-- ENCODE (R101): opcode and argument bytes. -/
  | encode (op : Byte) (args : List Byte)
  /-- READ_RESPONSE (R104): the length L. -/
  | readResponse (len : Byte)
  /-- DECODE_ACK (R105). -/
  | decodeAck
  /-- WAIT_READY (R138): the timeout T in ms, 0 for no bound. -/
  | waitReady (t : Timeout)
  /-- SEND_COMMAND_AND_ACK (R150): opcode, argument bytes, timeout of each wait. -/
  | sendCommandAndAck (op : Byte) (args : List Byte) (t : Timeout)
  /-- CHECK_FRAME (R107). -/
  | checkFrame
  /-- CHECK_RESPONSE (R153): the expected response code and the flag S. -/
  | checkResponse (code : Byte) (status : Bool)
  /-- FIRMWARE_VERSION, code 0x02 (R170); P = []. -/
  | firmwareVersion (t : Option Timeout) (len : Byte)
  /-- SAM_CONFIGURATION, code 0x14 (R171). -/
  | samConfiguration (args : List Byte) (t : Option Timeout) (len : Byte)
  /-- PEER_JUMP_FOR_DEP, code 0x56 (R172). -/
  | peerJumpForDep (args : List Byte) (t : Option Timeout) (len : Byte)
  /-- TARGET_INIT_AS_TARGET, code 0x8C (R173). -/
  | targetInitAsTarget (args : List Byte) (t : Option Timeout) (len : Byte)
  /-- TARGET_GET_DATA, code 0x86 (R174); the status check is the host's choice. -/
  | targetGetData (args : List Byte) (t : Option Timeout) (len : Byte) (status : Bool)
  /-- TARGET_SET_DATA, code 0x8E (R175); the status check is the host's choice. -/
  | targetSetData (args : List Byte) (t : Option Timeout) (len : Byte) (status : Bool)
  /-- LIST_PASSIVE_TARGET, code 0x4A (R176). -/
  | listPassiveTarget (args : List Byte) (t : Option Timeout) (len : Byte)
  /-- DATA_EXCHANGE, code 0x40 (R177). -/
  | dataExchange (args : List Byte) (t : Option Timeout) (len : Byte)
  /-- MIFARE_READ_PAGE, sub-code 0x30 in the P of code 0x40 (R178). -/
  | mifareReadPage (lead args : List Byte) (t : Option Timeout) (len : Byte)
  /-- MIFARE_WRITE_PAGE, sub-code 0xA0 in the P of code 0x40 (R179). -/
  | mifareWritePage (lead args : List Byte) (t : Option Timeout) (len : Byte)
  /-- MIFARE_AUTH_KEY_A, sub-code 0x60 in the P of code 0x40 (R180). -/
  | mifareAuthKeyA (lead args : List Byte) (t : Option Timeout) (len : Byte)
  /-- MIFARE_AUTH_KEY_B, sub-code 0x61 in the P of code 0x40 (R181). -/
  | mifareAuthKeyB (lead args : List Byte) (t : Option Timeout) (len : Byte)
deriving DecidableEq, Repr

end Sys2Proof
end

