-- ==== Sys2Proof/WellFormed.lean ====
section
/-!
DEFINITION. Which instructions are well formed: an argument list that fits the buffer beside the
opcode, a read length that fits the buffer (spec/30_encoding.md R71, R74). A PN532 command is well
formed when every request of its rule's pseudocode is.
-/

namespace Sys2Proof

/-- `N <= SCRATCH_SIZE - 1`, written as R74 has it: `1 + N` is at most `SCRATCH_SIZE`. -/
def argsFit (p : List Byte) : Bool := 1 + p.length ≤ scratchSize

/-- `L <= SCRATCH_SIZE` (R71). -/
def lengthFits (len : Byte) : Bool := len.toNat ≤ scratchSize

/-- The instruction is one the block admits; for a PN532 command, one whose requests it admits. -/
def Instr.wellFormed : Instr → Bool
  | .encode _ args => argsFit args
  | .readResponse len => lengthFits len
  | .decodeAck => true
  | .waitReady _ => true
  | .sendCommandAndAck _ args _ => argsFit args
  | .checkFrame => true
  | .checkResponse _ _ => true
  | .firmwareVersion _ len => lengthFits len
  | .samConfiguration args _ len => argsFit args && lengthFits len
  | .peerJumpForDep args _ len => argsFit args && lengthFits len
  | .targetInitAsTarget args _ len => argsFit args && lengthFits len
  | .targetGetData args _ len _ => argsFit args && lengthFits len
  | .targetSetData args _ len _ => argsFit args && lengthFits len
  | .listPassiveTarget args _ len => argsFit args && lengthFits len
  | .dataExchange args _ len => argsFit args && lengthFits len
  | .mifareReadPage lead args _ len => argsFit (lead ++ 0x30 :: args) && lengthFits len
  | .mifareWritePage lead args _ len => argsFit (lead ++ 0xA0 :: args) && lengthFits len
  | .mifareAuthKeyA lead args _ len => argsFit (lead ++ 0x60 :: args) && lengthFits len
  | .mifareAuthKeyB lead args _ len => argsFit (lead ++ 0x61 :: args) && lengthFits len

end Sys2Proof
end

