-- ==== Sys2Proof/Decode.lean ====
section
/-!
DEFINITION. The decoder of the command port and of the PN532 command codes, and after it the encoder,
both from the encoding tables of spec/30_encoding.md R70 to R74, R88 and spec/43_pn532_commands.md.
-/

namespace Sys2Proof

/-! ## The fields of the header word (R70) -/

/-- `OP = H[3:0]`. -/
def headerOp (h : Header) : BitVec 4 := h.extractLsb' 0 4

/-- `S = H[4]`. -/
def headerStatus (h : Header) : Bool := h.getLsbD 4

/-- `A = H[15:8]`. -/
def headerOperand (h : Header) : Byte := h.extractLsb' 8 8

/-- `T = H[31:16]`. -/
def headerTimeout (h : Header) : Timeout := h.extractLsb' 16 16

/-- The operation that OP selects; 0x0 and 0x8..0xF select none (R71, R88). -/
def operationOf (op : BitVec 4) : Option Operation :=
  match op.toNat with
  | 1 => some .encode
  | 2 => some .readResponse
  | 3 => some .decodeAck
  | 4 => some .waitReady
  | 5 => some .sendCommandAndAck
  | 6 => some .checkFrame
  | 7 => some .checkResponse
  | _ => none

/-- The bits of H that are fixed for an operation: OP, the reserved bits and every field that R71
marks "must be 0" (the masks of R71). -/
def operationMask : Operation → Header
  | .encode => 0xFFFF00FF
  | .readResponse => 0xFFFF00FF
  | .decodeAck => 0xFFFFFFFF
  | .waitReady => 0x0000FFFF
  | .sendCommandAndAck => 0x000000FF
  | .checkFrame => 0xFFFFFFFF
  | .checkResponse => 0xFFFF00EF

/-- The value of the fixed bits (the match column of R71). -/
def operationMatch : Operation → Header
  | .encode => 0x00000001
  | .readResponse => 0x00000002
  | .decodeAck => 0x00000003
  | .waitReady => 0x00000004
  | .sendCommandAndAck => 0x00000005
  | .checkFrame => 0x00000006
  | .checkResponse => 0x00000007

/-- Only ENCODE and SEND_COMMAND_AND_ACK take a payload (R73). -/
def takesPayload : Operation → Bool
  | .encode => true
  | .sendCommandAndAck => true
  | .readResponse => false
  | .decodeAck => false
  | .waitReady => false
  | .checkFrame => false
  | .checkResponse => false

/-- The instruction an operation and the fields of its request spell (R71). -/
def operationInstr (o : Operation) (r : Request) : Instr :=
  match o with
  | .encode => .encode (headerOperand r.header) r.payload
  | .readResponse => .readResponse (headerOperand r.header)
  | .decodeAck => .decodeAck
  | .waitReady => .waitReady (headerTimeout r.header)
  | .sendCommandAndAck =>
      .sendCommandAndAck (headerOperand r.header) r.payload (headerTimeout r.header)
  | .checkFrame => .checkFrame
  | .checkResponse => .checkResponse (headerOperand r.header) (headerStatus r.header)

/-- The value checks of R74: PayloadTooLong and LengthTooLong. The block makes them for the request
it is given; the requests a PN532 command stands for are checked when each is issued. -/
def valueRefusal : Instr → Option RequestRefusal
  | .encode _ args => if argsFit args then none else some .payloadTooLong
  | .sendCommandAndAck _ args _ => if argsFit args then none else some .payloadTooLong
  | .readResponse len => if lengthFits len then none else some .lengthTooLong
  | _ => none

/-- The decoder of the command port. "Refusals are checked in this order: illegal OP (rule R88),
then reserved fields (rule R72), then payload presence (rule R73), then the value checks. The first
that fails names the refusal." (R74). -/
def decodeRequest (r : Request) : Except RequestRefusal Instr :=
  match operationOf (headerOp r.header) with
  | none => .error .illegalOp
  | some o =>
    if r.header &&& operationMask o ≠ operationMatch o then .error .reservedField
    else if takesPayload o = false ∧ r.payload ≠ [] then .error .unexpectedPayload
    else
      match valueRefusal (operationInstr o r) with
      | some why => .error why
      | none => .ok (operationInstr o r)

/-- The decoder of the PN532 command codes and data-exchange sub-command codes
(spec/43_pn532_commands.md R170 to R181). -/
def decodeCommand (code : Byte) (o : CommandOperands) : Except CommandReject Instr :=
  match code.toNat with
  | 0x02 =>
    if o.lead = [] ∧ o.args = [] ∧ o.status = false
    then .ok (.firmwareVersion o.timeout o.length) else .error .strayOperand
  | 0x14 =>
    if o.lead = [] ∧ o.status = false
    then .ok (.samConfiguration o.args o.timeout o.length) else .error .strayOperand
  | 0x56 =>
    if o.lead = [] ∧ o.status = false
    then .ok (.peerJumpForDep o.args o.timeout o.length) else .error .strayOperand
  | 0x8C =>
    if o.lead = [] ∧ o.status = false
    then .ok (.targetInitAsTarget o.args o.timeout o.length) else .error .strayOperand
  | 0x86 =>
    if o.lead = []
    then .ok (.targetGetData o.args o.timeout o.length o.status) else .error .strayOperand
  | 0x8E =>
    if o.lead = []
    then .ok (.targetSetData o.args o.timeout o.length o.status) else .error .strayOperand
  | 0x4A =>
    if o.lead = [] ∧ o.status = false
    then .ok (.listPassiveTarget o.args o.timeout o.length) else .error .strayOperand
  | 0x40 =>
    if o.lead = [] ∧ o.status = false
    then .ok (.dataExchange o.args o.timeout o.length) else .error .strayOperand
  | 0x30 =>
    if o.status = false
    then .ok (.mifareReadPage o.lead o.args o.timeout o.length) else .error .strayOperand
  | 0xA0 =>
    if o.status = false
    then .ok (.mifareWritePage o.lead o.args o.timeout o.length) else .error .strayOperand
  | 0x60 =>
    if o.status = false
    then .ok (.mifareAuthKeyA o.lead o.args o.timeout o.length) else .error .strayOperand
  | 0x61 =>
    if o.status = false
    then .ok (.mifareAuthKeyB o.lead o.args o.timeout o.length) else .error .strayOperand
  | _ => .error .unlistedCode

/-- The decoder, total on every encoded form, rejecting by name. -/
def decode : Coded → Except Reject Instr
  | .request r =>
    match decodeRequest r with
    | .ok i => .ok i
    | .error why => .error (.request why)
  | .command code ops =>
    match decodeCommand code ops with
    | .ok i => .ok i
    | .error why => .error (.command why)

/-- The encoded form the table's bits stand for: a 32-bit row is a request header word with no
payload, an 8-bit row a command code with no operands. The command port carries the header whole, so
it has no byte order (R70). No row has another width. -/
def tableCoded (nbits w : Nat) : Option Coded :=
  if w < 2 ^ nbits then
    match nbits with
    | 32 => some (.request { header := BitVec.ofNat 32 w, payload := [] })
    | 8 => some (.command (BitVec.ofNat 8 w) CommandOperands.bare)
    | _ => none
  else none

/-- What the decoder reads from a word numbered as spec/opcode_table.json numbers it. -/
def decodeTableWord (nbits w : Nat) : Option Instr :=
  match tableCoded nbits w with
  | none => none
  | some c =>
    match decode c with
    | .ok i => some i
    | .error _ => none

/-! ## The encoder -/

/-- The header word from its fields, each at its place and the reserved bits zero (R70). -/
def headerWord (op : BitVec 4) (s : Bool) (a : Byte) (t : Timeout) : Header :=
  op.setWidth 32 ||| (BitVec.ofBool s).setWidth 32 <<< 4 ||| a.setWidth 32 <<< 8
    ||| t.setWidth 32 <<< 16

/-- `ENCODE <op> {args}` (R86). -/
def encodeWord (op : Byte) (args : List Byte) : Request :=
  { header := headerWord 1 false op 0, payload := args }

/-- `READ_RESPONSE <L>` (R86). -/
def readResponseWord (len : Byte) : Request :=
  { header := headerWord 2 false len 0, payload := [] }

/-- `DECODE_ACK` (R86). -/
def decodeAckWord : Request :=
  { header := headerWord 3 false 0 0, payload := [] }

/-- `WAIT_READY <T>` (R86). -/
def waitReadyWord (t : Timeout) : Request :=
  { header := headerWord 4 false 0 t, payload := [] }

/-- `SEND_COMMAND_AND_ACK <op> {args} <T>` (R86). -/
def sendCommandAndAckWord (op : Byte) (args : List Byte) (t : Timeout) : Request :=
  { header := headerWord 5 false op t, payload := args }

/-- `CHECK_FRAME` (R86). -/
def checkFrameWord : Request :=
  { header := headerWord 6 false 0 0, payload := [] }

/-- `CHECK_RESPONSE <code> [, STATUS]` (R86). -/
def checkResponseWord (code : Byte) (status : Bool) : Request :=
  { header := headerWord 7 status code 0, payload := [] }

/-- The encoding of an instruction: a request for an operation (R71), a code with its operands for a
PN532 command (R170 to R181). -/
def encode : Instr → Coded
  | .encode op args => .request (encodeWord op args)
  | .readResponse len => .request (readResponseWord len)
  | .decodeAck => .request decodeAckWord
  | .waitReady t => .request (waitReadyWord t)
  | .sendCommandAndAck op args t => .request (sendCommandAndAckWord op args t)
  | .checkFrame => .request checkFrameWord
  | .checkResponse code status => .request (checkResponseWord code status)
  | .firmwareVersion t len =>
      .command 0x02 { lead := [], args := [], timeout := t, length := len, status := false }
  | .samConfiguration args t len =>
      .command 0x14 { lead := [], args := args, timeout := t, length := len, status := false }
  | .peerJumpForDep args t len =>
      .command 0x56 { lead := [], args := args, timeout := t, length := len, status := false }
  | .targetInitAsTarget args t len =>
      .command 0x8C { lead := [], args := args, timeout := t, length := len, status := false }
  | .targetGetData args t len status =>
      .command 0x86 { lead := [], args := args, timeout := t, length := len, status := status }
  | .targetSetData args t len status =>
      .command 0x8E { lead := [], args := args, timeout := t, length := len, status := status }
  | .listPassiveTarget args t len =>
      .command 0x4A { lead := [], args := args, timeout := t, length := len, status := false }
  | .dataExchange args t len =>
      .command 0x40 { lead := [], args := args, timeout := t, length := len, status := false }
  | .mifareReadPage lead args t len =>
      .command 0x30 { lead := lead, args := args, timeout := t, length := len, status := false }
  | .mifareWritePage lead args t len =>
      .command 0xA0 { lead := lead, args := args, timeout := t, length := len, status := false }
  | .mifareAuthKeyA lead args t len =>
      .command 0x60 { lead := lead, args := args, timeout := t, length := len, status := false }
  | .mifareAuthKeyB lead args t len =>
      .command 0x61 { lead := lead, args := args, timeout := t, length := len, status := false }

end Sys2Proof
end

