-- ==== Sys2Proof/Machine/State.lean ====
section
/-!
DEFINITION. The state of the machine as plain data: every register of spec/10_state.md R20, the event
history of spec/00_scope.md R12, the configuration of R9, and the inputs still to come (the
environment's answers, the host's programs, the reset line). With it the reasons a step can stop and
the state after reset (spec/70_reset_and_hazards.md R240).
-/

namespace Sys2Proof.Machine

/-- `POLL`: the source's "Polling → Ready | TimedOut" and the value IDLE for "no wait has run since
reset" (R22). -/
inductive PollState where
  | idle
  | polling
  | ready
  | timedOut
deriving DecidableEq, Repr

/-- The result codes of R83; codes 6..15 are reserved and never written. -/
inductive ResultCode where
  | ok
  | transportTimeout
  | framingMismatch
  | protocolStatusError
  /-- Reserved for the façade; the block never produces it. -/
  | rangeError
  /-- Reserved for the façade; the block never produces it. -/
  | unrecognizedFamily
deriving DecidableEq, Repr

/-- `RESULT` once it holds a value: a result code and an 8-bit value (R26). -/
structure Result where
  code  : ResultCode
  value : Byte
deriving DecidableEq, Repr

/-- What an unwritten read names: an RX index or the register RESULT (R35, R201). -/
inductive ReadRef where
  | cell (index : Nat)
  | result
deriving DecidableEq, Repr

/-- One event of the history: the port primitives of R12, `finish`, faults and refusals (R58). -/
inductive Event where
  /-- `CS(b)`. -/
  | cs (asserted : Bool)
  /-- `Xfer(out) -> inp`. -/
  | xfer (out inp : Byte)
  /-- `Sleep(ms)`. -/
  | sleep (ms : Nat)
  /-- `finish(code, value)`. -/
  | finish (code : ResultCode) (value : Byte)
  /-- `raise Fault(UnwrittenRead(what))`. -/
  | fault (what : ReadRef)
  /-- `raise Refused(why)`. -/
  | refused (why : RequestRefusal)
deriving DecidableEq, Repr

/-- Where a frame transmission stands: the primitive that is next (R101). -/
inductive SendPos where
  /-- `CS(true)`. -/
  | select
  /-- `Xfer(DATA_WRITE_PREFIX)`, if there is one. -/
  | lead
  /-- `Xfer(F[k])`, or `CS(false)` once every byte is sent. -/
  | byte (k : Nat)
  /-- No primitive is left. -/
  | sent
deriving DecidableEq, Repr

/-- Where a wait stands: the primitive that is next (R130, R131). -/
inductive WaitPos where
  /-- The wait begins: ELAPSED and POLL, then `CS(true)`. -/
  | first
  /-- `Xfer(STATUS_READ_CMD)`. -/
  | command
  /-- `Xfer(FILL_BYTE)`, the status byte. -/
  | status
  /-- `CS(false)`, the status byte held. -/
  | release (status : Byte)
  /-- The ready test on the status byte; if it fails, `Sleep(POLL_INTERVAL_MS)`. -/
  | judge (status : Byte)
  /-- After the sleep: ELAPSED, the timeout test, and if it fails the next poll's `CS(true)`. -/
  | slept
deriving DecidableEq, Repr

/-- Where a response read stands: the primitive that is next (R104). -/
inductive ReadPos where
  /-- RX and RXLEN cleared, then `CS(true)`. -/
  | select
  /-- `Sleep(SETTLE_PRE_MS)`. -/
  | settle
  /-- `Xfer(DATA_READ_PREFIX)`, if there is one. -/
  | lead
  /-- The first pass of the loop after a prefix. -/
  | led
  /-- `Xfer(FILL_BYTE)` for cell `k`, its settle sleep done. -/
  | byte (k : Nat)
  /-- The byte of cell `k` has arrived and is not yet in RX; the next pass of the loop follows. -/
  | got (k : Nat) (b : Byte)
  /-- No primitive is left. -/
  | done
deriving DecidableEq, Repr

/-- Where the handshake stands (R150, steps 1 to 4). -/
inductive HandshakePos where
  | send (p : SendPos)
  | waitAck (p : WaitPos)
  | readAck (p : ReadPos)
  | waitResponse (p : WaitPos)
deriving DecidableEq, Repr

/-- `SEQ`: "which operation runs and which step of its pseudocode is next" (R28), and the quiescent
state after an operation's fault or a refusal (R209), in which BUSY is true. -/
inductive Seq where
  | idle
  | encode (p : SendPos)
  | readResponse (p : ReadPos)
  | decodeAck
  | waitReady (p : WaitPos)
  | handshake (p : HandshakePos)
  | checkFrame
  | checkResponse
  /-- After an operation's fault: no step and no request until reset. -/
  | faulted (what : ReadRef)
  /-- After a refusal: no step and no request until reset. -/
  | refused (why : RequestRefusal)
deriving DecidableEq, Repr

/-- What the host can name on the read port (R33, R36). -/
inductive HostReg where
  | result
  | rx (index : Nat)
  | rxLen
  | poll
  | elapsed
  | busy
deriving DecidableEq, Repr

/-- What the host's read returns (R216): the register's value in the host's encoding. -/
inductive HostValue where
  /-- RESULT: the code in 4 bits and the value (R83, R84). -/
  | result (code : BitVec 4) (value : Byte)
  | rx (b : Byte)
  | rxLen (n : Nat)
  /-- POLL in the encoding of R22. -/
  | poll (code : BitVec 2)
  | elapsed (ms : Millis)
  | busy (b : Bool)
deriving DecidableEq, Repr

/-- One thing the host does while the block is not busy (R216). -/
inductive HostAction where
  | issue (c : Coded)
  | read (r : HostReg)
deriving DecidableEq, Repr

/-- Why a step stops with a fault. -/
inductive Fault where
  /-- Raised by `step` alone, after `Fault(UnwrittenRead(what))` of an operation or of a host read, when no
  reset is scheduled: "the block takes no further step and accepts no request until reset" (R209).
  The state before it holds the fault's mark and event. Safe: the model stops where the block does. -/
  | unwrittenRead (what : ReadRef)
deriving DecidableEq, Repr

/-- Why a step is refused. -/
inductive Refusal where
  /-- An instruction that has no meaning yet, by its mnemonic; only arms of `exec` may raise it. Safe. -/
  | notModelled (mnemonic : String)
  /-- Raised by `step` alone, in a block that is quiescent after `Refused(why)` when no reset is
  scheduled (R209). The state before it holds the refusal's mark and event. Safe. -/
  | request (why : RequestRefusal)
  /-- Raised by `step` when the host names a PN532 command that none of R170 to R181 spells; nothing
  reaches the block. Safe (DESIGN CHOICE, notes/assumptions/17.md). -/
  | command (why : CommandReject)
deriving DecidableEq, Repr

/-- The machine's state. -/
structure State where
  /-- `CS`: the chip-select line is asserted (R21). -/
  cs : Bool
  /-- `POLL` (R22). -/
  poll : PollState
  /-- `ELAPSED`: milliseconds, 32 bits, saturating (R23). -/
  elapsed : Millis
  /-- `RX`: the cells that hold a byte, as (index, byte) pairs with strictly rising indices below
  `SCRATCH_SIZE`; an unlisted cell holds no value (R24). -/
  rx : List Host.Cell
  /-- `RXLEN` (R25). -/
  rxLen : Nat
  /-- `RESULT` (R26). -/
  result : Option Result
  /-- `BUSY` (R27). -/
  busy : Bool
  /-- `SEQ` (R28). -/
  seq : Seq
  /-- `REQ` (R29). -/
  req : Option Request
  /-- `FAULTED`, sticky (R20, R209). -/
  faulted : Bool
  /-- `REFUSED`, sticky (R20, R209). -/
  refused : Bool
  /-- The event history, oldest first (R12, R58). -/
  events : List Event
  /-- The configuration of the run (R9); no step changes it. -/
  config : Config
  /-- The environment's next answers, one per transfer, as far as they are given (R62). -/
  chip : List Byte
  /-- How many answers have been drawn free because `chip` had run out (R62). -/
  draws : Nat
  /-- The host programs still to run, the current one first (R87). -/
  host : List (List HostAction)
  /-- The reset line, one value per coming step; deasserted once the list has run out (R241). -/
  resetIn : List Bool
  /-- What the host's latest register read returned (R36). -/
  readOut : Option HostValue
  /-- The latest host read that faulted since the last reset, if one did: BUSY is false and SEQ idle then
  (R28), and the port is not ready until reset (R209). Bookkeeping of the model, no register of the block
  (notes/assumptions/12.md). -/
  readFault : Option ReadRef
deriving DecidableEq, Repr

/-- The state after reset (R240), at the start of a run: the marks false (R20), no event yet, nothing
the host or the environment is known to do. The fields that are no registers of the block are the
model's choice (DESIGN CHOICE, notes/assumptions/14.md). -/
def State.reset : State :=
  { cs := false
    poll := .idle
    elapsed := 0
    rx := []
    rxLen := 0
    result := none
    busy := false
    seq := .idle
    req := none
    faulted := false
    refused := false
    events := []
    config := Config.board
    chip := []
    draws := 0
    host := []
    resetIn := []
    readOut := none
    readFault := none }

end Sys2Proof.Machine
end

