-- ==== Sys2Proof/Machine/Frame.lean ====
section
/-!
DEFINITION. The pure functions over frames: byte arithmetic (spec/00_scope.md R10), building the
command frame (spec/40_codec.md R100), the ACK test (R103) and the checksum check of a received frame
(R106) with its verdicts (spec/30_encoding.md R84).
-/

namespace Sys2Proof.Machine

/-- `neg8(v) = (256 - v) mod 256`, the same as `(~v + 1) & 0xFF` (R10). -/
def neg8 (v : Byte) : Byte := ~~~v + 1

/-- `sum8(s)`: the sum of the bytes of s, mod 256; `sum8([]) = 0` (R10). -/
def sum8 : List Byte → Byte
  | [] => 0
  | b :: s => b + sum8 s

/-- The frame data `D = [TFI, op] ++ P` (R76). -/
def frameData (op : Byte) (p : List Byte) : List Byte := tfiHost :: op :: p

/-- `LEN = |D|`, in one byte (R76). -/
def frameLen (op : Byte) (p : List Byte) : Byte := BitVec.ofNat 8 (frameData op p).length

/-- `encode_frame(op, P)` (R100), laid out as R75 has it. -/
def encodeFrame (op : Byte) (p : List Byte) : List Byte :=
  startSeq ++ [frameLen op p, neg8 (frameLen op p)] ++ frameData op p
    ++ [neg8 (sum8 (frameData op p)), postamble]

/-- `is_ack(b)`: b equals the ACK constant byte for byte (R103). -/
def isAck (b : List Byte) : Bool := b == ackConst

/-- The verdicts of CHECK_FRAME (R84, R106). -/
inductive Verdict where
  | valid
  | short
  | badStart
  | badLcs
  | badDcs
  | badPostamble
deriving DecidableEq, Repr

/-- The value of a verdict in RESULT.value (R84); values 6..255 are never written. -/
def verdictByte : Verdict → Byte
  | .valid => 0
  | .short => 1
  | .badStart => 2
  | .badLcs => 3
  | .badDcs => 4
  | .badPostamble => 5

/-- The steps of R106 after the length checksum: `len` is LEN as a number and `body` the bytes from
offset 5 on, so that `n < LEN + 7` is a body of fewer than `LEN + 2` bytes. -/
def bodyCheck (len : Nat) (body : List Byte) : Verdict :=
  if body.length < len + 2 then .short
  else if sum8 (body.take len) + body.getD len 0 ≠ 0 then .badDcs
  else if body.getD (len + 1) 0 ≠ postamble then .badPostamble
  else .valid

/-- `frame_check(s)` (R106), "in this order, and the first step that fails gives the verdict". -/
def frameCheck (s : List Byte) : Verdict :=
  match s with
  | b0 :: b1 :: b2 :: len :: lcs :: body =>
    if [b0, b1, b2] ≠ startSeq then .badStart
    else if len + lcs ≠ 0 then .badLcs
    else bodyCheck len.toNat body
  | _ => .short

end Sys2Proof.Machine
end

