-- ==== Sys2Proof/Machine/Flags.lean ====
section
/-!
DEFINITION. The status outputs of the block and the tests behind them: the encodings of RESULT.code
(spec/30_encoding.md R83) and POLL (spec/10_state.md R22), the ready test (spec/41_poller.md R132),
the saturating count of ELAPSED (R23) and the timeout test (R131, R133), the response check
(spec/42_handshake.md R153).
-/

namespace Sys2Proof.Machine

/-- The 4-bit value of a result code (R83). -/
def resultCodeBits : ResultCode → BitVec 4
  | .ok => 0
  | .transportTimeout => 1
  | .framingMismatch => 2
  | .protocolStatusError => 3
  | .rangeError => 4
  | .unrecognizedFamily => 5

/-- The value of POLL for the host (R22). -/
def pollBits : PollState → BitVec 2
  | .idle => 0
  | .polling => 1
  | .ready => 2
  | .timedOut => 3

/-- The ready test: "exact equality of the whole status byte with READY = 0x01" (R132). -/
def isReady (status : Byte) : Bool := status == readyByte

/-- `ELAPSED <- min(ELAPSED + POLL_INTERVAL_MS, 2^32 - 1)` (R23). -/
def addInterval (e : Millis) : Millis := BitVec.ofNat 32 (min (e.toNat + pollIntervalMs) (2 ^ 32 - 1))

/-- The timeout test `T != 0 and ELAPSED > T`, on unsigned values; "exceeds" is strict (R131, R133). -/
def hasTimedOut (t : Timeout) (e : Millis) : Bool := t ≠ 0 && decide (t.toNat < e.toNat)

/-- How many bytes CHECK_RESPONSE needs: `need <- (S = 1) ? 8 : 7` (R153). -/
def responseNeed (status : Bool) : Nat := if status then 8 else 7

/-- `code_ok and status_ok`, from the bytes at offsets 6 and 7 (R153). With S = 0 the byte at offset
7 is not read, and `statusByte` is `none`. -/
def responseOk (code codeByte : Byte) (statusByte : Option Byte) : Bool :=
  codeByte == code && statusByte.all (· == statusOk)

end Sys2Proof.Machine
end

