-- ==== Sys2Proof/Machine/Ops.lean ====
section
/-!
DEFINITION. The named operations on the state: the cells of RX (spec/10_state.md R24, R35), the port
primitives (spec/00_scope.md R12), `finish`, faults and refusals (R13, spec/60_exceptions.md R207 to
R209), acceptance of a request (R27, R29), reset (spec/70_reset_and_hazards.md R241) and the three
bodies that operations share: a frame transmission (spec/40_codec.md R101), a response read (R104) and
a wait (spec/41_poller.md R130, R131).

A primitive is one step; register writes between two primitives are made in the step that follows
them (R14; DEDUCED, notes/assumptions/2.md).
-/

namespace Sys2Proof.Machine

/-! ## The receive buffer -/

/-- The byte a cell of RX holds, if it holds one. -/
def readCell (m : List Host.Cell) (i : Nat) : Option Byte :=
  match m with
  | [] => none
  | (a, b) :: rest => if a = i then some b else readCell rest i

/-- The list with the cell at `i` holding `b`, in its place by index. -/
def insertCell (m : List Host.Cell) (i : Nat) (b : Byte) : List Host.Cell :=
  match m with
  | [] => [(i, b)]
  | (a, c) :: rest =>
    if i < a then (i, b) :: (a, c) :: rest
    else if i = a then (i, b) :: rest
    else (a, c) :: insertCell rest i b

/-- `RX[i] <- b`. RX has the cells 0 to `SCRATCH_SIZE - 1` and no other (R24); no operation writes
elsewhere. -/
def writeCell (m : List Host.Cell) (i : Nat) (b : Byte) : List Host.Cell :=
  if i < scratchSize then insertCell m i b else m

/-- The indices rise strictly from `lo` on and stay below `SCRATCH_SIZE`. -/
def risingFrom (lo : Nat) (m : List Host.Cell) : Bool :=
  match m with
  | [] => true
  | (a, _) :: rest => decide (lo ≤ a) && decide (a < scratchSize) && risingFrom (a + 1) rest

/-- The canonical form of RX: indices strictly rising, all of them cells of the buffer. An unlisted
cell holds no value, so no entry can equal what an unlisted cell reads as. -/
def Memory.wf (m : List Host.Cell) : Bool := risingFrom 0 m

/-- `MemRead(i, n)` (R11): the bytes of the cells i to i+n-1, or the first of them without a value. -/
def memRead (m : List Host.Cell) (i n : Nat) : Except Nat (List Byte) :=
  match n with
  | 0 => .ok []
  | k + 1 =>
    match readCell m i with
    | none => .error i
    | some b =>
      match memRead m (i + 1) k with
      | .error j => .error j
      | .ok bs => .ok (b :: bs)

/-- RX and RXLEN as a response read leaves them at its start (R104). -/
def clearRx (s : State) : State := { s with rx := [], rxLen := 0 }

/-- `RX[k] <- b; RXLEN <- k + 1` (R104). -/
def storeRx (k : Nat) (b : Byte) (s : State) : State :=
  { s with rx := writeCell s.rx k b, rxLen := k + 1 }

/-! ## The port primitives (R12) -/

/-- One more event in the history. -/
def record (e : Event) (s : State) : State := { s with events := s.events ++ [e] }

/-- `CS(b)`: drives the line and writes register CS. -/
def csPrim (b : Bool) (s : State) : State := { record (.cs b) s with cs := b }

/-- What the environment answers to the next transfer: the next byte it is known to answer, or a free
draw (R62; notes/assumptions/5.md). -/
def answer (s : State) : Byte :=
  match s.chip with
  | b :: _ => b
  | [] => Config.draw s.draws

/-- `Xfer(out) -> answer`: one byte out and one in, recorded with both (R56). -/
def xferPrim (out : Byte) (s : State) : State :=
  { record (.xfer out (answer s)) s with
    chip := s.chip.tail
    draws := if s.chip = [] then s.draws + 1 else s.draws }

/-- `Sleep(ms)`: "It changes no block state and only records the event" (R12). -/
def sleepPrim (ms : Nat) (s : State) : State := record (.sleep ms) s

/-! ## The host's programs -/

/-- The host stops: "at the first request whose RESULT.code is not OK, or that faults or is refused"
(R87). What is left of the current program is not issued; later programs stand. -/
def stopProgram (h : List (List HostAction)) : List (List HostAction) :=
  match h with
  | [] => []
  | _ :: later => [] :: later

/-- The host's next action and its programs after it, past programs that have ended. -/
def nextAction (h : List (List HostAction)) : Option (HostAction × List (List HostAction)) :=
  match h with
  | [] => none
  | [] :: later => nextAction later
  | (a :: rest) :: later => some (a, rest :: later)

/-- The current program goes on with `todo` before its own actions. -/
def continueWith (todo : List HostAction) (h : List (List HostAction)) : List (List HostAction) :=
  match h with
  | [] => [todo]
  | cur :: later => (todo ++ cur) :: later

/-! ## Outcomes of an operation -/

/-- `finish(code, value)`: "writes RESULT and returns the block to idle" (R13). The host goes on with
its program only after OK (R87). -/
def finish (code : ResultCode) (value : Byte) (s : State) : State :=
  { record (.finish code value) s with
    result := some { code := code, value := value }
    busy := false
    seq := .idle
    host := if code = .ok then s.host else stopProgram s.host }

/-- `raise Fault(UnwrittenRead(what))` of an operation: sets the sticky mark and leaves the block
quiescent; RESULT and BUSY keep their values (R26, R27, R209). -/
def raiseFault (what : ReadRef) (s : State) : State :=
  { record (.fault what) s with
    faulted := true
    seq := .faulted what
    host := stopProgram s.host }

/-- `raise Fault(UnwrittenRead(what))` of a host read: as `raiseFault`, but SEQ stays idle, as it is
whenever BUSY is false (R28); that the port is not ready until reset (R209) stands in `readFault`
(notes/assumptions/12.md). -/
def raiseReadFault (what : ReadRef) (s : State) : State :=
  { record (.fault what) s with
    faulted := true
    readFault := some what
    host := stopProgram s.host }

/-- `raise Refused(why)` at the acceptance step: "It writes only REFUSED <- true, BUSY (which stays
true) and SEQ" (R202, R88). -/
def raiseRefused (why : RequestRefusal) (s : State) : State :=
  { record (.refused why) s with
    refused := true
    busy := true
    seq := .refused why
    host := stopProgram s.host }

/-- The reset input (R241): abandons any operation in flight without a `finish`, records `CS(false)`
if CS was true, and sets every register to its value in R240. The marks FAULTED and REFUSED are not
registers of the block and keep their values. A request abandoned in flight has not finished, so the
host's program does not go on past it (R87; notes/assumptions/13.md). -/
def applyReset (s : State) : State :=
  { (if s.cs then record (.cs false) s else s) with
    cs := false
    poll := .idle
    elapsed := 0
    rx := []
    rxLen := 0
    result := none
    busy := false
    seq := .idle
    req := none
    readFault := none
    host := if s.busy then stopProgram s.host else s.host }

/-! ## Acceptance (R27, R29, R216) -/

/-- The points of SEQ at which the block is quiescent: an operation has faulted or a request was refused,
and no reset has come since (R209). -/
def isQuiescent (q : Seq) : Bool :=
  match q with
  | .faulted _ => true
  | .refused _ => true
  | _ => false

/-- The command port is ready: BUSY is false (R216), and nothing has faulted or been refused since the
last reset (R209). -/
def portReady (s : State) : Bool := !s.busy && !isQuiescent s.seq && s.readFault.isNone

/-- The step that accepts a request: latched whole into REQ, BUSY set, SEQ at the operation's first
primitive (R27, R28, R29). -/
def accept (r : Request) (start : Seq) (s : State) : State :=
  { s with req := some r, busy := true, seq := start }

/-- The acceptance step: refused if a value check fails (R74), else accepted. -/
def takeRequest (i : Instr) (r : Request) (start : Seq) (s : State) : State :=
  match valueRefusal i with
  | some why => raiseRefused why s
  | none => accept r start s

/-- One step of an operation: the acceptance step if the port is ready; the next primitive if the
operation in flight is the one the latched request spells; otherwise the host's issue waits (R216). -/
def operate (i : Instr) (r : Request) (start : Seq) (advance : State → State) (s : State) : State :=
  if portReady s then takeRequest i r start s
  else if s.busy && decide (s.req = some r) then advance s
  else s

/-! ## The bodies that operations share -/

/-- What one step of a body does: it has executed a primitive and stands at `p`, or it has no
primitive left and the step goes on with what follows the body. -/
inductive BodyStep (Pos : Type) where
  | more (p : Pos) (s : State)
  | ended (s : State)

/-- `Xfer(F[k])`, or `CS(false)` after the last byte (R101). -/
def sendByte (frame : List Byte) (k : Nat) (s : State) : BodyStep SendPos :=
  match frame[k]? with
  | some b => .more (.byte (k + 1)) (xferPrim b s)
  | none => .more .sent (csPrim false s)

/-- The body of ENCODE (R101): `CS(true)`, the optional prefix, the frame, `CS(false)`. -/
def sendBody (frame : List Byte) (p : SendPos) (s : State) : BodyStep SendPos :=
  match p with
  | .select => .more .lead (csPrim true s)
  | .lead =>
    match s.config.dataWritePrefix with
    | some b => .more (.byte 0) (xferPrim b s)
    | none => sendByte frame 0 s
  | .byte k => sendByte frame k s
  | .sent => .ended s

/-- The first step of a response read: RX and RXLEN cleared, `CS(true)` (R104). -/
def readStart (s : State) : State := csPrim true (clearRx s)

/-- `Xfer(FILL_BYTE)` for cell k (R104). -/
def readByte (k : Nat) (s : State) : BodyStep ReadPos :=
  .more (.got k (answer s)) (xferPrim fillByte s)

/-- A pass of the read loop at cell k, with `transfers` transfers done in this transaction: a settle
sleep before every transfer but the first, or `CS(false)` after the last cell (R104). -/
def readLoop (len k transfers : Nat) (s : State) : BodyStep ReadPos :=
  if k < len then
    if 0 < transfers then .more (.byte k) (sleepPrim s.config.settleBetweenMs s)
    else readByte k s
  else .more .done (csPrim false s)

/-- The body of READ_RESPONSE with length `len` (R104). -/
def readBody (len : Nat) (p : ReadPos) (s : State) : BodyStep ReadPos :=
  match p with
  | .select => .more .settle (readStart s)
  | .settle => .more .lead (sleepPrim s.config.settlePreMs s)
  | .lead =>
    match s.config.dataReadPrefix with
    | some b => .more .led (xferPrim b s)
    | none => readLoop len 0 0 s
  | .led => readLoop len 0 1 s
  | .byte k => readByte k s
  | .got k b => readLoop len (k + 1) (k + 1) (storeRx k b s)
  | .done => .ended s

/-- The first step of a wait: `ELAPSED <- 0; POLL <- POLLING`, then the first poll's `CS(true)`
(R131). -/
def waitStart (s : State) : State := csPrim true { s with elapsed := 0, poll := .polling }

/-- What one step of a wait does: a primitive, or the wait returns its code (R131). -/
inductive WaitStep where
  | more (p : WaitPos) (s : State)
  | ended (code : ResultCode) (s : State)

/-- The wait `wait_ready(T)` (R131) with its polls (R130). -/
def waitBody (t : Timeout) (p : WaitPos) (s : State) : WaitStep :=
  match p with
  | .first => .more .command (waitStart s)
  | .command => .more .status (xferPrim s.config.statusReadCmd s)
  | .status => .more (.release (answer s)) (xferPrim fillByte s)
  | .release b => .more (.judge b) (csPrim false s)
  | .judge b =>
    if isReady b then .ended .ok { s with poll := .ready }
    else .more .slept (sleepPrim pollIntervalMs s)
  | .slept =>
    if hasTimedOut t (addInterval s.elapsed) then
      .ended .transportTimeout { s with elapsed := addInterval s.elapsed, poll := .timedOut }
    else .more .command (csPrim true { s with elapsed := addInterval s.elapsed })

/-- The state with the sequencer at `q`. -/
def goto (q : Seq) (s : State) : State := { s with seq := q }

end Sys2Proof.Machine
end

