-- ==== Sys2Proof/Machine/Operands.lean ====
section
/-!
DEFINITION. Operand forms: the default timeout of the written form (spec/30_encoding.md R86), the
pseudo-instructions and the request sequences of the PN532 commands (R87, spec/43_pn532_commands.md),
and the registers the host names on the read port (spec/10_state.md R33, R36).
-/

namespace Sys2Proof.Machine

/-- "T omitted = DEFAULT_TIMEOUT_MS = 1000" (R86). -/
def timeoutOrDefault (t : Option Timeout) : Timeout :=
  match t with
  | some t => t
  | none => defaultTimeoutMs

/-- The host's issue of a request. -/
def issue (r : Request) : HostAction := .issue (.request r)

/-- `READ_ACK = READ_RESPONSE 6 ; DECODE_ACK` (R87). -/
def readAck : List HostAction := [issue (readResponseWord 6), issue decodeAckWord]

/-- `WAIT_FOREVER = WAIT_READY 0` (R87). -/
def waitForever : List HostAction := [issue (waitReadyWord 0)]

/-- What follows the handshake of a PN532 command: `READ_RESPONSE <len>`, and `CHECK_RESPONSE <code>
[, STATUS]` where the command has a response code (R87, R170 to R181). -/
def responseRequests (len : Byte) (check : Option (Byte × Bool)) : List HostAction :=
  issue (readResponseWord len) ::
    match check with
    | some (code, status) => [issue (checkResponseWord code status)]
    | none => []

/-- `TRANSACT <op> {args}, <L>, <code> [, STATUS] [<T>]` (R87). -/
def transact (op : Byte) (args : List Byte) (len code : Byte) (status : Bool)
    (t : Option Timeout) : List HostAction :=
  issue (sendCommandAndAckWord op args (timeoutOrDefault t)) ::
    responseRequests len (some (code, status))

/-- The value of a register on the host's read port, or what the read finds unwritten (R33, R35). -/
def hostValue (r : HostReg) (s : State) : Except ReadRef HostValue :=
  match r with
  | .result =>
    match s.result with
    | some v => .ok (.result (resultCodeBits v.code) v.value)
    | none => .error .result
  | .rx i =>
    match readCell s.rx i with
    | some b => .ok (.rx b)
    | none => .error (.cell i)
  | .rxLen => .ok (.rxLen s.rxLen)
  | .poll => .ok (.poll (pollBits s.poll))
  | .elapsed => .ok (.elapsed s.elapsed)
  | .busy => .ok (.busy s.busy)

/-- A host read while BUSY is false (R36): it changes no register of the block; a read of an unwritten
cell or of an empty RESULT faults (R35, R201). -/
def hostRead (r : HostReg) (s : State) : State :=
  match hostValue r s with
  | .ok v => { s with readOut := some v }
  | .error what => raiseReadFault what s

end Sys2Proof.Machine
end

