-- ==== Sys2Proof/Machine/Codec.lean ====
section
/-!
DEFINITION. The framing codec operations of spec/40_codec.md: ENCODE (R101), READ_RESPONSE (R104),
DECODE_ACK (R105) and CHECK_FRAME (R107). Each meaning is one step of its operation: acceptance, a
port primitive, `finish` or a fault (spec/00_scope.md R14).
-/

namespace Sys2Proof.Machine

/-- The next primitive of ENCODE, then `finish(OK, 0)` (R101). -/
def advanceEncode (op : Byte) (args : List Byte) (s : State) : State :=
  match s.seq with
  | .encode p =>
    match sendBody (encodeFrame op args) p s with
    | .more p' s' => goto (.encode p') s'
    | .ended s' => finish .ok 0 s'
  | _ => s

/-- ENCODE (R101): "build the command frame and send it". -/
def execEncode (op : Byte) (args : List Byte) (s : State) : Host.Outcome State Fault Refusal :=
  .next (operate (.encode op args) (encodeWord op args) (.encode .select) (advanceEncode op args) s)

/-- The next primitive of READ_RESPONSE, then `finish(OK, 0)` (R104). -/
def advanceReadResponse (len : Byte) (s : State) : State :=
  match s.seq with
  | .readResponse p =>
    match readBody len.toNat p s with
    | .more p' s' => goto (.readResponse p') s'
    | .ended s' => finish .ok 0 s'
  | _ => s

/-- READ_RESPONSE (R104): "read exactly L bytes into RX". -/
def execReadResponse (len : Byte) (s : State) : Host.Outcome State Fault Refusal :=
  .next (operate (.readResponse len) (readResponseWord len) (.readResponse .select)
    (advanceReadResponse len) s)

/-- The ACK detector applied to RX (R105). -/
def decodeAckStep (s : State) : State :=
  if s.rxLen < ackConst.length then raiseFault (.cell s.rxLen) s
  else
    match memRead s.rx 0 ackConst.length with
    | .error i => raiseFault (.cell i) s
    | .ok b => if isAck b then finish .ok 1 s else finish .framingMismatch 0 s

/-- The one step of DECODE_ACK after acceptance (R105). -/
def advanceDecodeAck (s : State) : State :=
  match s.seq with
  | .decodeAck => decodeAckStep s
  | _ => s

/-- DECODE_ACK (R105). -/
def execDecodeAck (s : State) : Host.Outcome State Fault Refusal :=
  .next (operate .decodeAck decodeAckWord .decodeAck advanceDecodeAck s)

/-- The checksum check applied to RX (R107). -/
def checkFrameStep (s : State) : State :=
  match memRead s.rx 0 s.rxLen with
  | .error i => raiseFault (.cell i) s
  | .ok b => finish .ok (verdictByte (frameCheck b)) s

/-- The one step of CHECK_FRAME after acceptance (R107). -/
def advanceCheckFrame (s : State) : State :=
  match s.seq with
  | .checkFrame => checkFrameStep s
  | _ => s

/-- CHECK_FRAME (R107): "checksum validation of the received frame". -/
def execCheckFrame (s : State) : Host.Outcome State Fault Refusal :=
  .next (operate .checkFrame checkFrameWord .checkFrame advanceCheckFrame s)

end Sys2Proof.Machine
end

