-- ==== Sys2Proof/Machine/Handshake.lean ====
section
/-!
DEFINITION. The handshake sequencer SEND_COMMAND_AND_ACK (spec/42_handshake.md R150) and the response
check CHECK_RESPONSE (R153).
-/

namespace Sys2Proof.Machine

/-- The first step of either wait of the handshake; `pos` says which (R150 steps 2 and 4). Each wait is
a separate call and starts ELAPSED at 0 (R152). -/
def handshakeWait (pos : WaitPos → HandshakePos) (s : State) : State :=
  goto (.handshake (pos .command)) (waitStart s)

/-- After step 3's read: `is_ack` on RX[0..5]; a mismatch finishes at once, a match starts the second
wait (R150). -/
def handshakeAck (s : State) : State :=
  match memRead s.rx 0 ackConst.length with
  | .error i => raiseFault (.cell i) s
  | .ok b => if isAck b then handshakeWait .waitResponse s else finish .framingMismatch 0 s

/-- The next primitive of SEND_COMMAND_AND_ACK: steps 1 to 5 of R150, with no step after the first
that fails and none repeated (R151). -/
def advanceHandshake (op : Byte) (args : List Byte) (t : Timeout) (s : State) : State :=
  match s.seq with
  | .handshake (.send p) =>
    match sendBody (encodeFrame op args) p s with
    | .more p' s' => goto (.handshake (.send p')) s'
    | .ended s' => handshakeWait .waitAck s'
  | .handshake (.waitAck p) =>
    match waitBody t p s with
    | .more p' s' => goto (.handshake (.waitAck p')) s'
    | .ended code s' =>
      if code = .ok then goto (.handshake (.readAck .settle)) (readStart s')
      else finish .transportTimeout 0 s'
  | .handshake (.readAck p) =>
    match readBody ackConst.length p s with
    | .more p' s' => goto (.handshake (.readAck p')) s'
    | .ended s' => handshakeAck s'
  | .handshake (.waitResponse p) =>
    match waitBody t p s with
    | .more p' s' => goto (.handshake (.waitResponse p')) s'
    | .ended code s' => if code = .ok then finish .ok 0 s' else finish .transportTimeout 0 s'
  | _ => s

/-- SEND_COMMAND_AND_ACK as the state it leads to; the PN532 commands issue it too. -/
def sendCommandAndAckState (op : Byte) (args : List Byte) (t : Timeout) (s : State) : State :=
  operate (.sendCommandAndAck op args t) (sendCommandAndAckWord op args t)
    (.handshake (.send .select)) (advanceHandshake op args t) s

/-- SEND_COMMAND_AND_ACK (R150): "send a frame, wait for ready, check the ACK, wait for ready again". -/
def execSendCommandAndAck (op : Byte) (args : List Byte) (t : Timeout) (s : State) :
    Host.Outcome State Fault Refusal :=
  .next (sendCommandAndAckState op args t s)

/-- The check on the bytes at offsets 6 and 7 of RX; with S = 0 offset 7 is not read (R153). -/
def checkResponseStep (code : Byte) (status : Bool) (s : State) : State :=
  if s.rxLen < responseNeed status then raiseFault (.cell s.rxLen) s
  else
    match readCell s.rx 6 with
    | none => raiseFault (.cell 6) s
    | some codeByte =>
      if status then
        match readCell s.rx 7 with
        | none => raiseFault (.cell 7) s
        | some statusByte =>
          if responseOk code codeByte (some statusByte) then finish .ok 0 s
          else finish .protocolStatusError 0 s
      else if responseOk code codeByte none then finish .ok 0 s
      else finish .protocolStatusError 0 s

/-- The one step of CHECK_RESPONSE after acceptance (R153). -/
def advanceCheckResponse (code : Byte) (status : Bool) (s : State) : State :=
  match s.seq with
  | .checkResponse => checkResponseStep code status s
  | _ => s

/-- CHECK_RESPONSE (R153). -/
def execCheckResponse (code : Byte) (status : Bool) (s : State) :
    Host.Outcome State Fault Refusal :=
  .next (operate (.checkResponse code status) (checkResponseWord code status) .checkResponse
    (advanceCheckResponse code status) s)

end Sys2Proof.Machine
end

