-- ==== Sys2Proof/Machine/Commands.lean ====
section
/-!
DEFINITION. The PN532 commands and data-exchange sub-commands of spec/43_pn532_commands.md, as the host
runs them: "The pseudocode: which block operations carry the code". Each rule's pseudocode is a
sequence of requests that begins with SEND_COMMAND_AND_ACK; the host issues the first one in this step
and goes on with the others under the stop rule (spec/30_encoding.md R87). The block treats the code
and every argument byte as opaque data (R89, R182).
-/

namespace Sys2Proof.Machine

/-- The host starts a PN532 command while the port is ready, else its issue waits (R216): the request
`SEND_COMMAND_AND_ACK <op> {args} [<T>]` now, then `READ_RESPONSE <len>` and the response check, if
the rule has one. -/
def carry (op : Byte) (args : List Byte) (t : Option Timeout) (len : Byte)
    (check : Option (Byte × Bool)) (s : State) : State :=
  if portReady s then
    sendCommandAndAckState op args (timeoutOrDefault t)
      { s with host := continueWith (responseRequests len check) s.host }
  else s

/-- A data-exchange sub-command: its code stands among the argument bytes of code 0x40, where the host
puts it (R177 to R181; N9), and the response is checked for 0x41 and the status byte. -/
def carryExchange (sub : Byte) (lead args : List Byte) (t : Option Timeout) (len : Byte)
    (s : State) : State :=
  carry 0x40 (lead ++ sub :: args) t len (some (0x41, true)) s

/-- FIRMWARE_VERSION, code 0x02, P = []; no response code in source (R170). -/
def execFirmwareVersion (t : Option Timeout) (len : Byte) (s : State) :
    Host.Outcome State Fault Refusal :=
  .next (carry 0x02 [] t len none s)

/-- SAM_CONFIGURATION, code 0x14, response code 0x15 (R171). -/
def execSamConfiguration (args : List Byte) (t : Option Timeout) (len : Byte) (s : State) :
    Host.Outcome State Fault Refusal :=
  .next (carry 0x14 args t len (some (0x15, false)) s)

/-- PEER_JUMP_FOR_DEP, code 0x56; no response code in source (R172). -/
def execPeerJumpForDep (args : List Byte) (t : Option Timeout) (len : Byte) (s : State) :
    Host.Outcome State Fault Refusal :=
  .next (carry 0x56 args t len none s)

/-- TARGET_INIT_AS_TARGET, code 0x8C; no response code in source (R173). -/
def execTargetInitAsTarget (args : List Byte) (t : Option Timeout) (len : Byte) (s : State) :
    Host.Outcome State Fault Refusal :=
  .next (carry 0x8C args t len none s)

/-- TARGET_GET_DATA, code 0x86, response code 0x87; STATUS is the host's choice (R174). -/
def execTargetGetData (args : List Byte) (t : Option Timeout) (len : Byte) (status : Bool)
    (s : State) : Host.Outcome State Fault Refusal :=
  .next (carry 0x86 args t len (some (0x87, status)) s)

/-- TARGET_SET_DATA, code 0x8E, response code 0x8F; STATUS is the host's choice (R175). -/
def execTargetSetData (args : List Byte) (t : Option Timeout) (len : Byte) (status : Bool)
    (s : State) : Host.Outcome State Fault Refusal :=
  .next (carry 0x8E args t len (some (0x8F, status)) s)

/-- LIST_PASSIVE_TARGET, code 0x4A, response code 0x4B (R176). -/
def execListPassiveTarget (args : List Byte) (t : Option Timeout) (len : Byte) (s : State) :
    Host.Outcome State Fault Refusal :=
  .next (carry 0x4A args t len (some (0x4B, false)) s)

/-- DATA_EXCHANGE, code 0x40, response code 0x41 and status byte (R177). -/
def execDataExchange (args : List Byte) (t : Option Timeout) (len : Byte) (s : State) :
    Host.Outcome State Fault Refusal :=
  .next (carry 0x40 args t len (some (0x41, true)) s)

/-- MIFARE_READ_PAGE, sub-code 0x30 (R178). -/
def execMifareReadPage (lead args : List Byte) (t : Option Timeout) (len : Byte) (s : State) :
    Host.Outcome State Fault Refusal :=
  .next (carryExchange 0x30 lead args t len s)

/-- MIFARE_WRITE_PAGE, sub-code 0xA0 (R179). -/
def execMifareWritePage (lead args : List Byte) (t : Option Timeout) (len : Byte) (s : State) :
    Host.Outcome State Fault Refusal :=
  .next (carryExchange 0xA0 lead args t len s)

/-- MIFARE_AUTH_KEY_A, sub-code 0x60 (R180). -/
def execMifareAuthKeyA (lead args : List Byte) (t : Option Timeout) (len : Byte) (s : State) :
    Host.Outcome State Fault Refusal :=
  .next (carryExchange 0x60 lead args t len s)

/-- MIFARE_AUTH_KEY_B, sub-code 0x61 (R181). -/
def execMifareAuthKeyB (lead args : List Byte) (t : Option Timeout) (len : Byte) (s : State) :
    Host.Outcome State Fault Refusal :=
  .next (carryExchange 0x61 lead args t len s)

end Sys2Proof.Machine
end

