-- ==== Sys2Proof/Machine/Poller.lean ====
section
/-!
DEFINITION. The status poller as an operation: WAIT_READY (spec/41_poller.md R138).
-/

namespace Sys2Proof.Machine

/-- The next primitive of WAIT_READY, then `finish(c, 0)` with the wait's code (R138). -/
def advanceWaitReady (t : Timeout) (s : State) : State :=
  match s.seq with
  | .waitReady p =>
    match waitBody t p s with
    | .more p' s' => goto (.waitReady p') s'
    | .ended code s' => finish code 0 s'
  | _ => s

/-- WAIT_READY (R138). With T = 0 it polls with no bound and may run for ever (R134). -/
def execWaitReady (t : Timeout) (s : State) : Host.Outcome State Fault Refusal :=
  .next (operate (.waitReady t) (waitReadyWord t) (.waitReady .first) (advanceWaitReady t) s)

end Sys2Proof.Machine
end

