-- ==== Sys2Proof/Machine/Dispatch.lean ====
section
/-!
DEFINITION. One arm per instruction: each is one step of that instruction in the state (R14).
-/

namespace Sys2Proof.Machine

def exec (i : Instr) (s : State) : Host.Outcome State Fault Refusal :=
  match i with
  | .encode op args => Sys2Proof.Machine.execEncode op args s
  | .readResponse len => Sys2Proof.Machine.execReadResponse len s
  | .decodeAck => Sys2Proof.Machine.execDecodeAck s
  | .waitReady t => Sys2Proof.Machine.execWaitReady t s
  | .sendCommandAndAck op args t => Sys2Proof.Machine.execSendCommandAndAck op args t s
  | .checkFrame => Sys2Proof.Machine.execCheckFrame s
  | .checkResponse code status => Sys2Proof.Machine.execCheckResponse code status s
  | .firmwareVersion t len => Sys2Proof.Machine.execFirmwareVersion t len s
  | .samConfiguration args t len => Sys2Proof.Machine.execSamConfiguration args t len s
  | .peerJumpForDep args t len => Sys2Proof.Machine.execPeerJumpForDep args t len s
  | .targetInitAsTarget args t len => Sys2Proof.Machine.execTargetInitAsTarget args t len s
  | .targetGetData args t len status => Sys2Proof.Machine.execTargetGetData args t len status s
  | .targetSetData args t len status => Sys2Proof.Machine.execTargetSetData args t len status s
  | .listPassiveTarget args t len => Sys2Proof.Machine.execListPassiveTarget args t len s
  | .dataExchange args t len => Sys2Proof.Machine.execDataExchange args t len s
  | .mifareReadPage lead args t len => Sys2Proof.Machine.execMifareReadPage lead args t len s
  | .mifareWritePage lead args t len => Sys2Proof.Machine.execMifareWritePage lead args t len s
  | .mifareAuthKeyA lead args t len => Sys2Proof.Machine.execMifareAuthKeyA lead args t len s
  | .mifareAuthKeyB lead args t len => Sys2Proof.Machine.execMifareAuthKeyB lead args t len s

end Sys2Proof.Machine
end

