-- ==== Sys2Proof/Machine/Fetch.lean ====
section
/-!
DEFINITION. What the machine does next: reset if the line is asserted (spec/70_reset_and_hazards.md
R241), the latched request while an operation is in flight (spec/10_state.md R28, R29), else the
host's next action (spec/60_exceptions.md R216), with the refusals of R202 at the acceptance step. And
how an instruction is placed where the next step finds it.
-/

namespace Sys2Proof.Machine

/-- The work of the next step: run an instruction in a state, or an outcome that needs none. -/
inductive Work where
  | run (i : Instr) (s : State)
  | settled (o : Host.Outcome State Fault Refusal)

/-- A quiescent block "takes no further step and accepts no request until reset" (R209): it waits for
a reset that is scheduled, and stops by name if none is. -/
def quiescentWork (s : State) : Work :=
  if true ∈ s.resetIn then .settled (.next s)
  else
    match s.seq with
    | .faulted what => .settled (.fault (.unwrittenRead what))
    | .refused why => .settled (.refused (.request why))
    | _ =>
      match s.readFault with
      | some what => .settled (.fault (.unwrittenRead what))
      | none => .settled (.next s)

/-- The work of a busy block: the instruction its latched request spells (R29). -/
def latchedWork (s : State) : Work :=
  if isQuiescent s.seq then quiescentWork s
  else
    match s.req with
    | none => .settled (.next s)
    | some r =>
      match decodeRequest r with
      | .ok i => .run i s
      | .error _ => .settled (.next s)

/-- The work when the host issues `c` and its programs go on with the rest already in `s`. -/
def issueWork (c : Coded) (s : State) : Work :=
  match decode c with
  | .ok i => .run i s
  | .error (.request why) => .settled (.next (raiseRefused why s))
  | .error (.command why) => .settled (.refused (.command why))

/-- The work when BUSY is false: the host's next action. With none left the block waits. A read is
answered whenever BUSY is false; a request needs the port ready. -/
def hostWork (s : State) : Work :=
  match nextAction s.host with
  | none => if portReady s then .settled (.next s) else quiescentWork s
  | some (.read r, rest) => .settled (.next (hostRead r { s with host := rest }))
  | some (.issue c, rest) =>
    if portReady s then issueWork c { s with host := rest } else quiescentWork s

/-- The work when reset is not asserted. -/
def blockWork (s : State) : Work := if s.busy then latchedWork s else hostWork s

/-- The work of the next step. The reset line's value for this step is taken off its schedule. -/
def nextWork (s : State) : Work :=
  match s.resetIn with
  | true :: later => .settled (.next (applyReset { s with resetIn := later }))
  | false :: later => blockWork { s with resetIn := later }
  | [] => blockWork s

/-- `s` with an instruction as the next thing the host issues, the port ready and reset not asserted,
and no fault of a host read, so that the very next step runs it (notes/assumptions/8.md). -/
def placeCoded (c : Coded) (s : State) : State :=
  { s with
    host := [.issue c] :: s.host
    busy := false
    seq := .idle
    resetIn := []
    readFault := none }

/-- The instruction of a table word placed for the next step; no word of the table, nothing placed. -/
def placeWord (nbits w : Nat) (s : State) : State :=
  match tableCoded nbits w with
  | some c => placeCoded c s
  | none => s

end Sys2Proof.Machine
end

