-- ==== Sys2Proof/Machine/Step.lean ====
section
/-!
DEFINITION. One step of the machine (spec/00_scope.md R14): the work that stands next, run by `exec`
where it is an instruction.
-/

namespace Sys2Proof.Machine

/-- One step: reset, one step of the instruction in flight or issued, or the host's own action. -/
def step (s : State) : Host.Outcome State Fault Refusal :=
  match nextWork s with
  | .run i t => exec i t
  | .settled o => o

/-- `s` with the instruction of a table word where the next step finds it. -/
def State.withFetchWord (s : State) (nbits w : Nat) : State := placeWord nbits w s

end Sys2Proof.Machine
end

