-- ==== Sys2Proof/Safety.lean ====
section
/-!
DEFINITION. What counts as a good state of the block, and the words the statements use: the invariant
of every step, a request in flight, runs, and the environment's answers ahead.
-/

namespace Sys2Proof.Machine

/-! ## The invariant -/

/-- The select line is asserted between a frame's `CS(true)` and its `CS(false)` (R101). -/
def sendSelects : SendPos → Bool
  | .select => false
  | .lead => true
  | .byte _ => true
  | .sent => false

/-- The select line is asserted between a poll's `CS(true)` and its `CS(false)` (R130). -/
def waitSelects : WaitPos → Bool
  | .first => false
  | .command => true
  | .status => true
  | .release _ => true
  | .judge _ => false
  | .slept => false

/-- The select line is asserted between a response read's `CS(true)` and its `CS(false)` (R104). -/
def readSelects : ReadPos → Bool
  | .select => false
  | .settle => true
  | .lead => true
  | .led => true
  | .byte _ => true
  | .got _ _ => true
  | .done => false

/-- Whether the select line is asserted at a point of the sequencer (R59). -/
def selects : Seq → Bool
  | .encode p => sendSelects p
  | .readResponse p => readSelects p
  | .waitReady p => waitSelects p
  | .handshake (.send p) => sendSelects p
  | .handshake (.waitAck p) => waitSelects p
  | .handshake (.readAck p) => readSelects p
  | .handshake (.waitResponse p) => waitSelects p
  | _ => false

/-- RXLEN at each point of a response read of `len` bytes: the cells stored so far (R104). -/
def readAgrees (len rxLen : Nat) : ReadPos → Prop
  | .select => True
  | .settle => rxLen = 0
  | .lead => rxLen = 0
  | .led => rxLen = 0
  | .byte k => rxLen = k ∧ k < len
  | .got k _ => rxLen = k ∧ k < len
  | .done => rxLen = len

/-- POLL and ELAPSED at each point of a wait with timeout `t`, once it has begun: POLL is POLLING (R136)
and, if `t` is not 0, ELAPSED does not yet exceed it (R131). -/
def waitAgrees (t : Timeout) (s : State) : WaitPos → Prop
  | .first => True
  | _ => s.poll = .polling ∧ (t ≠ 0 → s.elapsed.toNat ≤ t.toNat)

/-- REQ holds the request of the operation that SEQ runs, an admitted one (R28, R29), and the
registers the operation is using stand where its pseudocode has them. -/
def latchedFits (s : State) : Prop :=
  match s.seq with
  | .idle => True
  | .encode _ => ∃ op args, argsFit args = true ∧ s.req = some (encodeWord op args)
  | .readResponse p =>
      ∃ len, lengthFits len = true ∧ s.req = some (readResponseWord len) ∧
        readAgrees len.toNat s.rxLen p
  | .decodeAck => s.req = some decodeAckWord
  | .waitReady p => ∃ t, s.req = some (waitReadyWord t) ∧ waitAgrees t s p
  | .handshake p =>
      ∃ op args t, argsFit args = true ∧ s.req = some (sendCommandAndAckWord op args t) ∧
        match p with
        | .send _ => True
        | .waitAck q => waitAgrees t s q
        | .readAck q => readAgrees ackConst.length s.rxLen q
        | .waitResponse q => waitAgrees t s q
  | .checkFrame => s.req = some checkFrameWord
  | .checkResponse => ∃ code status, s.req = some (checkResponseWord code status)
  | .faulted _ => True
  | .refused _ => True

/-- The codes the block produces (R83, R200): RANGE_ERROR and UNRECOGNIZED_FAMILY are none of them. -/
def isProduced : ResultCode → Bool
  | .ok => true
  | .transportTimeout => true
  | .framingMismatch => true
  | .protocolStatusError => true
  | .rangeError => false
  | .unrecognizedFamily => false

/-- The invariant of the block. -/
structure State.Inv (s : State) : Prop where
  /-- "`RX[i]` holds a byte if and only if `i < RXLEN`" (R25), in canonical form. -/
  cells : s.rx.map Prod.fst = List.range s.rxLen
  /-- RXLEN is at most SCRATCH_SIZE (R20). -/
  fits : s.rxLen ≤ scratchSize
  /-- CS is asserted exactly inside a transaction (R59); between operations it is false (R21). -/
  select : s.cs = selects s.seq
  /-- SEQ "is `idle` when `BUSY = false`" (R28). -/
  resting : s.busy = false → s.seq = .idle
  /-- While BUSY is true SEQ is not idle. -/
  working : s.busy = true → s.seq ≠ .idle
  /-- No request is accepted between a host read that faulted and the next reset (R209). -/
  quiet : s.busy = true → s.readFault = none
  /-- REQ and SEQ agree. -/
  latched : latchedFits s
  /-- RESULT holds no reserved code. -/
  produced : ∀ v, s.result = some v → isProduced v.code = true

/-! ## Words of the statements -/

/-- The operation whose request is `r` is in flight and its sequencer stands at `q`. -/
def InFlight (r : Request) (q : Seq) (s : State) : Prop :=
  s.busy = true ∧ s.req = some r ∧ s.seq = q

/-- No reset now, the command port ready, and `r` the next thing the host issues. -/
def Issues (r : Request) (s : State) : Prop :=
  s.resetIn = [] ∧ portReady s = true ∧ (nextAction s.host).map Prod.fst = some (issue r)

/-- Some number of steps of the machine lead from `s` to `t`. -/
def Reaches (s t : State) : Prop := ∃ n, Host.Core.run Sys2Proof.core n s = .next t

/-- The answer to the transfer that is `j` transfers ahead. -/
def answerAt (s : State) (j : Nat) : Byte :=
  match s.chip[j]? with
  | some b => b
  | none => Config.draw (s.draws + (j - s.chip.length))

/-- The answers to the next `n` transfers. -/
def answers (s : State) (n : Nat) : List Byte := (List.range n).map (answerAt s)

/-- The state after `n` transfers as far as the environment goes. -/
def chipAfter (s : State) (n : Nat) : List Byte := s.chip.drop n

/-- How many of the next `n` answers are free draws, added to those drawn. -/
def drawsAfter (s : State) (n : Nat) : Nat := s.draws + (n - s.chip.length)

/-- The bytes of an optional prefix. -/
def optBytes (b : Option Byte) : List Byte :=
  match b with
  | some b => [b]
  | none => []

/-- The events of transfers with the bytes sent and the bytes received. -/
def xferEvents (outs ins : List Byte) : List Event := List.zipWith Event.xfer outs ins

/-- The four events of one poll that sends `cmd` and receives `a` and then the status byte `b` (R130). -/
def pollEvents (cmd a b : Byte) : List Event :=
  [.cs true, .xfer cmd a, .xfer fillByte b, .cs false]

/-- The events of `n` polls that were not ready, each with its sleep (R131). -/
def idlePolls (s : State) (n : Nat) : List Event :=
  (List.range n).flatMap fun j =>
    pollEvents s.config.statusReadCmd (answerAt s (2 * j)) (answerAt s (2 * j + 1))
      ++ [.sleep pollIntervalMs]

/-- `k(T) = floor(T / 10) + 1`, the polls of a wait that times out (R133). -/
def pollBound (t : Timeout) : Nat := t.toNat / 10 + 1

/-- An event at which the host stops its program: a finish whose code is not OK, a fault or a refusal
(R87). -/
def isFailure : Event → Bool
  | .cs _ => false
  | .xfer _ _ => false
  | .sleep _ => false
  | .finish code _ => decide (code ≠ .ok)
  | .fault _ => true
  | .refused _ => true

/-- The step from `s` to `u` records an event at which the host stops. -/
def Fails (s u : State) : Prop := ∃ e, isFailure e = true ∧ u.events = s.events ++ [e]

/-- The points at which a wait begins and sets ELAPSED to 0 and POLL to POLLING (R131): the first step
of WAIT_READY, and in the handshake the end of the frame, the end of the ACK read, and the first points
of the two waits. -/
def startsWait : Seq → Bool
  | .waitReady .first => true
  | .handshake (.send .sent) => true
  | .handshake (.waitAck .first) => true
  | .handshake (.readAck .done) => true
  | .handshake (.waitResponse .first) => true
  | _ => false

/-- The points at which a response read begins and clears RX (R104, R24): the first step of
READ_RESPONSE, and in the handshake the READY that ends the first wait, and the read's first point. -/
def startsRead : Seq → Bool
  | .readResponse .select => true
  | .handshake (.waitAck (.judge b)) => b == 0x01
  | .handshake (.readAck .select) => true
  | _ => false

/-- The instruction is refused in `s`: the marks and the event of a refusal (R202), nothing else but the
host's programs, of which the current one has nothing left and the later ones stand (R87). -/
def RefusedAs (why : RequestRefusal) (i : Instr) (s : State) : Prop :=
  ∃ h : List (List HostAction),
    (∀ cur later, s.host = cur :: later → h = [] :: later) ∧ (s.host = [] → ∀ p ∈ h, p = []) ∧
    exec i s = .next { s with
      refused := true, busy := true, seq := .refused why,
      events := s.events ++ [.refused why], host := h }

/-- An instruction that is one request on the command port. -/
def isOperation (i : Instr) : Bool :=
  match encode i with
  | .request _ => true
  | .command _ _ => false

/-- Two states that differ, if at all, in the latched request and in the bytes sent so far: what R182
calls the same sequence of events and the same control flow. -/
def sameShape (e f : Event) : Prop :=
  match e, f with
  | .xfer _ a, .xfer _ b => a = b
  | e, f => e = f

end Sys2Proof.Machine
end

