-- ==== Sys2Proof/Certificates/Slice0/Obligations.lean ====
section
/-!
DEFINITION. The statements about the machine, for the provers. Each docstring names the rule of spec/
it formalises and every choice of the model it rests on.
-/

open Sys2Proof Sys2Proof.Machine

/-! ## Encoding -/

/-- R70, R71, R170 to R181: every field of every instruction survives encoding and decoding, at every
value the encoding admits. -/
def Obligations.DecodeEncodeRoundTrip : Prop :=
  ∀ i : Instr, i.wellFormed = true → decode (encode i) = .ok i

/-- R71, R72 for a request: "No field is ignored": what decodes to an instruction is that instruction's
encoding and nothing else. For a PN532 command the same is the model's choice: the operand form of a
command, and that an operand its rule does not have is rejected and not dropped, are notes/assumptions/9.md,
10.md and 17.md (DESIGN CHOICE). -/
def Obligations.DecodedIsTheEncoding : Prop :=
  ∀ (c : Coded) (i : Instr), decode c = .ok i → encode i = c

/-- R71: a request is admitted iff `(H & mask) = match` for one of the seven rows, the payload is empty
unless the row is ENCODE or SEND_COMMAND_AND_ACK, and the value checks pass. -/
def Obligations.RequestAdmission : Prop :=
  ∀ (h : Header) (p : List Byte),
    (∃ i, decodeRequest { header := h, payload := p } = .ok i) ↔
      (h &&& 0xFFFF00FF = 0x00000001 ∧ 1 + p.length ≤ 64) ∨
      (h &&& 0xFFFF00FF = 0x00000002 ∧ p = [] ∧ (h.extractLsb' 8 8).toNat ≤ 64) ∨
      (h &&& 0xFFFFFFFF = 0x00000003 ∧ p = []) ∨
      (h &&& 0x0000FFFF = 0x00000004 ∧ p = []) ∨
      (h &&& 0x000000FF = 0x00000005 ∧ 1 + p.length ≤ 64) ∨
      (h &&& 0xFFFFFFFF = 0x00000006 ∧ p = []) ∨
      (h &&& 0xFFFF00EF = 0x00000007 ∧ p = [])

/-- R88 (illegal OP), R72 (reserved bits and unused fields), R73 (payload presence), R74 (the value checks
and the order of the tests): which refusal a request gets. -/
def Obligations.RefusalReasonsInOrder : Prop :=
  ∀ (h : Header) (p : List Byte),
    (((h.extractLsb' 0 4).toNat = 0 ∨ 8 ≤ (h.extractLsb' 0 4).toNat) →
      decodeRequest { header := h, payload := p } = .error .illegalOp) ∧
    (∀ o, operationOf (h.extractLsb' 0 4) = some o → h &&& operationMask o ≠ operationMatch o →
      decodeRequest { header := h, payload := p } = .error .reservedField) ∧
    (∀ o, operationOf (h.extractLsb' 0 4) = some o → h &&& operationMask o = operationMatch o →
      o ≠ .encode → o ≠ .sendCommandAndAck → p ≠ [] →
      decodeRequest { header := h, payload := p } = .error .unexpectedPayload) ∧
    (∀ o, operationOf (h.extractLsb' 0 4) = some o → h &&& operationMask o = operationMatch o →
      (o = .encode ∨ o = .sendCommandAndAck) → 64 < 1 + p.length →
      decodeRequest { header := h, payload := p } = .error .payloadTooLong) ∧
    (h &&& 0xFFFF00FF = 0x00000002 → p = [] → 64 < (h.extractLsb' 8 8).toNat →
      decodeRequest { header := h, payload := p } = .error .lengthTooLong)

/-- Sanity: words of R86, of 95 section 2.8 and of the code tables of 43 sections 1 and 2, written out bit by
bit, decode to what they stand for. That a command code, 0xA0 of a sub-command among them, is an
instruction of the host with operands of its own is the model's choice (notes/assumptions/9.md, 10.md, 20.md). -/
def Obligations.WrittenWordsDecode : Prop :=
  decode (.request ⟨0b0000000000000000_00000010_000_0_0001, []⟩) = .ok (.encode 0x02 []) ∧
  decode (.request ⟨0b0000000000000000_00011010_000_0_0010, []⟩) = .ok (.readResponse 26) ∧
  decode (.request ⟨0b0000000000011001_00000000_000_0_0100, []⟩) = .ok (.waitReady 25) ∧
  decode (.request ⟨0b0000001111101000_01000000_000_0_0101, [0x01, 0x30, 0x04]⟩)
    = .ok (.sendCommandAndAck 0x40 [0x01, 0x30, 0x04] 1000) ∧
  decode (.request ⟨0b0000000000000000_01000001_000_1_0111, []⟩) = .ok (.checkResponse 0x41 true) ∧
  decode (.request ⟨0b0000000000000000_00000001_000_0_0011, [0x01]⟩)
    = .error (.request .reservedField) ∧
  decode (.command 0x4A CommandOperands.bare) = .ok (.listPassiveTarget [] none 0) ∧
  decode (.command 0xA0 CommandOperands.bare) = .ok (.mifareWritePage [] [] none 0)

/-! ## Frames -/

/-- R75, with R76: the command frame byte by byte, N + 9 bytes long, LEN = N + 2. -/
def Obligations.CommandFrameLayout : Prop :=
  ∀ (op : Byte) (p : List Byte), p.length ≤ 253 →
    (encodeFrame op p).length = p.length + 9 ∧
    (encodeFrame op p).take 7 = [0x00, 0x00, 0xFF, BitVec.ofNat 8 (p.length + 2),
      neg8 (BitVec.ofNat 8 (p.length + 2)), 0xD4, op] ∧
    (BitVec.ofNat 8 (p.length + 2)).toNat = p.length + 2 ∧
    (∀ k, k < p.length → (encodeFrame op p)[7 + k]? = p[k]?) ∧
    (encodeFrame op p)[7 + p.length]? = some (neg8 (0xD4 + op + sum8 p)) ∧
    (encodeFrame op p)[8 + p.length]? = some 0x00

/-- R102: the laws of `encode_frame`, (a) to (e). -/
def Obligations.EncodeFrameLaws : Prop :=
  (∀ (op : Byte) (p : List Byte), p.length ≤ 253 →
    (encodeFrame op p).getD 3 0 + (encodeFrame op p).getD 4 0 = 0 ∧
    (encodeFrame op p).getD (7 + p.length) 0 + (0xD4 + op + sum8 p) = 0 ∧
    frameCheck (encodeFrame op p) = .valid ∧
    isAck ((encodeFrame op p).take 6) = false) ∧
  encodeFrame 0x02 [] = [0x00, 0x00, 0xFF, 0x02, 0xFE, 0xD4, 0x02, 0x2A, 0x00]

/-- R10: `neg8(v)` is `(256 - v) mod 256`, and `v +8 neg8(v) = 0`; `sum8` is the sum mod 256. -/
def Obligations.ByteArithmetic : Prop :=
  (∀ v : Byte, (neg8 v).toNat = (256 - v.toNat) % 256 ∧ v + neg8 v = 0) ∧
  (∀ s : List Byte, (sum8 s).toNat = (s.map BitVec.toNat).sum % 256)

/-- R103: `is_ack(b)` for a sequence of six bytes: true iff all six are the ACK's. -/
def Obligations.AckIsExactMatch : Prop :=
  ∀ b : List Byte, b.length = 6 →
    (isAck b = true ↔
      b[0]? = some 0x00 ∧ b[1]? = some 0x00 ∧ b[2]? = some 0xFF ∧
      b[3]? = some 0x00 ∧ b[4]? = some 0xFF ∧ b[5]? = some 0x00)

/-- R106: `frame_check(s)` by the offsets of the received sequence, in the order of its steps; the
direction byte at offset 5 is not checked, and "Bytes after offset `6+LEN` are ignored". -/
def Obligations.FrameCheckSteps : Prop :=
  (∀ s : List Byte,
    frameCheck s =
      if s.length < 5 then .short
      else if ¬(s.getD 0 0 = 0x00 ∧ s.getD 1 0 = 0x00 ∧ s.getD 2 0 = 0xFF) then .badStart
      else if s.getD 3 0 + s.getD 4 0 ≠ 0 then .badLcs
      else if s.length < (s.getD 3 0).toNat + 7 then .short
      else if sum8 ((s.drop 5).take (s.getD 3 0).toNat) + s.getD (5 + (s.getD 3 0).toNat) 0 ≠ 0
        then .badDcs
      else if s.getD (6 + (s.getD 3 0).toNat) 0 ≠ 0x00 then .badPostamble
      else .valid) ∧
  (∀ s tail : List Byte, 5 ≤ s.length → (s.getD 3 0).toNat + 7 ≤ s.length →
    frameCheck (s ++ tail) = frameCheck s)

/-! ## Acceptance, waiting, refusal -/

/-- R27, R29, R202 (the acceptance step is the model's reading, notes/assumptions/1.md): while the port
is ready, an admitted operation is latched whole into REQ, BUSY is set, SEQ leaves idle, and nothing
else changes; in particular no event is recorded. -/
def Obligations.AcceptanceLatchesRequest : Prop :=
  ∀ (i : Instr) (r : Request) (s : State), encode i = .request r → i.wellFormed = true →
    portReady s = true →
    ∃ q, q ≠ .idle ∧ isQuiescent q = false ∧
      exec i s = .next { s with req := some r, busy := true, seq := q }

/-- R216: "While BUSY = true the port is not ready and the host's issue waits"; R209: nor does a block that
has faulted or refused accept a request until reset, BUSY false after a host read's fault included
(notes/assumptions/12.md). While the port is not ready, an operation other than the one latched changes
nothing, nor does a PN532 command; that a command is an instruction that waits as a whole is the model's
choice (notes/assumptions/9.md). -/
def Obligations.IssueWaitsWhileBusy : Prop :=
  ∀ (i : Instr) (s : State), portReady s = false →
    (∀ r, encode i = .request r → s.req ≠ some r) → exec i s = .next s

/-- R202, R88, R87: "It writes only `REFUSED <- true`, `BUSY` (which stays true) and `SEQ`"; the history
records the refusal, and no port event. The host issues nothing more of the program the request stood
in, and its later programs stand. The `k` empty lists are programs that have ended (notes/assumptions/8.md);
REQ as it was is 4.md, the next state 3.md. -/
def Obligations.RefusalWritesMarksOnly : Prop :=
  ∀ (r : Request) (why : RequestRefusal) (s : State) (k : Nat) (cur : List HostAction)
    (later : List (List HostAction)), s.resetIn = [] → portReady s = true →
    s.host = List.replicate k [] ++ (issue r :: cur) :: later → decodeRequest r = .error why →
    step s = .next { s with
      refused := true, busy := true, seq := .refused why,
      events := s.events ++ [.refused why], host := [] :: later }

/-- R202 (d), (e), R74, R179 for an operation whose value check fails and for a PN532 command with too long
a payload: the block refuses an ENCODE or a SEND_COMMAND_AND_ACK with more than 63 argument bytes, the
handshake of a PN532 command with more than 63 argument bytes (the sub-command byte counted), and a
READ_RESPONSE of more than 64 bytes, at acceptance. A command whose read length alone is above 64 is not
among them: its handshake is accepted, and its READ_RESPONSE is refused when the host issues it.
That the refusal is a next state is the model's choice (notes/assumptions/3.md), that REQ keeps its value
its reading (4.md); a command as an instruction and the host's programs are 8.md and 9.md. -/
def Obligations.IllFormedOperationRefused : Prop :=
  ∀ (s : State) (op len : Byte) (lead args : List Byte) (t : Timeout) (t' : Option Timeout)
    (status : Bool), portReady s = true →
    (64 < 1 + args.length →
      RefusedAs .payloadTooLong (.encode op args) s ∧
      RefusedAs .payloadTooLong (.sendCommandAndAck op args t) s ∧
      RefusedAs .payloadTooLong (.samConfiguration args t' len) s ∧
      RefusedAs .payloadTooLong (.peerJumpForDep args t' len) s ∧
      RefusedAs .payloadTooLong (.targetInitAsTarget args t' len) s ∧
      RefusedAs .payloadTooLong (.targetGetData args t' len status) s ∧
      RefusedAs .payloadTooLong (.targetSetData args t' len status) s ∧
      RefusedAs .payloadTooLong (.listPassiveTarget args t' len) s ∧
      RefusedAs .payloadTooLong (.dataExchange args t' len) s) ∧
    (64 < 1 + (lead.length + 1 + args.length) →
      RefusedAs .payloadTooLong (.mifareReadPage lead args t' len) s ∧
      RefusedAs .payloadTooLong (.mifareWritePage lead args t' len) s ∧
      RefusedAs .payloadTooLong (.mifareAuthKeyA lead args t' len) s ∧
      RefusedAs .payloadTooLong (.mifareAuthKeyB lead args t' len) s) ∧
    (64 < len.toNat → RefusedAs .lengthTooLong (.readResponse len) s)

/-! ## A step runs the decoded instruction -/

/-- What a step does with an instruction: an operation in flight is run from REQ (R28, R29); an instruction
the host issues is run (R216) with the action taken off its program; a deasserted reset line (R241) is
taken off its schedule and changes nothing else. That the host's programs and the reset line stand in the
state as lists from which a step takes is the model's choice (DESIGN CHOICE, notes/assumptions/8.md and
7.md). -/
def Obligations.StepRunsDecoded : Prop :=
  (∀ (s : State) (r : Request) (i : Instr), s.resetIn = [] → s.busy = true →
    isQuiescent s.seq = false → s.req = some r → decodeRequest r = .ok i → step s = exec i s) ∧
  (∀ (s : State) (c : Coded) (rest : List (List HostAction)) (i : Instr), s.resetIn = [] →
    portReady s = true → nextAction s.host = some (.issue c, rest) → decode c = .ok i →
    step s = exec i { s with host := rest }) ∧
  (∀ (s : State) (r : Request) (i : Instr) (later : List Bool), s.resetIn = false :: later →
    s.busy = true → isQuiescent s.seq = false → s.req = some r → decodeRequest r = .ok i →
    step s = exec i { s with resetIn := later }) ∧
  (∀ (s : State) (c : Coded) (rest : List (List HostAction)) (i : Instr) (later : List Bool),
    s.resetIn = false :: later → portReady s = true →
    nextAction s.host = some (.issue c, rest) → decode c = .ok i →
    step s = exec i { s with host := rest, resetIn := later })

/-- A table word placed for the next step is the instruction that step runs. How a word is placed, and that
an 8-bit word is a command code with no operands, are the model's choice (notes/assumptions/8.md, 20.md). -/
def Obligations.PlacedWordRuns : Prop :=
  ∀ (s : State) (nbits w : Nat) (i : Instr), decodeTableWord nbits w = some i →
    step (s.withFetchWord nbits w) =
      exec i { s with
        host := [] :: s.host, busy := false, seq := .idle, resetIn := [], readFault := none }

/-! ## ENCODE -/

/-- R101 step by step: with ENCODE in flight, `CS(true)`, the prefix, each frame byte, `CS(false)`, one
primitive a step, and only CS, the history, the environment and SEQ change. -/
def Obligations.EncodeSteps : Prop :=
  ∀ (s : State) (op : Byte) (args : List Byte),
    (InFlight (encodeWord op args) (.encode .select) s →
      exec (.encode op args) s = .next { s with
        cs := true, events := s.events ++ [.cs true], seq := .encode .lead }) ∧
    (∀ b, InFlight (encodeWord op args) (.encode .lead) s → s.config.dataWritePrefix = some b →
      exec (.encode op args) s = .next { s with
        events := s.events ++ [.xfer b (answerAt s 0)], seq := .encode (.byte 0),
        chip := chipAfter s 1, draws := drawsAfter s 1 }) ∧
    (∀ b, InFlight (encodeWord op args) (.encode .lead) s → s.config.dataWritePrefix = none →
      (encodeFrame op args)[0]? = some b →
      exec (.encode op args) s = .next { s with
        events := s.events ++ [.xfer b (answerAt s 0)], seq := .encode (.byte 1),
        chip := chipAfter s 1, draws := drawsAfter s 1 }) ∧
    (∀ k b, InFlight (encodeWord op args) (.encode (.byte k)) s →
      (encodeFrame op args)[k]? = some b →
      exec (.encode op args) s = .next { s with
        events := s.events ++ [.xfer b (answerAt s 0)], seq := .encode (.byte (k + 1)),
        chip := chipAfter s 1, draws := drawsAfter s 1 }) ∧
    (InFlight (encodeWord op args) (.encode (.byte (args.length + 9))) s →
      exec (.encode op args) s = .next { s with
        cs := false, events := s.events ++ [.cs false], seq := .encode .sent }) ∧
    (InFlight (encodeWord op args) (.encode .sent) s →
      ∃ h, exec (.encode op args) s = .next { s with
        result := some { code := .ok, value := 0 }, busy := false, seq := .idle,
        events := s.events ++ [.finish .ok 0], host := h })

/-- R101: a whole ENCODE: `CS(true)`, the optional prefix, the frame, `CS(false)`, `finish(OK, 0)`, every
answer discarded; "It does not write RX, RXLEN, POLL or ELAPSED." -/
def Obligations.EncodeSendsTheFrame : Prop :=
  ∀ (s : State) (op : Byte) (args : List Byte), argsFit args = true →
    Issues (encodeWord op args) s →
    ∃ t, Reaches s t ∧
      t = { s with
        cs := false
        result := some { code := .ok, value := 0 }
        busy := false
        seq := .idle
        events := s.events ++ [.cs true]
          ++ xferEvents (optBytes s.config.dataWritePrefix ++ encodeFrame op args)
              (answers s ((optBytes s.config.dataWritePrefix).length + args.length + 9))
          ++ [.cs false, .finish .ok 0]
        chip := chipAfter s ((optBytes s.config.dataWritePrefix).length + args.length + 9)
        draws := drawsAfter s ((optBytes s.config.dataWritePrefix).length + args.length + 9)
        req := t.req
        host := t.host }

/-! ## READ_RESPONSE -/

/-- R104 step by step. The byte of a transfer reaches RX and RXLEN in the step after it (the model's
reading of R14, notes/assumptions/2.md). -/
def Obligations.ReadResponseSteps : Prop :=
  ∀ (s : State) (len : Byte),
    (InFlight (readResponseWord len) (.readResponse .select) s →
      exec (.readResponse len) s = .next { s with
        rx := [], rxLen := 0, cs := true, events := s.events ++ [.cs true],
        seq := .readResponse .settle }) ∧
    (InFlight (readResponseWord len) (.readResponse .settle) s →
      exec (.readResponse len) s = .next { s with
        events := s.events ++ [.sleep s.config.settlePreMs], seq := .readResponse .lead }) ∧
    (∀ b, InFlight (readResponseWord len) (.readResponse .lead) s →
      s.config.dataReadPrefix = some b →
      exec (.readResponse len) s = .next { s with
        events := s.events ++ [.xfer b (answerAt s 0)], seq := .readResponse .led,
        chip := chipAfter s 1, draws := drawsAfter s 1 }) ∧
    (∀ k, (InFlight (readResponseWord len) (.readResponse (.byte k)) s ∨
        (InFlight (readResponseWord len) (.readResponse .lead) s ∧
          s.config.dataReadPrefix = none ∧ k = 0 ∧ len ≠ 0)) →
      exec (.readResponse len) s = .next { s with
        events := s.events ++ [.xfer 0x00 (answerAt s 0)],
        seq := .readResponse (.got k (answerAt s 0)),
        chip := chipAfter s 1, draws := drawsAfter s 1 }) ∧
    (InFlight (readResponseWord len) (.readResponse .led) s → len ≠ 0 →
      exec (.readResponse len) s = .next { s with
        events := s.events ++ [.sleep s.config.settleBetweenMs],
        seq := .readResponse (.byte 0) }) ∧
    ((InFlight (readResponseWord len) (.readResponse .led) s ∨
        (InFlight (readResponseWord len) (.readResponse .lead) s ∧
          s.config.dataReadPrefix = none)) → len = 0 →
      exec (.readResponse len) s = .next { s with
        cs := false, events := s.events ++ [.cs false], seq := .readResponse .done }) ∧
    (∀ k b, InFlight (readResponseWord len) (.readResponse (.got k b)) s → k + 1 < len.toNat →
      exec (.readResponse len) s = .next { s with
        rx := writeCell s.rx k b, rxLen := k + 1,
        events := s.events ++ [.sleep s.config.settleBetweenMs],
        seq := .readResponse (.byte (k + 1)) }) ∧
    (∀ k b, InFlight (readResponseWord len) (.readResponse (.got k b)) s → k + 1 = len.toNat →
      exec (.readResponse len) s = .next { s with
        rx := writeCell s.rx k b, rxLen := k + 1, cs := false,
        events := s.events ++ [.cs false], seq := .readResponse .done }) ∧
    (InFlight (readResponseWord len) (.readResponse .done) s →
      ∃ h, exec (.readResponse len) s = .next { s with
        result := some { code := .ok, value := 0 }, busy := false, seq := .idle,
        events := s.events ++ [.finish .ok 0], host := h })

/-- R104: a whole READ_RESPONSE of length L leaves exactly the L bytes received in the data phase in
cells 0..L-1, every other cell without a value, RXLEN = L, RESULT = (OK, 0), CS false; POLL and
ELAPSED are as before. -/
def Obligations.ReadResponseReadsExactly : Prop :=
  ∀ (s : State) (len : Byte), lengthFits len = true → Issues (readResponseWord len) s →
    ∃ t, Reaches s t ∧ t.busy = false ∧ t.cs = false ∧
      t.result = some { code := .ok, value := 0 } ∧ t.rxLen = len.toNat ∧
      t.poll = s.poll ∧ t.elapsed = s.elapsed ∧
      (∀ k, k < len.toNat →
        readCell t.rx k = some (answerAt s ((optBytes s.config.dataReadPrefix).length + k))) ∧
      (∀ k, len.toNat ≤ k → readCell t.rx k = none)

/-! ## DECODE_ACK, CHECK_FRAME, CHECK_RESPONSE -/

/-- R105: DECODE_ACK in flight. It faults with `UnwrittenRead(RXLEN)` if fewer than 6 bytes are valid,
else it finishes (OK, 1) on the ACK and (FRAMING_MISMATCH, 0) on anything else, from RX[0..5] alone. It
writes RESULT only. -/
def Obligations.DecodeAckOutcome : Prop :=
  ∀ s : State, InFlight decodeAckWord .decodeAck s →
    (s.rxLen < 6 → ∃ h, exec .decodeAck s = .next { s with
      faulted := true, seq := .faulted (.cell s.rxLen),
      events := s.events ++ [.fault (.cell s.rxLen)], host := h }) ∧
    (∀ b0 b1 b2 b3 b4 b5, 6 ≤ s.rxLen →
      readCell s.rx 0 = some b0 → readCell s.rx 1 = some b1 → readCell s.rx 2 = some b2 →
      readCell s.rx 3 = some b3 → readCell s.rx 4 = some b4 → readCell s.rx 5 = some b5 →
      ([b0, b1, b2, b3, b4, b5] = [0x00, 0x00, 0xFF, 0x00, 0xFF, 0x00] →
        ∃ h, exec .decodeAck s = .next { s with
          result := some { code := .ok, value := 1 }, busy := false, seq := .idle,
          events := s.events ++ [.finish .ok 1], host := h }) ∧
      ([b0, b1, b2, b3, b4, b5] ≠ [0x00, 0x00, 0xFF, 0x00, 0xFF, 0x00] →
        ∃ h, exec .decodeAck s = .next { s with
          result := some { code := .framingMismatch, value := 0 }, busy := false, seq := .idle,
          events := s.events ++ [.finish .framingMismatch 0], host := h }))

/-- R107: CHECK_FRAME in flight, in a state with the invariant, finishes (OK, verdict) with the verdict
of `frame_check` on RX[0..RXLEN-1]; it never faults and writes RESULT only. -/
def Obligations.CheckFrameReportsVerdict : Prop :=
  ∀ s : State, s.Inv → InFlight checkFrameWord .checkFrame s →
    ∃ h, exec .checkFrame s = .next { s with
      result := some { code := .ok, value := verdictByte (frameCheck (s.rx.map Prod.snd)) },
      busy := false, seq := .idle,
      events := s.events ++ [.finish .ok (verdictByte (frameCheck (s.rx.map Prod.snd)))],
      host := h }

/-- R153: CHECK_RESPONSE in flight. It faults with `UnwrittenRead(RXLEN)` if RXLEN is below 7 (S = 0) or
8 (S = 1), else (OK, 0) iff RX[6] is the code and, with S = 1, RX[7] = 0x00. It writes RESULT only. -/
def Obligations.CheckResponseOutcome : Prop :=
  ∀ (s : State) (code : Byte) (status : Bool),
    InFlight (checkResponseWord code status) .checkResponse s →
    (s.rxLen < (if status then 8 else 7) → ∃ h, exec (.checkResponse code status) s = .next { s with
      faulted := true, seq := .faulted (.cell s.rxLen),
      events := s.events ++ [.fault (.cell s.rxLen)], host := h }) ∧
    (∀ b6 b7, (if status then 8 else 7) ≤ s.rxLen → readCell s.rx 6 = some b6 →
      (status = true → readCell s.rx 7 = some b7) →
      ((b6 = code ∧ (status = true → b7 = 0x00)) →
        ∃ h, exec (.checkResponse code status) s = .next { s with
          result := some { code := .ok, value := 0 }, busy := false, seq := .idle,
          events := s.events ++ [.finish .ok 0], host := h }) ∧
      (¬(b6 = code ∧ (status = true → b7 = 0x00)) →
        ∃ h, exec (.checkResponse code status) s = .next { s with
          result := some { code := .protocolStatusError, value := 0 }, busy := false, seq := .idle,
          events := s.events ++ [.finish .protocolStatusError 0], host := h }))

/-! ## WAIT_READY -/

/-- R130, R131, R136, R138 step by step: a wait starts ELAPSED at 0 and POLL at POLLING; a poll is
`CS(true)`, the status request, the status byte, `CS(false)`. -/
def Obligations.WaitReadyPollSteps : Prop :=
  ∀ (s : State) (t : Timeout),
    (InFlight (waitReadyWord t) (.waitReady .first) s →
      exec (.waitReady t) s = .next { s with
        elapsed := 0, poll := .polling, cs := true, events := s.events ++ [.cs true],
        seq := .waitReady .command }) ∧
    (InFlight (waitReadyWord t) (.waitReady .command) s →
      exec (.waitReady t) s = .next { s with
        events := s.events ++ [.xfer s.config.statusReadCmd (answerAt s 0)],
        seq := .waitReady .status, chip := chipAfter s 1, draws := drawsAfter s 1 }) ∧
    (InFlight (waitReadyWord t) (.waitReady .status) s →
      exec (.waitReady t) s = .next { s with
        events := s.events ++ [.xfer 0x00 (answerAt s 0)],
        seq := .waitReady (.release (answerAt s 0)),
        chip := chipAfter s 1, draws := drawsAfter s 1 }) ∧
    (∀ b, InFlight (waitReadyWord t) (.waitReady (.release b)) s →
      exec (.waitReady t) s = .next { s with
        cs := false, events := s.events ++ [.cs false], seq := .waitReady (.judge b) })

/-- R132: "The ready test is exact equality of the whole status byte with READY = 0x01. Every other
byte value means not ready, and the poll continues": READY finishes the wait with (OK, 0) and POLL
READY, any other byte sleeps 10 ms and goes on. -/
def Obligations.ReadyTestIsExact : Prop :=
  ∀ (s : State) (t : Timeout) (b : Byte), InFlight (waitReadyWord t) (.waitReady (.judge b)) s →
    (b = 0x01 → ∃ h, exec (.waitReady t) s = .next { s with
      poll := .ready, result := some { code := .ok, value := 0 }, busy := false, seq := .idle,
      events := s.events ++ [.finish .ok 0], host := h }) ∧
    (b ≠ 0x01 → exec (.waitReady t) s = .next { s with
      events := s.events ++ [.sleep 10], seq := .waitReady .slept })

/-- R131 after a sleep, with R23's saturating count: ELAPSED grows by 10, the wait times out iff T is
not 0 and ELAPSED exceeds T, and otherwise the next poll starts. -/
def Obligations.TimeoutTestAfterSleep : Prop :=
  ∀ (s : State) (t : Timeout), InFlight (waitReadyWord t) (.waitReady .slept) s →
    ∃ e : Millis, e.toNat = min (s.elapsed.toNat + 10) (2 ^ 32 - 1) ∧
      ((t ≠ 0 ∧ t.toNat < e.toNat) → ∃ h, exec (.waitReady t) s = .next { s with
        elapsed := e, poll := .timedOut, result := some { code := .transportTimeout, value := 0 },
        busy := false, seq := .idle, events := s.events ++ [.finish .transportTimeout 0],
        host := h }) ∧
      (¬(t ≠ 0 ∧ t.toNat < e.toNat) → exec (.waitReady t) s = .next { s with
        elapsed := e, cs := true, events := s.events ++ [.cs true], seq := .waitReady .command })

/-- R133: with T > 0, if none of the first `k(T) = floor(T / 10) + 1` polls answers READY, the wait
makes exactly k(T) polls and k(T) sleeps and ends in TRANSPORT_TIMEOUT with ELAPSED = 10 k(T), which
lies in (T, T + 10]; if poll j is the first that answers READY, it returns OK with
ELAPSED = 10 (j - 1). That every transfer and every sleep completes, without which no wait need end, is
what the spec assumes (R212) and the model has built in (notes/assumptions/15.md, unsafe). -/
def Obligations.WaitBound : Prop :=
  ∀ (s : State) (t : Timeout), t ≠ 0 → Issues (waitReadyWord t) s →
    (t.toNat < 10 * pollBound t ∧ 10 * pollBound t ≤ t.toNat + 10) ∧
    ((∀ j, j < pollBound t → answerAt s (2 * j + 1) ≠ 0x01) →
      ∃ u, Reaches s u ∧ u.busy = false ∧ u.poll = .timedOut ∧
        u.elapsed.toNat = 10 * pollBound t ∧
        u.result = some { code := .transportTimeout, value := 0 } ∧
        u.events = s.events ++ idlePolls s (pollBound t) ++ [.finish .transportTimeout 0]) ∧
    (∀ j, j < pollBound t → answerAt s (2 * j + 1) = 0x01 →
      (∀ m, m < j → answerAt s (2 * m + 1) ≠ 0x01) →
      ∃ u, Reaches s u ∧ u.busy = false ∧ u.poll = .ready ∧ u.elapsed.toNat = 10 * j ∧
        u.result = some { code := .ok, value := 0 } ∧
        u.events = s.events ++ idlePolls s j
          ++ pollEvents s.config.statusReadCmd (answerAt s (2 * j)) 0x01 ++ [.finish .ok 0])

/-- R134: with T = 0 the wait ends only when a poll answers READY, after however many polls. -/
def Obligations.UnboundedWaitEndsOnReady : Prop :=
  ∀ (s : State) (j : Nat), Issues (waitReadyWord 0) s → answerAt s (2 * j + 1) = 0x01 →
    (∀ m, m < j → answerAt s (2 * m + 1) ≠ 0x01) →
    ∃ u, Reaches s u ∧ u.busy = false ∧ u.poll = .ready ∧
      u.result = some { code := .ok, value := 0 } ∧
      u.elapsed.toNat = min (10 * j) (2 ^ 32 - 1) ∧
      u.events = s.events ++ idlePolls s j
        ++ pollEvents s.config.statusReadCmd (answerAt s (2 * j)) 0x01 ++ [.finish .ok 0]

/-- R134: "If the chip never answers READY, the wait is an infinite run: a hang": for every n, as long as
no poll that is over by then answered READY, the machine has a next state after the acceptance and n more
steps, the block is still busy and RESULT is as it was. A poll and its sleep are five steps; that the
acceptance is one more is the model's reading (notes/assumptions/1.md). -/
def Obligations.UnboundedWaitRunsOn : Prop :=
  ∀ (s : State) (n : Nat), Issues (waitReadyWord 0) s →
    (∀ j, 5 * (j + 1) ≤ n → answerAt s (2 * j + 1) ≠ 0x01) →
    ∃ u, Host.Core.run Sys2Proof.core (n + 1) s = .next u ∧ u.busy = true ∧ u.result = s.result

/-! ## SEND_COMMAND_AND_ACK -/

/-- R150, R151, R152 where one step of the handshake gives way to the next: the first step that fails
finishes with its code and no later step runs; each wait starts ELAPSED at 0. -/
def Obligations.HandshakeStepOrder : Prop :=
  ∀ (s : State) (op : Byte) (args : List Byte) (t : Timeout),
    (InFlight (sendCommandAndAckWord op args t) (.handshake (.send .sent)) s →
      exec (.sendCommandAndAck op args t) s = .next { s with
        elapsed := 0, poll := .polling, cs := true, events := s.events ++ [.cs true],
        seq := .handshake (.waitAck .command) }) ∧
    (InFlight (sendCommandAndAckWord op args t) (.handshake (.waitAck (.judge 0x01))) s →
      exec (.sendCommandAndAck op args t) s = .next { s with
        poll := .ready, rx := [], rxLen := 0, cs := true, events := s.events ++ [.cs true],
        seq := .handshake (.readAck .settle) }) ∧
    (∀ q : WaitPos → HandshakePos, (q = .waitAck ∨ q = .waitResponse) →
      InFlight (sendCommandAndAckWord op args t) (.handshake (q .slept)) s → t ≠ 0 →
      t.toNat < min (s.elapsed.toNat + 10) (2 ^ 32 - 1) →
      ∃ (h : List (List HostAction)) (e : Millis),
        e.toNat = min (s.elapsed.toNat + 10) (2 ^ 32 - 1) ∧ exec (.sendCommandAndAck op args t) s = .next { s with
        elapsed := e, poll := .timedOut, result := some { code := .transportTimeout, value := 0 },
        busy := false, seq := .idle, events := s.events ++ [.finish .transportTimeout 0],
        host := h }) ∧
    (∀ b0 b1 b2 b3 b4 b5,
      InFlight (sendCommandAndAckWord op args t) (.handshake (.readAck .done)) s →
      readCell s.rx 0 = some b0 → readCell s.rx 1 = some b1 → readCell s.rx 2 = some b2 →
      readCell s.rx 3 = some b3 → readCell s.rx 4 = some b4 → readCell s.rx 5 = some b5 →
      ([b0, b1, b2, b3, b4, b5] = [0x00, 0x00, 0xFF, 0x00, 0xFF, 0x00] →
        exec (.sendCommandAndAck op args t) s = .next { s with
          elapsed := 0, poll := .polling, cs := true, events := s.events ++ [.cs true],
          seq := .handshake (.waitResponse .command) }) ∧
      ([b0, b1, b2, b3, b4, b5] ≠ [0x00, 0x00, 0xFF, 0x00, 0xFF, 0x00] →
        ∃ h, exec (.sendCommandAndAck op args t) s = .next { s with
          result := some { code := .framingMismatch, value := 0 }, busy := false, seq := .idle,
          events := s.events ++ [.finish .framingMismatch 0], host := h })) ∧
    (InFlight (sendCommandAndAckWord op args t) (.handshake (.waitResponse (.judge 0x01))) s →
      ∃ h, exec (.sendCommandAndAck op args t) s = .next { s with
        poll := .ready, result := some { code := .ok, value := 0 }, busy := false, seq := .idle,
        events := s.events ++ [.finish .ok 0], host := h })

/-- R150: inside a step of the handshake, the primitives are those of the operation whose body it is:
step 1 those of ENCODE, steps 2 and 4 those of WAIT_READY, step 3 those of READ_RESPONSE with L = 6. -/
def Obligations.HandshakeRunsTheBodies : Prop :=
  ∀ (s u : State) (op : Byte) (args : List Byte) (t : Timeout),
    (∀ p p', InFlight (sendCommandAndAckWord op args t) (.handshake (.send p)) s →
      exec (.encode op args) { s with req := some (encodeWord op args), seq := .encode p } = .next u →
      u.seq = .encode p' →
      exec (.sendCommandAndAck op args t) s =
        .next { u with req := s.req, seq := .handshake (.send p') }) ∧
    (∀ (q : WaitPos → HandshakePos) p p', (q = .waitAck ∨ q = .waitResponse) →
      InFlight (sendCommandAndAckWord op args t) (.handshake (q p)) s →
      exec (.waitReady t) { s with req := some (waitReadyWord t), seq := .waitReady p } = .next u →
      u.seq = .waitReady p' →
      exec (.sendCommandAndAck op args t) s =
        .next { u with req := s.req, seq := .handshake (q p') }) ∧
    (∀ p p', InFlight (sendCommandAndAckWord op args t) (.handshake (.readAck p)) s →
      exec (.readResponse 6) { s with req := some (readResponseWord 6), seq := .readResponse p }
        = .next u →
      u.seq = .readResponse p' →
      exec (.sendCommandAndAck op args t) s =
        .next { u with req := s.req, seq := .handshake (.readAck p') })

/-- R150: the whole handshake when the chip is ready at once both times and sends the ACK: after the n + 2
events of the frame (their bytes are EncodeSteps with HandshakeRunsTheBodies), one poll, the six bytes,
one poll, `finish(OK, 0)`; RX holds the ACK, RXLEN is 6, POLL READY, ELAPSED 0 (the example of R150, for
every opcode, payload, timeout and configuration). -/
def Obligations.HandshakeSucceeds : Prop :=
  ∀ (s : State) (op : Byte) (args : List Byte) (t : Timeout) (n m : Nat),
    argsFit args = true → Issues (sendCommandAndAckWord op args t) s →
    n = (optBytes s.config.dataWritePrefix).length + args.length + 9 →
    m = n + 2 + (optBytes s.config.dataReadPrefix).length →
    answerAt s (n + 1) = 0x01 →
    (List.range 6).map (fun k => answerAt s (m + k)) = [0x00, 0x00, 0xFF, 0x00, 0xFF, 0x00] →
    answerAt s (m + 7) = 0x01 →
    ∃ u, Reaches s u ∧ u.busy = false ∧ u.cs = false ∧ u.poll = .ready ∧ u.elapsed = 0 ∧
      u.rxLen = 6 ∧ u.rx.map Prod.snd = [0x00, 0x00, 0xFF, 0x00, 0xFF, 0x00] ∧
      u.result = some { code := .ok, value := 0 } ∧
      u.events.drop (s.events.length + n + 2) =
        pollEvents s.config.statusReadCmd (answerAt s n) 0x01 ++
        [.cs true, .sleep s.config.settlePreMs] ++
        xferEvents (optBytes s.config.dataReadPrefix) [answerAt s (n + 2)] ++
        (if s.config.dataReadPrefix = none then [] else [.sleep s.config.settleBetweenMs]) ++
        [.xfer 0x00 0x00, .sleep s.config.settleBetweenMs, .xfer 0x00 0x00,
          .sleep s.config.settleBetweenMs, .xfer 0x00 0xFF, .sleep s.config.settleBetweenMs,
          .xfer 0x00 0x00, .sleep s.config.settleBetweenMs, .xfer 0x00 0xFF,
          .sleep s.config.settleBetweenMs, .xfer 0x00 0x00, .cs false] ++
        pollEvents s.config.statusReadCmd (answerAt s (m + 6)) 0x01 ++ [.finish .ok 0]

/-- R182: no code-dependent behaviour. Two handshakes with the same timeout and payloads of the same
length, in states that differ only in the latched request and the history, take the same step: the
same sequencer state, the same registers, and events that differ at most in the byte sent. -/
def Obligations.NoCodeDependentBehaviour : Prop :=
  ∀ (s : State) (op op' : Byte) (args args' : List Byte) (t : Timeout) (es : List Event)
    (p : HandshakePos),
    args.length = args'.length →
    InFlight (sendCommandAndAckWord op args t) (.handshake p) s →
    ∃ (u : State) (e f : Event),
      exec (.sendCommandAndAck op args t) s = .next { u with events := s.events ++ [e] } ∧
      exec (.sendCommandAndAck op' args' t)
          { s with req := some (sendCommandAndAckWord op' args' t), events := es } =
        .next { u with
          req := some (sendCommandAndAckWord op' args' t), events := es ++ [f] } ∧
      sameShape e f

/-! ## PN532 commands -/

/-- R170, R172, R173: the commands with no response code in source: SEND_COMMAND_AND_ACK with the
command's code now, READ_RESPONSE of the host's length next. (The host's program in State and the
issue in the same step are the model's choice, notes/assumptions/8.md and 9.md.) -/
def Obligations.UncheckedCommandsIssue : Prop :=
  ∀ (s : State) (args : List Byte) (t : Option Timeout) (len : Byte) (cur : List HostAction)
    (later : List (List HostAction)),
    portReady s = true → (s.host = cur :: later ∨ s.host = [] ∧ cur = [] ∧ later = []) →
    argsFit args = true →
    (exec (.firmwareVersion t len) s = .next { s with
      req := some (sendCommandAndAckWord 0x02 [] (t.getD 1000)), busy := true,
      seq := .handshake (.send .select),
      host := (issue (readResponseWord len) :: cur) :: later }) ∧
    (exec (.peerJumpForDep args t len) s = .next { s with
      req := some (sendCommandAndAckWord 0x56 args (t.getD 1000)), busy := true,
      seq := .handshake (.send .select),
      host := (issue (readResponseWord len) :: cur) :: later }) ∧
    (exec (.targetInitAsTarget args t len) s = .next { s with
      req := some (sendCommandAndAckWord 0x8C args (t.getD 1000)), busy := true,
      seq := .handshake (.send .select),
      host := (issue (readResponseWord len) :: cur) :: later })

/-- R171, R174, R175, R176: the commands whose response code is checked without a settled status byte:
SEND_COMMAND_AND_ACK, READ_RESPONSE, CHECK_RESPONSE with the code of R82; STATUS is the host's choice
for 0x86 and 0x8E. (notes/assumptions/8.md and 9.md.) -/
def Obligations.CheckedCommandsIssue : Prop :=
  ∀ (s : State) (args : List Byte) (t : Option Timeout) (len : Byte) (status : Bool)
    (cur : List HostAction) (later : List (List HostAction)),
    portReady s = true → (s.host = cur :: later ∨ s.host = [] ∧ cur = [] ∧ later = []) →
    argsFit args = true →
    (exec (.samConfiguration args t len) s = .next { s with
      req := some (sendCommandAndAckWord 0x14 args (t.getD 1000)), busy := true,
      seq := .handshake (.send .select),
      host := (issue (readResponseWord len) ::
        issue (checkResponseWord 0x15 false) :: cur) :: later }) ∧
    (exec (.targetGetData args t len status) s = .next { s with
      req := some (sendCommandAndAckWord 0x86 args (t.getD 1000)), busy := true,
      seq := .handshake (.send .select),
      host := (issue (readResponseWord len) ::
        issue (checkResponseWord 0x87 status) :: cur) :: later }) ∧
    (exec (.targetSetData args t len status) s = .next { s with
      req := some (sendCommandAndAckWord 0x8E args (t.getD 1000)), busy := true,
      seq := .handshake (.send .select),
      host := (issue (readResponseWord len) ::
        issue (checkResponseWord 0x8F status) :: cur) :: later }) ∧
    (exec (.listPassiveTarget args t len) s = .next { s with
      req := some (sendCommandAndAckWord 0x4A args (t.getD 1000)), busy := true,
      seq := .handshake (.send .select),
      host := (issue (readResponseWord len) ::
        issue (checkResponseWord 0x4B false) :: cur) :: later })

/-- R177 to R181: data exchange and its sub-commands: code 0x40 with the sub-code among the argument
bytes, response code 0x41 and the status byte checked. (notes/assumptions/8.md, 9.md and 10.md.) -/
def Obligations.DataExchangeCommandsIssue : Prop :=
  ∀ (s : State) (lead args : List Byte) (t : Option Timeout) (len : Byte) (cur : List HostAction)
    (later : List (List HostAction)),
    portReady s = true → (s.host = cur :: later ∨ s.host = [] ∧ cur = [] ∧ later = []) →
    (argsFit args = true →
      exec (.dataExchange args t len) s = .next { s with
      req := some (sendCommandAndAckWord 0x40 args (t.getD 1000)), busy := true,
      seq := .handshake (.send .select),
      host := (issue (readResponseWord len) ::
        issue (checkResponseWord 0x41 true) :: cur) :: later }) ∧
    (argsFit (lead ++ 0x30 :: args) = true →
      exec (.mifareReadPage lead args t len) s = .next { s with
      req := some (sendCommandAndAckWord 0x40 (lead ++ 0x30 :: args) (t.getD 1000)), busy := true,
      seq := .handshake (.send .select),
      host := (issue (readResponseWord len) ::
        issue (checkResponseWord 0x41 true) :: cur) :: later }) ∧
    (argsFit (lead ++ 0xA0 :: args) = true →
      exec (.mifareWritePage lead args t len) s = .next { s with
      req := some (sendCommandAndAckWord 0x40 (lead ++ 0xA0 :: args) (t.getD 1000)), busy := true,
      seq := .handshake (.send .select),
      host := (issue (readResponseWord len) ::
        issue (checkResponseWord 0x41 true) :: cur) :: later }) ∧
    (argsFit (lead ++ 0x60 :: args) = true →
      exec (.mifareAuthKeyA lead args t len) s = .next { s with
      req := some (sendCommandAndAckWord 0x40 (lead ++ 0x60 :: args) (t.getD 1000)), busy := true,
      seq := .handshake (.send .select),
      host := (issue (readResponseWord len) ::
        issue (checkResponseWord 0x41 true) :: cur) :: later }) ∧
    (argsFit (lead ++ 0x61 :: args) = true →
      exec (.mifareAuthKeyB lead args t len) s = .next { s with
      req := some (sendCommandAndAckWord 0x40 (lead ++ 0x61 :: args) (t.getD 1000)), busy := true,
      seq := .handshake (.send .select),
      host := (issue (readResponseWord len) ::
        issue (checkResponseWord 0x41 true) :: cur) :: later })

/-- R87 (TRANSACT), R171 to R181: a command with a response check, from the acceptance of its first
request to the end of its last: when the chip is ready at once, sends the ACK, and answers the read with
the response code at offset 6 (and status 0x00 at offset 7, where it is checked), the three requests
end with (OK, 0), RX holds the answer, and the host's program stands after them. No fault of a host read
stands, as the invariant has it while BUSY is true. (How programs stand in State is the model's choice,
notes/assumptions/8.md and 9.md; the fault of a host read is 12.md.) -/
def Obligations.CommandRunsToItsCheck : Prop :=
  ∀ (s : State) (op : Byte) (args : List Byte) (t : Timeout) (len code : Byte) (status : Bool)
    (rest : List HostAction) (later : List (List HostAction)) (n m d : Nat),
    argsFit args = true → lengthFits len = true → (if status then 8 else 7) ≤ len.toNat →
    s.resetIn = [] → s.readFault = none →
    InFlight (sendCommandAndAckWord op args t) (.handshake (.send .select)) s →
    s.host = (issue (readResponseWord len) :: issue (checkResponseWord code status) :: rest) :: later →
    n = (optBytes s.config.dataWritePrefix).length + args.length + 9 →
    m = n + 2 + (optBytes s.config.dataReadPrefix).length →
    d = m + 8 + (optBytes s.config.dataReadPrefix).length →
    answerAt s (n + 1) = 0x01 →
    (List.range 6).map (fun k => answerAt s (m + k)) = [0x00, 0x00, 0xFF, 0x00, 0xFF, 0x00] →
    answerAt s (m + 7) = 0x01 →
    answerAt s (d + 6) = code → (status = true → answerAt s (d + 7) = 0x00) →
    ∃ u, Reaches s u ∧ u.busy = false ∧ u.cs = false ∧
      u.result = some { code := .ok, value := 0 } ∧ u.rxLen = len.toNat ∧
      (∀ k, k < len.toNat → readCell u.rx k = some (answerAt s (d + k))) ∧
      u.host = rest :: later

/-- R87: the stop rule, for a step of an operation, for a step while BUSY is true, and for the step that
takes the host's next action (the `k` empty lists are programs that have ended). A step that records a
finish with another code than OK, a fault or a refusal leaves nothing of the current program and all of
the later ones; any other step of an operation in flight leaves the programs as they are, and a request
accepted or a read answered takes its action off. (How programs stand in State, and that a read which
faults ends its program too, are the model's choice, notes/assumptions/8.md.) -/
def Obligations.HostStopsAtFirstFailure : Prop :=
  (∀ (i : Instr) (s u : State), isOperation i = true → exec i s = .next u →
    (Fails s u → (∀ cur later, s.host = cur :: later → u.host = [] :: later) ∧
      (s.host = [] → u.host = [])) ∧
    (¬Fails s u → u.host = s.host)) ∧
  (∀ s u : State, s.busy = true → s.resetIn.head? ≠ some true → step s = .next u →
    (Fails s u → (∀ cur later, s.host = cur :: later → u.host = [] :: later) ∧
      (s.host = [] → u.host = [])) ∧
    (¬Fails s u → u.host = s.host)) ∧
  (∀ (s u : State) (k : Nat) (a : HostAction) (cur : List HostAction)
    (later : List (List HostAction)), s.busy = false → s.resetIn.head? ≠ some true →
    s.host = List.replicate k [] ++ (a :: cur) :: later → step s = .next u →
    (Fails s u → u.host = [] :: later) ∧
    (¬Fails s u →
      ((∃ r, a = .read r) ∨ (portReady s = true ∧ ∃ r, a = issue r)) →
      u.host = cur :: later))

/-! ## Frames of the instructions -/

/-- The operations on the received bytes leave everything alone but RESULT (or the fault's mark), BUSY,
SEQ, REQ at acceptance, the history and the host's program: R105, R107, R153 "RESULT only". -/
def Obligations.CheckOperationsFrame : Prop :=
  ∀ (i : Instr) (s u : State),
    (i = .decodeAck ∨ i = .checkFrame ∨ ∃ code status, i = .checkResponse code status) →
    exec i s = .next u →
    u = { s with
      result := u.result, busy := u.busy, seq := u.seq, req := u.req, faulted := u.faulted,
      refused := s.refused, events := u.events, host := u.host } ∧
    ∀ a, readCell u.rx a = readCell s.rx a

/-- ENCODE and WAIT_READY leave RX, RXLEN and the marks alone, ENCODE also POLL and ELAPSED: R101 "It
does not write RX, RXLEN, POLL or ELAPSED", R138 "It does not write RX or RXLEN". -/
def Obligations.SendAndWaitFrame : Prop :=
  (∀ (op : Byte) (args : List Byte) (s u : State), argsFit args = true →
    exec (.encode op args) s = .next u →
    u = { s with
      cs := u.cs, result := u.result, busy := u.busy, seq := u.seq, req := u.req,
      events := u.events, chip := u.chip, draws := u.draws, host := u.host } ∧
    ∀ a, readCell u.rx a = readCell s.rx a) ∧
  (∀ (t : Timeout) (s u : State), exec (.waitReady t) s = .next u →
    u = { s with
      cs := u.cs, poll := u.poll, elapsed := u.elapsed, result := u.result, busy := u.busy,
      seq := u.seq, req := u.req, events := u.events, chip := u.chip, draws := u.draws,
      host := u.host } ∧
    ∀ a, readCell u.rx a = readCell s.rx a)

/-- The storing operations, R24, R104, R150: READ_RESPONSE leaves POLL and ELAPSED alone; a fault of
SEND_COMMAND_AND_ACK is excluded by the invariant; READ_RESPONSE and SEND_COMMAND_AND_ACK change RX only
at a point where a read begins (every cell loses its value) and where a received byte is stored, and then
in that byte's cell alone. -/
def Obligations.ReceiveBufferFrame : Prop :=
  (∀ (len : Byte) (s u : State), lengthFits len = true → exec (.readResponse len) s = .next u →
    u = { s with
      cs := u.cs, rx := u.rx, rxLen := u.rxLen, result := u.result, busy := u.busy, seq := u.seq,
      req := u.req, events := u.events, chip := u.chip, draws := u.draws, host := u.host }) ∧
  (∀ (op : Byte) (args : List Byte) (t : Timeout) (s u : State), argsFit args = true →
    exec (.sendCommandAndAck op args t) s = .next u →
    u = { s with
      cs := u.cs, poll := u.poll, elapsed := u.elapsed, rx := u.rx, rxLen := u.rxLen,
      result := u.result, busy := u.busy, seq := u.seq, req := u.req, faulted := u.faulted,
      events := u.events, chip := u.chip, draws := u.draws, host := u.host } ∧
    (s.Inv → u.faulted = s.faulted)) ∧
  (∀ (i : Instr) (s u : State),
    ((∃ len, i = .readResponse len) ∨ ∃ op args t, i = .sendCommandAndAck op args t) →
    exec i s = .next u →
    (u.rxLen = s.rxLen ∧ ∀ a, readCell u.rx a = readCell s.rx a) ∨
    (startsRead s.seq = true ∧ u.rxLen = 0 ∧ ∀ a, readCell u.rx a = none) ∨
    (∃ k b, (s.seq = .readResponse (.got k b) ∨ s.seq = .handshake (.readAck (.got k b))) ∧
      u.rxLen = k + 1 ∧ (k < 64 → readCell u.rx k = some b) ∧
      ∀ a, a ≠ k → readCell u.rx a = readCell s.rx a))

/-- The PN532 commands change nothing but what the issue of their first request writes: REQ, BUSY, SEQ
and the host's program, or, if the request is refused, the refusal's mark and event. This is the frame of
the model's choice of what a step of a command is: its handshake's acceptance, the rest of the rule's
pseudocode put before the host's program (DESIGN CHOICE, notes/assumptions/9.md, with 8.md for the
programs); the rules of 43 give the pseudocode alone. -/
def Obligations.CommandsFrame : Prop :=
  ∀ (i : Instr) (s u : State), isOperation i = false → exec i s = .next u →
    u = { s with
      busy := u.busy, seq := u.seq, req := u.req, refused := u.refused, events := u.events,
      host := u.host } ∧
    (i.wellFormed = true → u.refused = s.refused ∧ u.events = s.events) ∧
    ∀ a, readCell u.rx a = readCell s.rx a

/-! ## The receive buffer and the host's reads -/

/-- R24, R57: a cell written reads back the byte, every other cell reads as before, and the canonical
form is kept. -/
def Obligations.CellReadAfterWrite : Prop :=
  ∀ (m : List Host.Cell) (k a : Nat) (b : Byte), Memory.wf m = true →
    Memory.wf (writeCell m k b) = true ∧
    (k < 64 → readCell (writeCell m k b) k = some b) ∧
    (a ≠ k → readCell (writeCell m k b) a = readCell m a)

/-- R25, R35: in a state with the invariant, RX[i] holds a byte iff i < RXLEN, and RX is in canonical
form. -/
def Obligations.CellsHoldValuesBelowLength : Prop :=
  ∀ s : State, s.Inv → Memory.wf s.rx = true ∧
    ∀ i, (readCell s.rx i).isSome = true ↔ i < s.rxLen

/-- R36, R35: while BUSY is false a host read returns the register's value and changes no register of
the block; a cell without a value and an empty RESULT fault, and the host issues nothing more of its
program. POLL and RESULT are read in the encodings of R22 and R83. (The `k` empty lists are programs that
have ended, notes/assumptions/8.md; BUSY after a fault is 12.md.) -/
def Obligations.HostReads : Prop :=
  ∀ (s : State) (r : HostReg) (k : Nat) (cur : List HostAction) (later : List (List HostAction)),
    s.resetIn = [] → s.busy = false →
    s.host = List.replicate k [] ++ (.read r :: cur) :: later →
    (∀ v, r = .result → s.result = some v →
      step s = .next { s with
        host := cur :: later, readOut := some (.result (resultCodeBits v.code) v.value) }) ∧
    (r = .result → s.result = none → step s = .next { s with
      host := [] :: later, faulted := true, readFault := some .result,
      events := s.events ++ [.fault .result] }) ∧
    (∀ i b, r = .rx i → readCell s.rx i = some b →
      step s = .next { s with host := cur :: later, readOut := some (.rx b) }) ∧
    (∀ i, r = .rx i → readCell s.rx i = none → step s = .next { s with
      host := [] :: later, faulted := true, readFault := some (.cell i),
      events := s.events ++ [.fault (.cell i)] }) ∧
    (r = .rxLen →
      step s = .next { s with host := cur :: later, readOut := some (.rxLen s.rxLen) }) ∧
    (r = .poll →
      step s = .next { s with host := cur :: later, readOut := some (.poll (pollBits s.poll)) }) ∧
    (r = .elapsed →
      step s = .next { s with host := cur :: later, readOut := some (.elapsed s.elapsed) }) ∧
    (r = .busy → step s = .next { s with host := cur :: later, readOut := some (.busy false) })

/-- R83, R22: the numbers of the result codes, the verdicts (R84) and the poller's states. -/
def Obligations.StatusEncodings : Prop :=
  [ResultCode.ok, .transportTimeout, .framingMismatch, .protocolStatusError, .rangeError,
    .unrecognizedFamily].map (fun c => (resultCodeBits c).toNat) = [0, 1, 2, 3, 4, 5] ∧
  [Verdict.valid, .short, .badStart, .badLcs, .badDcs, .badPostamble].map
    (fun v => (verdictByte v).toNat) = [0, 1, 2, 3, 4, 5] ∧
  [PollState.idle, .polling, .ready, .timedOut].map (fun p => (pollBits p).toNat) = [0, 1, 2, 3]

/-! ## Reset -/

/-- R240: the machine right after reset, at the start of a run. -/
def Obligations.ResetState : Prop :=
  State.reset.cs = false ∧ State.reset.poll = .idle ∧ State.reset.elapsed = 0 ∧
  (∀ i, readCell State.reset.rx i = none) ∧ State.reset.rxLen = 0 ∧ State.reset.result = none ∧
  State.reset.busy = false ∧ State.reset.seq = .idle ∧ State.reset.req = none ∧
  State.reset.faulted = false ∧ State.reset.refused = false

/-- R241, R240: the reset input at any step. It abandons any operation without a `finish`, records
`CS(false)` if CS was true and no other event, sets every register to its reset value, keeps FAULTED and
REFUSED, and does not touch the chip. The port is ready again after a host read that faulted (R209,
notes/assumptions/12.md). -/
def Obligations.ResetInput : Prop :=
  ∀ (s : State) (later : List Bool), s.resetIn = true :: later →
    ∃ h, step s = .next { s with
      cs := false, poll := .idle, elapsed := 0, rx := [], rxLen := 0, result := none,
      busy := false, seq := .idle, req := none, readFault := none,
      events := if s.cs = true then s.events ++ [.cs false] else s.events,
      resetIn := later, host := h }

/-- R209: after an operation's fault or a refusal, which leave BUSY true and SEQ quiescent, and after a
host read that faulted, which leaves BUSY false and SEQ idle (R28), the block takes no step and accepts no
request; in the second case with a request or nothing next. With a reset still to come it waits unchanged,
with none it stops under the name of its fault or refusal (the stop is the model's choice,
notes/assumptions/3.md; the fault of a host read is 12.md). -/
def Obligations.QuiescentUntilReset : Prop :=
  ∀ s : State,
    (s.busy = true ∨ (∀ p ∈ s.host, p = []) ∨
      ∃ k c cur later, s.host = List.replicate k [] ++ (.issue c :: cur) :: later) →
    (∀ later, (isQuiescent s.seq = true ∨ (s.busy = false ∧ s.readFault.isSome = true)) →
      s.resetIn = false :: later → true ∈ later → step s = .next { s with resetIn := later }) ∧
    (∀ what, (s.seq = .faulted what ∨
        (s.busy = false ∧ isQuiescent s.seq = false ∧ s.readFault = some what)) →
      true ∉ s.resetIn → step s = .fault (.unwrittenRead what)) ∧
    (∀ why, s.seq = .refused why → true ∉ s.resetIn → step s = .refused (.request why))

/-! ## Rules of the whole machine -/

/-- The invariant holds at reset. -/
def Obligations.InvAtReset : Prop := State.reset.Inv

/-- The headline: every step from a state with the invariant leads to a state with the invariant: RX in
canonical form and filled to RXLEN (R25), CS asserted exactly inside a transaction (R59) and false
between operations (R21, R207), SEQ idle exactly while BUSY is false and in agreement with REQ (R28, R29),
no operation while a host read's fault stands (R209), POLL POLLING and ELAPSED within
the bound in a wait (R136, R131), only produced codes in RESULT (R83). -/
def Obligations.StepKeepsInv : Prop :=
  ∀ s u : State, s.Inv → step s = .next u → u.Inv

/-- R59, R21: "Every `Xfer` happens while `CS = true`". -/
def Obligations.TransfersWhileSelected : Prop :=
  ∀ (s u : State) (o b : Byte), s.Inv → step s = .next u →
    u.events = s.events ++ [.xfer o b] → s.cs = true ∧ u.cs = true

/-- R12, R14, R58: a step appends at most one event to the history and takes none away; the line CS
changes only with its event, and an input byte is consumed only with a transfer. -/
def Obligations.OneEventAStep : Prop :=
  ∀ s u : State, step s = .next u →
    ∃ es, u.events = s.events ++ es ∧ es.length ≤ 1 ∧
      (u.cs ≠ s.cs → es = [.cs u.cs]) ∧
      ((u.chip ≠ s.chip ∨ u.draws ≠ s.draws) →
        ∃ o, es = [.xfer o (answerAt s 0)] ∧ u.chip = chipAfter s 1 ∧ u.draws = drawsAfter s 1)

/-- R209, R20: the marks FAULTED and REFUSED are sticky; R9, R242(3): no step changes the
configuration. -/
def Obligations.MarksAndConfigurationPersist : Prop :=
  ∀ s u : State, step s = .next u →
    (s.faulted = true → u.faulted = true) ∧ (s.refused = true → u.refused = true) ∧
      u.config = s.config

/-- R26, R13: RESULT changes only at a `finish`, which puts its code and value there and frees the
block, and at reset. -/
def Obligations.ResultOnlyByFinish : Prop :=
  ∀ s u : State, step s = .next u → u.result ≠ s.result →
    (∃ v, u.result = some v ∧ u.busy = false ∧ u.seq = .idle ∧
      u.events = s.events ++ [.finish v.code v.value]) ∨
    (u.result = none ∧ s.resetIn.head? = some true)

/-- R24, R57: RX and RXLEN change only in READ_RESPONSE and SEND_COMMAND_AND_ACK, and at reset. -/
def Obligations.BufferWrittenOnlyByReads : Prop :=
  ∀ s u : State, step s = .next u → (u.rx ≠ s.rx ∨ u.rxLen ≠ s.rxLen) →
    s.resetIn.head? = some true ∨ (∃ p, s.seq = .readResponse p) ∨ (∃ p, s.seq = .handshake p)

/-- R22, R136: the transitions of POLL: to POLLING at the start of a wait, from POLLING to READY or to
TIMEDOUT in a wait, to IDLE at reset, and no other. -/
def Obligations.PollTransitions : Prop :=
  ∀ s u : State, s.Inv → step s = .next u → u.poll ≠ s.poll →
    (u.poll = .polling ∧ u.elapsed = 0) ∨
    (s.poll = .polling ∧ (u.poll = .ready ∨ u.poll = .timedOut)) ∨
    (u.poll = .idle ∧ s.resetIn.head? = some true)

/-- R23: ELAPSED is set to 0 at the start of a wait, with POLL set to POLLING, and at reset, and otherwise
only grows by 10, saturating, after a poll sleep. -/
def Obligations.ElapsedCountsPollSleeps : Prop :=
  ∀ s u : State, step s = .next u → u.elapsed ≠ s.elapsed →
    (u.elapsed = 0 ∧ s.resetIn.head? = some true) ∨
    (u.elapsed = 0 ∧ u.poll = .polling ∧ s.busy = true ∧ startsWait s.seq = true) ∨
    (u.elapsed.toNat = min (s.elapsed.toNat + 10) (2 ^ 32 - 1) ∧
      (s.seq = .waitReady .slept ∨ s.seq = .handshake (.waitAck .slept) ∨
        s.seq = .handshake (.waitResponse .slept)))

/-- R61, R29: while an operation is in flight, nothing the host is still to do reaches it: with other
host programs the step leads to the same state but for the programs. -/
def Obligations.HostCannotReachInFlight : Prop :=
  ∀ (s u : State) (h : List (List HostAction)), s.busy = true → s.resetIn.head? ≠ some true →
    step s = .next u → ∃ h', step { s with host := h } = .next { u with host := h' }

/-- R208, R13: an operation in flight never stops the machine: the block takes a next step, to another
state. That a step which faults has a next state too is the model's choice (notes/assumptions/3.md), and
that every transfer and sleep completes is notes/assumptions/15.md (unsafe). -/
def Obligations.InFlightAlwaysProceeds : Prop :=
  ∀ s : State, s.Inv → s.busy = true → isQuiescent s.seq = false →
    ∃ u, step s = .next u ∧ u ≠ s
end

