-- ==== Sys2Proof/Laws/Decode.lean ====
section
/-!
SUPPORT. The fields of a header word written from fields (spec/30_encoding.md R70), the fixed bits of
each operation's word (R71), and what each operation's word decodes to.
-/

namespace Sys2Proof

theorem getLsbD_headerWord (op : BitVec 4) (s : Bool) (a : Byte) (t : Timeout) {i : Nat}
    (hi : i < 32) :
    (headerWord op s a t).getLsbD i =
      if i < 4 then op.getLsbD i else if i = 4 then s else if i < 8 then false
      else if i < 16 then a.getLsbD (i - 8) else t.getLsbD (i - 16) := by
  have ho : 4 ≤ i → op.getLsbD i = false := BitVec.getLsbD_of_ge _ _
  have ha : 16 ≤ i → a.getLsbD (i - 8) = false := fun h => BitVec.getLsbD_of_ge _ _ (by omega)
  simp only [headerWord, BitVec.getLsbD_or, BitVec.getLsbD_shiftLeft, BitVec.getLsbD_setWidth,
    BitVec.getLsbD_ofBool]
  split
  · simp [show i < 32 by omega, show i < 8 by omega, show i < 16 by omega, ‹i < 4›]
  split
  · subst i; simp
  split
  · simp [hi, ho (by omega), show i < 8 by omega, show i < 16 by omega]; omega
  split
  · simp [hi, ho (by omega), show ¬ i < 8 by omega, show i < 16 by omega,
      show i - 8 < 32 by omega]
    omega
  · simp [hi, ho (by omega), ha (by omega), show ¬ i < 8 by omega, show ¬ i < 16 by omega,
      show i - 16 < 32 by omega]
    omega

@[simp] theorem headerOp_headerWord (op : BitVec 4) (s : Bool) (a : Byte) (t : Timeout) :
    headerOp (headerWord op s a t) = op := by
  apply BitVec.eq_of_getLsbD_eq
  intro i hi
  rw [headerOp, BitVec.getLsbD_extractLsb', getLsbD_headerWord _ _ _ _ (by omega)]
  simp [hi]

@[simp] theorem headerStatus_headerWord (op : BitVec 4) (s : Bool) (a : Byte) (t : Timeout) :
    headerStatus (headerWord op s a t) = s := by
  rw [headerStatus, getLsbD_headerWord _ _ _ _ (by omega)]; simp

@[simp] theorem headerOperand_headerWord (op : BitVec 4) (s : Bool) (a : Byte) (t : Timeout) :
    headerOperand (headerWord op s a t) = a := by
  apply BitVec.eq_of_getLsbD_eq
  intro i hi
  rw [headerOperand, BitVec.getLsbD_extractLsb', getLsbD_headerWord _ _ _ _ (by omega)]
  simp [hi, show ¬ 8 + i < 4 by omega, show ¬ 8 + i = 4 by omega, show 8 + i < 16 by omega]

@[simp] theorem headerTimeout_headerWord (op : BitVec 4) (s : Bool) (a : Byte) (t : Timeout) :
    headerTimeout (headerWord op s a t) = t := by
  apply BitVec.eq_of_getLsbD_eq
  intro i hi
  rw [headerTimeout, BitVec.getLsbD_extractLsb', getLsbD_headerWord _ _ _ _ (by omega)]
  simp [hi, show ¬ 16 + i < 4 by omega, show ¬ 16 + i = 4 by omega, show ¬ 16 + i < 8 by omega]

/-- A header is its five fields. -/
theorem header_ext {h h' : Header} (hop : headerOp h = headerOp h')
    (hs : headerStatus h = headerStatus h')
    (hr : h.extractLsb' 5 3 = h'.extractLsb' 5 3)
    (ha : headerOperand h = headerOperand h') (ht : headerTimeout h = headerTimeout h') :
    h = h' := by
  apply BitVec.eq_of_getLsbD_eq
  intro i hi
  have e1 := congrArg (fun x => x.getLsbD i) hop
  have e3 := congrArg (fun x => x.getLsbD (i - 5)) hr
  have e4 := congrArg (fun x => x.getLsbD (i - 8)) ha
  have e5 := congrArg (fun x => x.getLsbD (i - 16)) ht
  simp only [headerOp, headerOperand, headerTimeout, BitVec.getLsbD_extractLsb'] at e1 e3 e4 e5
  by_cases c1 : i < 4
  · simpa [c1] using e1
  by_cases c2 : i = 4
  · subst c2; exact hs
  by_cases c3 : i < 8
  · simpa [show 5 + (i - 5) = i by omega, show i - 5 < 3 by omega] using e3
  by_cases c4 : i < 16
  · simpa [show 8 + (i - 8) = i by omega, show i - 8 < 8 by omega] using e4
  · simpa [show 16 + (i - 16) = i by omega, show i - 16 < 16 by omega] using e5

/-- The masked bits of a header word are those of its OP and S where the mask lies outside the operand
fields, or the operand is zero. -/
theorem headerWord_and {op : BitVec 4} {s : Bool} {a : Byte} {t : Timeout} {m p : Header}
    (hm : ∀ i : Fin 32, ((headerWord op s 0 0).getLsbD i && m.getLsbD i) = p.getLsbD i)
    (ha : (∀ i : Fin 8, m.getLsbD (8 + i) = false) ∨ a = 0)
    (ht : (∀ i : Fin 16, m.getLsbD (16 + i) = false) ∨ t = 0) :
    headerWord op s a t &&& m = p := by
  apply BitVec.eq_of_getLsbD_eq
  intro i hi
  rw [BitVec.getLsbD_and, ← hm ⟨i, hi⟩]
  simp only [getLsbD_headerWord _ _ _ _ hi]
  split
  · rfl
  split
  · rfl
  split
  · rfl
  split
  · rcases ha with h | h
    · have := h ⟨i - 8, by omega⟩
      simp only [show 8 + (i - 8) = i by omega] at this
      simp [this]
    · simp [h]
  · rcases ht with h | h
    · have := h ⟨i - 16, by omega⟩
      simp only [show 16 + (i - 16) = i by omega] at this
      simp [this]
    · simp [h]

/-! The fixed bits of each operation's word are those of its row of R71. -/

theorem encodeWord_fixed (op : Byte) :
    headerWord 1#4 false op 0#16 &&& operationMask .encode = operationMatch .encode :=
  headerWord_and (by decide) (.inl (by decide)) (.inr rfl)

theorem readResponseWord_fixed (len : Byte) :
    headerWord 2#4 false len 0#16 &&& operationMask .readResponse = operationMatch .readResponse :=
  headerWord_and (by decide) (.inl (by decide)) (.inr rfl)

theorem decodeAckWord_fixed :
    headerWord 3#4 false 0#8 0#16 &&& operationMask .decodeAck = operationMatch .decodeAck := by
  decide

theorem waitReadyWord_fixed (t : Timeout) :
    headerWord 4#4 false 0#8 t &&& operationMask .waitReady = operationMatch .waitReady :=
  headerWord_and (by decide) (.inr rfl) (.inl (by decide))

theorem sendCommandAndAckWord_fixed (op : Byte) (t : Timeout) :
    headerWord 5#4 false op t &&& operationMask .sendCommandAndAck
      = operationMatch .sendCommandAndAck :=
  headerWord_and (by decide) (.inl (by decide)) (.inl (by decide))

theorem checkFrameWord_fixed :
    headerWord 6#4 false 0#8 0#16 &&& operationMask .checkFrame = operationMatch .checkFrame := by
  decide

theorem checkResponseWord_fixed (code : Byte) (s : Bool) :
    headerWord 7#4 s code 0#16 &&& operationMask .checkResponse = operationMatch .checkResponse :=
  headerWord_and (by cases s <;> decide) (.inl (by decide)) (.inr rfl)

/-! What the words of the operations decode to. -/

theorem decodeRequest_encodeWord {op : Byte} {args : List Byte} (h : argsFit args = true) :
    decodeRequest (encodeWord op args) = .ok (.encode op args) := by
  simp [decodeRequest, encodeWord, operationOf, encodeWord_fixed, takesPayload, operationInstr,
    valueRefusal, h]

theorem decodeRequest_readResponseWord {len : Byte} (h : lengthFits len = true) :
    decodeRequest (readResponseWord len) = .ok (.readResponse len) := by
  simp [decodeRequest, readResponseWord, operationOf, readResponseWord_fixed, takesPayload,
    operationInstr, valueRefusal, h]

theorem decodeRequest_decodeAckWord : decodeRequest decodeAckWord = .ok .decodeAck := by
  simp [decodeRequest, decodeAckWord, operationOf, decodeAckWord_fixed, takesPayload,
    operationInstr, valueRefusal]

theorem decodeRequest_waitReadyWord (t : Timeout) :
    decodeRequest (waitReadyWord t) = .ok (.waitReady t) := by
  simp [decodeRequest, waitReadyWord, operationOf, waitReadyWord_fixed, takesPayload,
    operationInstr, valueRefusal]

theorem decodeRequest_sendCommandAndAckWord {op : Byte} {args : List Byte} {t : Timeout}
    (h : argsFit args = true) :
    decodeRequest (sendCommandAndAckWord op args t) = .ok (.sendCommandAndAck op args t) := by
  simp [decodeRequest, sendCommandAndAckWord, operationOf, sendCommandAndAckWord_fixed,
    takesPayload, operationInstr, valueRefusal, h]

theorem decodeRequest_checkFrameWord : decodeRequest checkFrameWord = .ok .checkFrame := by
  simp [decodeRequest, checkFrameWord, operationOf, checkFrameWord_fixed, takesPayload,
    operationInstr, valueRefusal]

theorem decodeRequest_checkResponseWord (code : Byte) (status : Bool) :
    decodeRequest (checkResponseWord code status) = .ok (.checkResponse code status) := by
  simp [decodeRequest, checkResponseWord, operationOf, checkResponseWord_fixed, takesPayload,
    operationInstr, valueRefusal]

end Sys2Proof
end

