-- ==== Sys2Proof/Laws/Frame.lean ====
section
/-!
SUPPORT. The command frame as one list (spec/30_encoding.md R75) and sums of concatenations.
-/

namespace Sys2Proof.Machine

theorem sum8_append (s t : List Byte) : sum8 (s ++ t) = sum8 s + sum8 t := by
  induction s with
  | nil => simp [sum8]
  | cons b s ih => simp [sum8, ih, BitVec.add_assoc]

/-- The frame byte by byte. -/
theorem encodeFrame_eq (op : Byte) (p : List Byte) :
    encodeFrame op p =
      0x00 :: 0x00 :: 0xFF :: BitVec.ofNat 8 (p.length + 2)
        :: neg8 (BitVec.ofNat 8 (p.length + 2)) :: 0xD4 :: op
        :: (p ++ [neg8 (0xD4 + op + sum8 p), 0x00]) := by
  simp [encodeFrame, frameLen, frameData, startSeq, tfiHost, postamble, sum8, BitVec.add_assoc]

@[simp] theorem length_encodeFrame (op : Byte) (p : List Byte) :
    (encodeFrame op p).length = p.length + 9 := by
  simp [encodeFrame_eq]

end Sys2Proof.Machine
end

