-- ==== Sys2Proof/Laws/State.lean ====
section
/-!
SUPPORT. The fields of the state after each named operation, one lemma per field per operation, so that
no proof unfolds a record update.
-/

namespace Sys2Proof.Machine

/-! ## record -/

@[simp] theorem record_cs (e : Event) (s : State) : (record e s).cs = s.cs := rfl
@[simp] theorem record_poll (e : Event) (s : State) : (record e s).poll = s.poll := rfl
@[simp] theorem record_elapsed (e : Event) (s : State) : (record e s).elapsed = s.elapsed := rfl
@[simp] theorem record_rx (e : Event) (s : State) : (record e s).rx = s.rx := rfl
@[simp] theorem record_rxLen (e : Event) (s : State) : (record e s).rxLen = s.rxLen := rfl
@[simp] theorem record_result (e : Event) (s : State) : (record e s).result = s.result := rfl
@[simp] theorem record_busy (e : Event) (s : State) : (record e s).busy = s.busy := rfl
@[simp] theorem record_seq (e : Event) (s : State) : (record e s).seq = s.seq := rfl
@[simp] theorem record_req (e : Event) (s : State) : (record e s).req = s.req := rfl
@[simp] theorem record_faulted (e : Event) (s : State) : (record e s).faulted = s.faulted := rfl
@[simp] theorem record_refused (e : Event) (s : State) : (record e s).refused = s.refused := rfl
@[simp] theorem record_events (e : Event) (s : State) : (record e s).events = s.events ++ [e] := rfl
@[simp] theorem record_config (e : Event) (s : State) : (record e s).config = s.config := rfl
@[simp] theorem record_chip (e : Event) (s : State) : (record e s).chip = s.chip := rfl
@[simp] theorem record_draws (e : Event) (s : State) : (record e s).draws = s.draws := rfl
@[simp] theorem record_host (e : Event) (s : State) : (record e s).host = s.host := rfl
@[simp] theorem record_resetIn (e : Event) (s : State) : (record e s).resetIn = s.resetIn := rfl
@[simp] theorem record_readOut (e : Event) (s : State) : (record e s).readOut = s.readOut := rfl
@[simp] theorem record_readFault (e : Event) (s : State) : (record e s).readFault = s.readFault := rfl

/-! ## csPrim -/

@[simp] theorem csPrim_cs (b : Bool) (s : State) : (csPrim b s).cs = b := rfl
@[simp] theorem csPrim_poll (b : Bool) (s : State) : (csPrim b s).poll = s.poll := rfl
@[simp] theorem csPrim_elapsed (b : Bool) (s : State) : (csPrim b s).elapsed = s.elapsed := rfl
@[simp] theorem csPrim_rx (b : Bool) (s : State) : (csPrim b s).rx = s.rx := rfl
@[simp] theorem csPrim_rxLen (b : Bool) (s : State) : (csPrim b s).rxLen = s.rxLen := rfl
@[simp] theorem csPrim_result (b : Bool) (s : State) : (csPrim b s).result = s.result := rfl
@[simp] theorem csPrim_busy (b : Bool) (s : State) : (csPrim b s).busy = s.busy := rfl
@[simp] theorem csPrim_seq (b : Bool) (s : State) : (csPrim b s).seq = s.seq := rfl
@[simp] theorem csPrim_req (b : Bool) (s : State) : (csPrim b s).req = s.req := rfl
@[simp] theorem csPrim_faulted (b : Bool) (s : State) : (csPrim b s).faulted = s.faulted := rfl
@[simp] theorem csPrim_refused (b : Bool) (s : State) : (csPrim b s).refused = s.refused := rfl
@[simp] theorem csPrim_events (b : Bool) (s : State) : (csPrim b s).events = s.events ++ [.cs b] := rfl
@[simp] theorem csPrim_config (b : Bool) (s : State) : (csPrim b s).config = s.config := rfl
@[simp] theorem csPrim_chip (b : Bool) (s : State) : (csPrim b s).chip = s.chip := rfl
@[simp] theorem csPrim_draws (b : Bool) (s : State) : (csPrim b s).draws = s.draws := rfl
@[simp] theorem csPrim_host (b : Bool) (s : State) : (csPrim b s).host = s.host := rfl
@[simp] theorem csPrim_resetIn (b : Bool) (s : State) : (csPrim b s).resetIn = s.resetIn := rfl
@[simp] theorem csPrim_readOut (b : Bool) (s : State) : (csPrim b s).readOut = s.readOut := rfl
@[simp] theorem csPrim_readFault (b : Bool) (s : State) : (csPrim b s).readFault = s.readFault := rfl

/-! ## xferPrim -/

@[simp] theorem xferPrim_cs (o : Byte) (s : State) : (xferPrim o s).cs = s.cs := rfl
@[simp] theorem xferPrim_poll (o : Byte) (s : State) : (xferPrim o s).poll = s.poll := rfl
@[simp] theorem xferPrim_elapsed (o : Byte) (s : State) : (xferPrim o s).elapsed = s.elapsed := rfl
@[simp] theorem xferPrim_rx (o : Byte) (s : State) : (xferPrim o s).rx = s.rx := rfl
@[simp] theorem xferPrim_rxLen (o : Byte) (s : State) : (xferPrim o s).rxLen = s.rxLen := rfl
@[simp] theorem xferPrim_result (o : Byte) (s : State) : (xferPrim o s).result = s.result := rfl
@[simp] theorem xferPrim_busy (o : Byte) (s : State) : (xferPrim o s).busy = s.busy := rfl
@[simp] theorem xferPrim_seq (o : Byte) (s : State) : (xferPrim o s).seq = s.seq := rfl
@[simp] theorem xferPrim_req (o : Byte) (s : State) : (xferPrim o s).req = s.req := rfl
@[simp] theorem xferPrim_faulted (o : Byte) (s : State) : (xferPrim o s).faulted = s.faulted := rfl
@[simp] theorem xferPrim_refused (o : Byte) (s : State) : (xferPrim o s).refused = s.refused := rfl
@[simp] theorem xferPrim_events (o : Byte) (s : State) : (xferPrim o s).events = s.events ++ [.xfer o (answer s)] := rfl
@[simp] theorem xferPrim_config (o : Byte) (s : State) : (xferPrim o s).config = s.config := rfl
@[simp] theorem xferPrim_chip (o : Byte) (s : State) : (xferPrim o s).chip = s.chip.tail := rfl
@[simp] theorem xferPrim_draws (o : Byte) (s : State) : (xferPrim o s).draws = if s.chip = [] then s.draws + 1 else s.draws := rfl
@[simp] theorem xferPrim_host (o : Byte) (s : State) : (xferPrim o s).host = s.host := rfl
@[simp] theorem xferPrim_resetIn (o : Byte) (s : State) : (xferPrim o s).resetIn = s.resetIn := rfl
@[simp] theorem xferPrim_readOut (o : Byte) (s : State) : (xferPrim o s).readOut = s.readOut := rfl
@[simp] theorem xferPrim_readFault (o : Byte) (s : State) : (xferPrim o s).readFault = s.readFault := rfl

/-! ## sleepPrim -/

@[simp] theorem sleepPrim_cs (ms : Nat) (s : State) : (sleepPrim ms s).cs = s.cs := rfl
@[simp] theorem sleepPrim_poll (ms : Nat) (s : State) : (sleepPrim ms s).poll = s.poll := rfl
@[simp] theorem sleepPrim_elapsed (ms : Nat) (s : State) : (sleepPrim ms s).elapsed = s.elapsed := rfl
@[simp] theorem sleepPrim_rx (ms : Nat) (s : State) : (sleepPrim ms s).rx = s.rx := rfl
@[simp] theorem sleepPrim_rxLen (ms : Nat) (s : State) : (sleepPrim ms s).rxLen = s.rxLen := rfl
@[simp] theorem sleepPrim_result (ms : Nat) (s : State) : (sleepPrim ms s).result = s.result := rfl
@[simp] theorem sleepPrim_busy (ms : Nat) (s : State) : (sleepPrim ms s).busy = s.busy := rfl
@[simp] theorem sleepPrim_seq (ms : Nat) (s : State) : (sleepPrim ms s).seq = s.seq := rfl
@[simp] theorem sleepPrim_req (ms : Nat) (s : State) : (sleepPrim ms s).req = s.req := rfl
@[simp] theorem sleepPrim_faulted (ms : Nat) (s : State) : (sleepPrim ms s).faulted = s.faulted := rfl
@[simp] theorem sleepPrim_refused (ms : Nat) (s : State) : (sleepPrim ms s).refused = s.refused := rfl
@[simp] theorem sleepPrim_events (ms : Nat) (s : State) : (sleepPrim ms s).events = s.events ++ [.sleep ms] := rfl
@[simp] theorem sleepPrim_config (ms : Nat) (s : State) : (sleepPrim ms s).config = s.config := rfl
@[simp] theorem sleepPrim_chip (ms : Nat) (s : State) : (sleepPrim ms s).chip = s.chip := rfl
@[simp] theorem sleepPrim_draws (ms : Nat) (s : State) : (sleepPrim ms s).draws = s.draws := rfl
@[simp] theorem sleepPrim_host (ms : Nat) (s : State) : (sleepPrim ms s).host = s.host := rfl
@[simp] theorem sleepPrim_resetIn (ms : Nat) (s : State) : (sleepPrim ms s).resetIn = s.resetIn := rfl
@[simp] theorem sleepPrim_readOut (ms : Nat) (s : State) : (sleepPrim ms s).readOut = s.readOut := rfl
@[simp] theorem sleepPrim_readFault (ms : Nat) (s : State) : (sleepPrim ms s).readFault = s.readFault := rfl

/-! ## clearRx -/

@[simp] theorem clearRx_cs (s : State) : (clearRx s).cs = s.cs := rfl
@[simp] theorem clearRx_poll (s : State) : (clearRx s).poll = s.poll := rfl
@[simp] theorem clearRx_elapsed (s : State) : (clearRx s).elapsed = s.elapsed := rfl
@[simp] theorem clearRx_rx (s : State) : (clearRx s).rx = [] := rfl
@[simp] theorem clearRx_rxLen (s : State) : (clearRx s).rxLen = 0 := rfl
@[simp] theorem clearRx_result (s : State) : (clearRx s).result = s.result := rfl
@[simp] theorem clearRx_busy (s : State) : (clearRx s).busy = s.busy := rfl
@[simp] theorem clearRx_seq (s : State) : (clearRx s).seq = s.seq := rfl
@[simp] theorem clearRx_req (s : State) : (clearRx s).req = s.req := rfl
@[simp] theorem clearRx_faulted (s : State) : (clearRx s).faulted = s.faulted := rfl
@[simp] theorem clearRx_refused (s : State) : (clearRx s).refused = s.refused := rfl
@[simp] theorem clearRx_events (s : State) : (clearRx s).events = s.events := rfl
@[simp] theorem clearRx_config (s : State) : (clearRx s).config = s.config := rfl
@[simp] theorem clearRx_chip (s : State) : (clearRx s).chip = s.chip := rfl
@[simp] theorem clearRx_draws (s : State) : (clearRx s).draws = s.draws := rfl
@[simp] theorem clearRx_host (s : State) : (clearRx s).host = s.host := rfl
@[simp] theorem clearRx_resetIn (s : State) : (clearRx s).resetIn = s.resetIn := rfl
@[simp] theorem clearRx_readOut (s : State) : (clearRx s).readOut = s.readOut := rfl
@[simp] theorem clearRx_readFault (s : State) : (clearRx s).readFault = s.readFault := rfl

/-! ## storeRx -/

@[simp] theorem storeRx_cs (k : Nat) (b : Byte) (s : State) : (storeRx k b s).cs = s.cs := rfl
@[simp] theorem storeRx_poll (k : Nat) (b : Byte) (s : State) : (storeRx k b s).poll = s.poll := rfl
@[simp] theorem storeRx_elapsed (k : Nat) (b : Byte) (s : State) : (storeRx k b s).elapsed = s.elapsed := rfl
@[simp] theorem storeRx_rx (k : Nat) (b : Byte) (s : State) : (storeRx k b s).rx = writeCell s.rx k b := rfl
@[simp] theorem storeRx_rxLen (k : Nat) (b : Byte) (s : State) : (storeRx k b s).rxLen = k + 1 := rfl
@[simp] theorem storeRx_result (k : Nat) (b : Byte) (s : State) : (storeRx k b s).result = s.result := rfl
@[simp] theorem storeRx_busy (k : Nat) (b : Byte) (s : State) : (storeRx k b s).busy = s.busy := rfl
@[simp] theorem storeRx_seq (k : Nat) (b : Byte) (s : State) : (storeRx k b s).seq = s.seq := rfl
@[simp] theorem storeRx_req (k : Nat) (b : Byte) (s : State) : (storeRx k b s).req = s.req := rfl
@[simp] theorem storeRx_faulted (k : Nat) (b : Byte) (s : State) : (storeRx k b s).faulted = s.faulted := rfl
@[simp] theorem storeRx_refused (k : Nat) (b : Byte) (s : State) : (storeRx k b s).refused = s.refused := rfl
@[simp] theorem storeRx_events (k : Nat) (b : Byte) (s : State) : (storeRx k b s).events = s.events := rfl
@[simp] theorem storeRx_config (k : Nat) (b : Byte) (s : State) : (storeRx k b s).config = s.config := rfl
@[simp] theorem storeRx_chip (k : Nat) (b : Byte) (s : State) : (storeRx k b s).chip = s.chip := rfl
@[simp] theorem storeRx_draws (k : Nat) (b : Byte) (s : State) : (storeRx k b s).draws = s.draws := rfl
@[simp] theorem storeRx_host (k : Nat) (b : Byte) (s : State) : (storeRx k b s).host = s.host := rfl
@[simp] theorem storeRx_resetIn (k : Nat) (b : Byte) (s : State) : (storeRx k b s).resetIn = s.resetIn := rfl
@[simp] theorem storeRx_readOut (k : Nat) (b : Byte) (s : State) : (storeRx k b s).readOut = s.readOut := rfl
@[simp] theorem storeRx_readFault (k : Nat) (b : Byte) (s : State) : (storeRx k b s).readFault = s.readFault := rfl

/-! ## finish -/

@[simp] theorem finish_cs (c : ResultCode) (v : Byte) (s : State) : (finish c v s).cs = s.cs := rfl
@[simp] theorem finish_poll (c : ResultCode) (v : Byte) (s : State) : (finish c v s).poll = s.poll := rfl
@[simp] theorem finish_elapsed (c : ResultCode) (v : Byte) (s : State) : (finish c v s).elapsed = s.elapsed := rfl
@[simp] theorem finish_rx (c : ResultCode) (v : Byte) (s : State) : (finish c v s).rx = s.rx := rfl
@[simp] theorem finish_rxLen (c : ResultCode) (v : Byte) (s : State) : (finish c v s).rxLen = s.rxLen := rfl
@[simp] theorem finish_result (c : ResultCode) (v : Byte) (s : State) : (finish c v s).result = some { code := c, value := v } := rfl
@[simp] theorem finish_busy (c : ResultCode) (v : Byte) (s : State) : (finish c v s).busy = false := rfl
@[simp] theorem finish_seq (c : ResultCode) (v : Byte) (s : State) : (finish c v s).seq = .idle := rfl
@[simp] theorem finish_req (c : ResultCode) (v : Byte) (s : State) : (finish c v s).req = s.req := rfl
@[simp] theorem finish_faulted (c : ResultCode) (v : Byte) (s : State) : (finish c v s).faulted = s.faulted := rfl
@[simp] theorem finish_refused (c : ResultCode) (v : Byte) (s : State) : (finish c v s).refused = s.refused := rfl
@[simp] theorem finish_events (c : ResultCode) (v : Byte) (s : State) : (finish c v s).events = s.events ++ [.finish c v] := rfl
@[simp] theorem finish_config (c : ResultCode) (v : Byte) (s : State) : (finish c v s).config = s.config := rfl
@[simp] theorem finish_chip (c : ResultCode) (v : Byte) (s : State) : (finish c v s).chip = s.chip := rfl
@[simp] theorem finish_draws (c : ResultCode) (v : Byte) (s : State) : (finish c v s).draws = s.draws := rfl
@[simp] theorem finish_host (c : ResultCode) (v : Byte) (s : State) : (finish c v s).host = if c = .ok then s.host else stopProgram s.host := rfl
@[simp] theorem finish_resetIn (c : ResultCode) (v : Byte) (s : State) : (finish c v s).resetIn = s.resetIn := rfl
@[simp] theorem finish_readOut (c : ResultCode) (v : Byte) (s : State) : (finish c v s).readOut = s.readOut := rfl
@[simp] theorem finish_readFault (c : ResultCode) (v : Byte) (s : State) : (finish c v s).readFault = s.readFault := rfl

/-! ## raiseFault -/

@[simp] theorem raiseFault_cs (w : ReadRef) (s : State) : (raiseFault w s).cs = s.cs := rfl
@[simp] theorem raiseFault_poll (w : ReadRef) (s : State) : (raiseFault w s).poll = s.poll := rfl
@[simp] theorem raiseFault_elapsed (w : ReadRef) (s : State) : (raiseFault w s).elapsed = s.elapsed := rfl
@[simp] theorem raiseFault_rx (w : ReadRef) (s : State) : (raiseFault w s).rx = s.rx := rfl
@[simp] theorem raiseFault_rxLen (w : ReadRef) (s : State) : (raiseFault w s).rxLen = s.rxLen := rfl
@[simp] theorem raiseFault_result (w : ReadRef) (s : State) : (raiseFault w s).result = s.result := rfl
@[simp] theorem raiseFault_busy (w : ReadRef) (s : State) : (raiseFault w s).busy = s.busy := rfl
@[simp] theorem raiseFault_seq (w : ReadRef) (s : State) : (raiseFault w s).seq = .faulted w := rfl
@[simp] theorem raiseFault_req (w : ReadRef) (s : State) : (raiseFault w s).req = s.req := rfl
@[simp] theorem raiseFault_faulted (w : ReadRef) (s : State) : (raiseFault w s).faulted = true := rfl
@[simp] theorem raiseFault_refused (w : ReadRef) (s : State) : (raiseFault w s).refused = s.refused := rfl
@[simp] theorem raiseFault_events (w : ReadRef) (s : State) : (raiseFault w s).events = s.events ++ [.fault w] := rfl
@[simp] theorem raiseFault_config (w : ReadRef) (s : State) : (raiseFault w s).config = s.config := rfl
@[simp] theorem raiseFault_chip (w : ReadRef) (s : State) : (raiseFault w s).chip = s.chip := rfl
@[simp] theorem raiseFault_draws (w : ReadRef) (s : State) : (raiseFault w s).draws = s.draws := rfl
@[simp] theorem raiseFault_host (w : ReadRef) (s : State) : (raiseFault w s).host = stopProgram s.host := rfl
@[simp] theorem raiseFault_resetIn (w : ReadRef) (s : State) : (raiseFault w s).resetIn = s.resetIn := rfl
@[simp] theorem raiseFault_readOut (w : ReadRef) (s : State) : (raiseFault w s).readOut = s.readOut := rfl
@[simp] theorem raiseFault_readFault (w : ReadRef) (s : State) : (raiseFault w s).readFault = s.readFault := rfl

/-! ## raiseReadFault -/

@[simp] theorem raiseReadFault_cs (w : ReadRef) (s : State) : (raiseReadFault w s).cs = s.cs := rfl
@[simp] theorem raiseReadFault_poll (w : ReadRef) (s : State) : (raiseReadFault w s).poll = s.poll := rfl
@[simp] theorem raiseReadFault_elapsed (w : ReadRef) (s : State) : (raiseReadFault w s).elapsed = s.elapsed := rfl
@[simp] theorem raiseReadFault_rx (w : ReadRef) (s : State) : (raiseReadFault w s).rx = s.rx := rfl
@[simp] theorem raiseReadFault_rxLen (w : ReadRef) (s : State) : (raiseReadFault w s).rxLen = s.rxLen := rfl
@[simp] theorem raiseReadFault_result (w : ReadRef) (s : State) : (raiseReadFault w s).result = s.result := rfl
@[simp] theorem raiseReadFault_busy (w : ReadRef) (s : State) : (raiseReadFault w s).busy = s.busy := rfl
@[simp] theorem raiseReadFault_seq (w : ReadRef) (s : State) : (raiseReadFault w s).seq = s.seq := rfl
@[simp] theorem raiseReadFault_req (w : ReadRef) (s : State) : (raiseReadFault w s).req = s.req := rfl
@[simp] theorem raiseReadFault_faulted (w : ReadRef) (s : State) : (raiseReadFault w s).faulted = true := rfl
@[simp] theorem raiseReadFault_refused (w : ReadRef) (s : State) : (raiseReadFault w s).refused = s.refused := rfl
@[simp] theorem raiseReadFault_events (w : ReadRef) (s : State) : (raiseReadFault w s).events = s.events ++ [.fault w] := rfl
@[simp] theorem raiseReadFault_config (w : ReadRef) (s : State) : (raiseReadFault w s).config = s.config := rfl
@[simp] theorem raiseReadFault_chip (w : ReadRef) (s : State) : (raiseReadFault w s).chip = s.chip := rfl
@[simp] theorem raiseReadFault_draws (w : ReadRef) (s : State) : (raiseReadFault w s).draws = s.draws := rfl
@[simp] theorem raiseReadFault_host (w : ReadRef) (s : State) : (raiseReadFault w s).host = stopProgram s.host := rfl
@[simp] theorem raiseReadFault_resetIn (w : ReadRef) (s : State) : (raiseReadFault w s).resetIn = s.resetIn := rfl
@[simp] theorem raiseReadFault_readOut (w : ReadRef) (s : State) : (raiseReadFault w s).readOut = s.readOut := rfl
@[simp] theorem raiseReadFault_readFault (w : ReadRef) (s : State) : (raiseReadFault w s).readFault = some w := rfl

/-! ## raiseRefused -/

@[simp] theorem raiseRefused_cs (w : RequestRefusal) (s : State) : (raiseRefused w s).cs = s.cs := rfl
@[simp] theorem raiseRefused_poll (w : RequestRefusal) (s : State) : (raiseRefused w s).poll = s.poll := rfl
@[simp] theorem raiseRefused_elapsed (w : RequestRefusal) (s : State) : (raiseRefused w s).elapsed = s.elapsed := rfl
@[simp] theorem raiseRefused_rx (w : RequestRefusal) (s : State) : (raiseRefused w s).rx = s.rx := rfl
@[simp] theorem raiseRefused_rxLen (w : RequestRefusal) (s : State) : (raiseRefused w s).rxLen = s.rxLen := rfl
@[simp] theorem raiseRefused_result (w : RequestRefusal) (s : State) : (raiseRefused w s).result = s.result := rfl
@[simp] theorem raiseRefused_busy (w : RequestRefusal) (s : State) : (raiseRefused w s).busy = true := rfl
@[simp] theorem raiseRefused_seq (w : RequestRefusal) (s : State) : (raiseRefused w s).seq = .refused w := rfl
@[simp] theorem raiseRefused_req (w : RequestRefusal) (s : State) : (raiseRefused w s).req = s.req := rfl
@[simp] theorem raiseRefused_faulted (w : RequestRefusal) (s : State) : (raiseRefused w s).faulted = s.faulted := rfl
@[simp] theorem raiseRefused_refused (w : RequestRefusal) (s : State) : (raiseRefused w s).refused = true := rfl
@[simp] theorem raiseRefused_events (w : RequestRefusal) (s : State) : (raiseRefused w s).events = s.events ++ [.refused w] := rfl
@[simp] theorem raiseRefused_config (w : RequestRefusal) (s : State) : (raiseRefused w s).config = s.config := rfl
@[simp] theorem raiseRefused_chip (w : RequestRefusal) (s : State) : (raiseRefused w s).chip = s.chip := rfl
@[simp] theorem raiseRefused_draws (w : RequestRefusal) (s : State) : (raiseRefused w s).draws = s.draws := rfl
@[simp] theorem raiseRefused_host (w : RequestRefusal) (s : State) : (raiseRefused w s).host = stopProgram s.host := rfl
@[simp] theorem raiseRefused_resetIn (w : RequestRefusal) (s : State) : (raiseRefused w s).resetIn = s.resetIn := rfl
@[simp] theorem raiseRefused_readOut (w : RequestRefusal) (s : State) : (raiseRefused w s).readOut = s.readOut := rfl
@[simp] theorem raiseRefused_readFault (w : RequestRefusal) (s : State) : (raiseRefused w s).readFault = s.readFault := rfl

/-! ## accept -/

@[simp] theorem accept_cs (r : Request) (q : Seq) (s : State) : (accept r q s).cs = s.cs := rfl
@[simp] theorem accept_poll (r : Request) (q : Seq) (s : State) : (accept r q s).poll = s.poll := rfl
@[simp] theorem accept_elapsed (r : Request) (q : Seq) (s : State) : (accept r q s).elapsed = s.elapsed := rfl
@[simp] theorem accept_rx (r : Request) (q : Seq) (s : State) : (accept r q s).rx = s.rx := rfl
@[simp] theorem accept_rxLen (r : Request) (q : Seq) (s : State) : (accept r q s).rxLen = s.rxLen := rfl
@[simp] theorem accept_result (r : Request) (q : Seq) (s : State) : (accept r q s).result = s.result := rfl
@[simp] theorem accept_busy (r : Request) (q : Seq) (s : State) : (accept r q s).busy = true := rfl
@[simp] theorem accept_seq (r : Request) (q : Seq) (s : State) : (accept r q s).seq = q := rfl
@[simp] theorem accept_req (r : Request) (q : Seq) (s : State) : (accept r q s).req = some r := rfl
@[simp] theorem accept_faulted (r : Request) (q : Seq) (s : State) : (accept r q s).faulted = s.faulted := rfl
@[simp] theorem accept_refused (r : Request) (q : Seq) (s : State) : (accept r q s).refused = s.refused := rfl
@[simp] theorem accept_events (r : Request) (q : Seq) (s : State) : (accept r q s).events = s.events := rfl
@[simp] theorem accept_config (r : Request) (q : Seq) (s : State) : (accept r q s).config = s.config := rfl
@[simp] theorem accept_chip (r : Request) (q : Seq) (s : State) : (accept r q s).chip = s.chip := rfl
@[simp] theorem accept_draws (r : Request) (q : Seq) (s : State) : (accept r q s).draws = s.draws := rfl
@[simp] theorem accept_host (r : Request) (q : Seq) (s : State) : (accept r q s).host = s.host := rfl
@[simp] theorem accept_resetIn (r : Request) (q : Seq) (s : State) : (accept r q s).resetIn = s.resetIn := rfl
@[simp] theorem accept_readOut (r : Request) (q : Seq) (s : State) : (accept r q s).readOut = s.readOut := rfl
@[simp] theorem accept_readFault (r : Request) (q : Seq) (s : State) : (accept r q s).readFault = s.readFault := rfl

/-! ## goto -/

@[simp] theorem goto_cs (q : Seq) (s : State) : (goto q s).cs = s.cs := rfl
@[simp] theorem goto_poll (q : Seq) (s : State) : (goto q s).poll = s.poll := rfl
@[simp] theorem goto_elapsed (q : Seq) (s : State) : (goto q s).elapsed = s.elapsed := rfl
@[simp] theorem goto_rx (q : Seq) (s : State) : (goto q s).rx = s.rx := rfl
@[simp] theorem goto_rxLen (q : Seq) (s : State) : (goto q s).rxLen = s.rxLen := rfl
@[simp] theorem goto_result (q : Seq) (s : State) : (goto q s).result = s.result := rfl
@[simp] theorem goto_busy (q : Seq) (s : State) : (goto q s).busy = s.busy := rfl
@[simp] theorem goto_seq (q : Seq) (s : State) : (goto q s).seq = q := rfl
@[simp] theorem goto_req (q : Seq) (s : State) : (goto q s).req = s.req := rfl
@[simp] theorem goto_faulted (q : Seq) (s : State) : (goto q s).faulted = s.faulted := rfl
@[simp] theorem goto_refused (q : Seq) (s : State) : (goto q s).refused = s.refused := rfl
@[simp] theorem goto_events (q : Seq) (s : State) : (goto q s).events = s.events := rfl
@[simp] theorem goto_config (q : Seq) (s : State) : (goto q s).config = s.config := rfl
@[simp] theorem goto_chip (q : Seq) (s : State) : (goto q s).chip = s.chip := rfl
@[simp] theorem goto_draws (q : Seq) (s : State) : (goto q s).draws = s.draws := rfl
@[simp] theorem goto_host (q : Seq) (s : State) : (goto q s).host = s.host := rfl
@[simp] theorem goto_resetIn (q : Seq) (s : State) : (goto q s).resetIn = s.resetIn := rfl
@[simp] theorem goto_readOut (q : Seq) (s : State) : (goto q s).readOut = s.readOut := rfl
@[simp] theorem goto_readFault (q : Seq) (s : State) : (goto q s).readFault = s.readFault := rfl

/-! ## readStart -/

@[simp] theorem readStart_cs (s : State) : (readStart s).cs = true := rfl
@[simp] theorem readStart_poll (s : State) : (readStart s).poll = s.poll := rfl
@[simp] theorem readStart_elapsed (s : State) : (readStart s).elapsed = s.elapsed := rfl
@[simp] theorem readStart_rx (s : State) : (readStart s).rx = [] := rfl
@[simp] theorem readStart_rxLen (s : State) : (readStart s).rxLen = 0 := rfl
@[simp] theorem readStart_result (s : State) : (readStart s).result = s.result := rfl
@[simp] theorem readStart_busy (s : State) : (readStart s).busy = s.busy := rfl
@[simp] theorem readStart_seq (s : State) : (readStart s).seq = s.seq := rfl
@[simp] theorem readStart_req (s : State) : (readStart s).req = s.req := rfl
@[simp] theorem readStart_faulted (s : State) : (readStart s).faulted = s.faulted := rfl
@[simp] theorem readStart_refused (s : State) : (readStart s).refused = s.refused := rfl
@[simp] theorem readStart_events (s : State) : (readStart s).events = s.events ++ [.cs true] := rfl
@[simp] theorem readStart_config (s : State) : (readStart s).config = s.config := rfl
@[simp] theorem readStart_chip (s : State) : (readStart s).chip = s.chip := rfl
@[simp] theorem readStart_draws (s : State) : (readStart s).draws = s.draws := rfl
@[simp] theorem readStart_host (s : State) : (readStart s).host = s.host := rfl
@[simp] theorem readStart_resetIn (s : State) : (readStart s).resetIn = s.resetIn := rfl
@[simp] theorem readStart_readOut (s : State) : (readStart s).readOut = s.readOut := rfl
@[simp] theorem readStart_readFault (s : State) : (readStart s).readFault = s.readFault := rfl

/-! ## waitStart -/

@[simp] theorem waitStart_cs (s : State) : (waitStart s).cs = true := rfl
@[simp] theorem waitStart_poll (s : State) : (waitStart s).poll = .polling := rfl
@[simp] theorem waitStart_elapsed (s : State) : (waitStart s).elapsed = 0 := rfl
@[simp] theorem waitStart_rx (s : State) : (waitStart s).rx = s.rx := rfl
@[simp] theorem waitStart_rxLen (s : State) : (waitStart s).rxLen = s.rxLen := rfl
@[simp] theorem waitStart_result (s : State) : (waitStart s).result = s.result := rfl
@[simp] theorem waitStart_busy (s : State) : (waitStart s).busy = s.busy := rfl
@[simp] theorem waitStart_seq (s : State) : (waitStart s).seq = s.seq := rfl
@[simp] theorem waitStart_req (s : State) : (waitStart s).req = s.req := rfl
@[simp] theorem waitStart_faulted (s : State) : (waitStart s).faulted = s.faulted := rfl
@[simp] theorem waitStart_refused (s : State) : (waitStart s).refused = s.refused := rfl
@[simp] theorem waitStart_events (s : State) : (waitStart s).events = s.events ++ [.cs true] := rfl
@[simp] theorem waitStart_config (s : State) : (waitStart s).config = s.config := rfl
@[simp] theorem waitStart_chip (s : State) : (waitStart s).chip = s.chip := rfl
@[simp] theorem waitStart_draws (s : State) : (waitStart s).draws = s.draws := rfl
@[simp] theorem waitStart_host (s : State) : (waitStart s).host = s.host := rfl
@[simp] theorem waitStart_resetIn (s : State) : (waitStart s).resetIn = s.resetIn := rfl
@[simp] theorem waitStart_readOut (s : State) : (waitStart s).readOut = s.readOut := rfl
@[simp] theorem waitStart_readFault (s : State) : (waitStart s).readFault = s.readFault := rfl

/-! ## applyReset (R240, R241) -/

@[simp] theorem applyReset_cs (s : State) : (applyReset s).cs = false := rfl
@[simp] theorem applyReset_poll (s : State) : (applyReset s).poll = .idle := rfl
@[simp] theorem applyReset_elapsed (s : State) : (applyReset s).elapsed = 0 := rfl
@[simp] theorem applyReset_rx (s : State) : (applyReset s).rx = [] := rfl
@[simp] theorem applyReset_rxLen (s : State) : (applyReset s).rxLen = 0 := rfl
@[simp] theorem applyReset_result (s : State) : (applyReset s).result = none := rfl
@[simp] theorem applyReset_busy (s : State) : (applyReset s).busy = false := rfl
@[simp] theorem applyReset_seq (s : State) : (applyReset s).seq = .idle := rfl
@[simp] theorem applyReset_req (s : State) : (applyReset s).req = none := rfl
@[simp] theorem applyReset_faulted (s : State) : (applyReset s).faulted = s.faulted := by
  unfold applyReset; split <;> rfl
@[simp] theorem applyReset_refused (s : State) : (applyReset s).refused = s.refused := by
  unfold applyReset; split <;> rfl
@[simp] theorem applyReset_events (s : State) :
    (applyReset s).events = if s.cs then s.events ++ [.cs false] else s.events := by
  unfold applyReset; split <;> rfl
@[simp] theorem applyReset_config (s : State) : (applyReset s).config = s.config := by
  unfold applyReset; split <;> rfl
@[simp] theorem applyReset_chip (s : State) : (applyReset s).chip = s.chip := by
  unfold applyReset; split <;> rfl
@[simp] theorem applyReset_draws (s : State) : (applyReset s).draws = s.draws := by
  unfold applyReset; split <;> rfl
@[simp] theorem applyReset_host (s : State) : (applyReset s).host = if s.busy then stopProgram s.host else s.host := rfl
@[simp] theorem applyReset_resetIn (s : State) : (applyReset s).resetIn = s.resetIn := by
  unfold applyReset; split <;> rfl
@[simp] theorem applyReset_readOut (s : State) : (applyReset s).readOut = s.readOut := by
  unfold applyReset; split <;> rfl
@[simp] theorem applyReset_readFault (s : State) : (applyReset s).readFault = none := rfl

end Sys2Proof.Machine
end

