-- ==== Sys2Proof/Laws/Memory.lean ====
section
/-!
SUPPORT. The receive buffer: reads after writes, the canonical form, and the cells a response read
fills one by one (spec/10_state.md R24, R25).
-/

namespace Sys2Proof.Machine

theorem readCell_insertCell_same (m : List Host.Cell) (i : Nat) (b : Byte) :
    readCell (insertCell m i b) i = some b := by
  induction m with
  | nil => simp [insertCell, readCell]
  | cons c m ih =>
    obtain ⟨a, x⟩ := c
    simp only [insertCell]
    split
    · simp [readCell]
    · split
      · simp [readCell]
      · have : a ≠ i := by omega
        simp [readCell, this, ih]

theorem readCell_insertCell_other (m : List Host.Cell) {i a : Nat} (b : Byte) (h : a ≠ i) :
    readCell (insertCell m i b) a = readCell m a := by
  induction m with
  | nil => simp [insertCell, readCell, Ne.symm h]
  | cons c m ih =>
    obtain ⟨a', x⟩ := c
    simp only [insertCell]
    split
    · simp [readCell, Ne.symm h]
    · split
      · have : a' ≠ a := by omega
        simp [readCell, Ne.symm h, this]
      · simp [readCell, ih]

theorem risingFrom_insertCell {m : List Host.Cell} {lo i : Nat} {b : Byte}
    (h : risingFrom lo m = true) (hlo : lo ≤ i) (hi : i < scratchSize) :
    risingFrom lo (insertCell m i b) = true := by
  induction m generalizing lo with
  | nil => simp [insertCell, risingFrom, hlo, hi]
  | cons c m ih =>
    obtain ⟨a, x⟩ := c
    simp only [risingFrom, Bool.and_eq_true, decide_eq_true_eq] at h
    simp only [insertCell]
    split
    · simp only [risingFrom, Bool.and_eq_true, decide_eq_true_eq]; exact ⟨⟨hlo, hi⟩, ⟨by omega, h.1.2⟩, h.2⟩
    · split
      · subst i; simp only [risingFrom, Bool.and_eq_true, decide_eq_true_eq]; exact ⟨⟨hlo, hi⟩, h.2⟩
      · simp only [risingFrom, Bool.and_eq_true, decide_eq_true_eq]; exact ⟨h.1, ih h.2 (by omega)⟩

/-- Every write keeps the canonical form. -/
theorem wf_writeCell {m : List Host.Cell} {i : Nat} {b : Byte} (h : Memory.wf m = true) :
    Memory.wf (writeCell m i b) = true := by
  unfold writeCell
  split
  · exact risingFrom_insertCell h (Nat.zero_le _) ‹_›
  · exact h

/-- The buffer after reset, and at the start of every response read, is in canonical form. -/
theorem wf_nil : Memory.wf [] = true := rfl

theorem wf_clearRx (s : State) : Memory.wf (clearRx s).rx = true := rfl

theorem wf_storeRx (k : Nat) (b : Byte) (s : State) (h : Memory.wf s.rx = true) :
    Memory.wf (storeRx k b s).rx = true := wf_writeCell h

theorem wf_reset : Memory.wf State.reset.rx = true := rfl

theorem readCell_writeCell_same {m : List Host.Cell} {i : Nat} {b : Byte} (h : i < scratchSize) :
    readCell (writeCell m i b) i = some b := by
  simp [writeCell, h, readCell_insertCell_same]

theorem readCell_writeCell_other {m : List Host.Cell} {i a : Nat} {b : Byte} (h : a ≠ i) :
    readCell (writeCell m i b) a = readCell m a := by
  unfold writeCell
  split
  · exact readCell_insertCell_other m b h
  · rfl

/-- A cell holds a value exactly when its index is listed. -/
theorem readCell_isSome (m : List Host.Cell) (i : Nat) :
    (readCell m i).isSome = true ↔ i ∈ m.map Prod.fst := by
  induction m with
  | nil => simp [readCell]
  | cons c m ih =>
    obtain ⟨a, x⟩ := c
    by_cases h : a = i
    · simp [readCell, h]
    · simp [readCell, h, Ne.symm h, ih]

/-- A cell written past the last listed one joins the end of the list. -/
theorem insertCell_append {m : List Host.Cell} {i : Nat} {b : Byte}
    (h : ∀ a ∈ m.map Prod.fst, a < i) : insertCell m i b = m ++ [(i, b)] := by
  induction m with
  | nil => rfl
  | cons c m ih =>
    obtain ⟨a, x⟩ := c
    simp only [List.map_cons, List.mem_cons, forall_eq_or_imp] at h
    simp only [insertCell]
    rw [if_neg (by omega), if_neg (by omega), ih h.2]; rfl

/-- One more byte received: cell k after the cells 0 to k-1. -/
theorem writeCell_next {m : List Host.Cell} {k : Nat} {b : Byte}
    (h : m.map Prod.fst = List.range k) (hk : k < scratchSize) :
    writeCell m k b = m ++ [(k, b)] := by
  rw [writeCell, if_pos hk, insertCell_append (by rw [h]; simp)]

theorem keys_writeCell_next {m : List Host.Cell} {k : Nat} {b : Byte}
    (h : m.map Prod.fst = List.range k) (hk : k < scratchSize) :
    (writeCell m k b).map Prod.fst = List.range (k + 1) := by
  rw [writeCell_next h hk, List.map_append, h, List.range_succ]; rfl

theorem risingFrom_of_keys {m : List Host.Cell} {lo n : Nat}
    (h : m.map Prod.fst = List.range' lo n) (hn : lo + n ≤ scratchSize) :
    risingFrom lo m = true := by
  induction m generalizing lo n with
  | nil => rfl
  | cons c m ih =>
    obtain ⟨a, x⟩ := c
    cases n with
    | zero => simp at h
    | succ n =>
      simp only [List.map_cons, List.range'_succ, List.cons.injEq] at h
      simp only [risingFrom, Bool.and_eq_true, decide_eq_true_eq]
      obtain ⟨rfl, h2⟩ := h
      exact ⟨⟨Nat.le_refl _, by omega⟩, ih h2 (by omega)⟩

/-- A buffer filled from cell 0 on is in canonical form. -/
theorem wf_of_keys {m : List Host.Cell} {n : Nat} (h : m.map Prod.fst = List.range n)
    (hn : n ≤ scratchSize) : Memory.wf m = true :=
  risingFrom_of_keys (by rw [h, List.range_eq_range']) (by omega)

theorem readCell_of_keys {m : List Host.Cell} {lo n : Nat}
    (h : m.map Prod.fst = List.range' lo n) (k : Nat) (hk : k < n) :
    readCell m (lo + k) = (m.map Prod.snd)[k]? := by
  induction m generalizing lo n k with
  | nil => cases n <;> simp_all
  | cons c m ih =>
    obtain ⟨a, x⟩ := c
    cases n with
    | zero => simp at h
    | succ n =>
      simp only [List.map_cons, List.range'_succ, List.cons.injEq] at h
      obtain ⟨rfl, h2⟩ := h
      cases k with
      | zero => simp [readCell]
      | succ k =>
        have := ih h2 k (by omega)
        simp only [readCell, List.map_cons, List.getElem?_cons_succ]
        rw [if_neg (by omega), ← this]; congr 1; omega

/-- Cell k of a filled buffer holds its k-th byte. -/
theorem readCell_filled {m : List Host.Cell} {n : Nat} (h : m.map Prod.fst = List.range n)
    {k : Nat} (hk : k < n) : readCell m k = (m.map Prod.snd)[k]? := by
  have := readCell_of_keys (lo := 0) (by rw [h, List.range_eq_range']) k hk
  simpa using this

/-- `MemRead` of cells that all hold values. -/
theorem memRead_ok {m : List Host.Cell} {i n : Nat} {bs : List Byte} (hn : bs.length = n)
    (h : ∀ k, k < n → readCell m (i + k) = bs[k]?) : memRead m i n = .ok bs := by
  induction n generalizing i bs with
  | zero => cases bs with
    | nil => rfl
    | cons b bs => simp at hn
  | succ n ih =>
    cases bs with
    | nil => simp at hn
    | cons b bs =>
      have h0 := h 0 (by omega)
      simp only [Nat.add_zero, List.getElem?_cons_zero] at h0
      have := ih (i := i + 1) (bs := bs) (by simpa using hn) (fun k hk => by
        have := h (k + 1) (by omega)
        rw [List.getElem?_cons_succ] at this
        rw [← this]; congr 1; omega)
      simp [memRead, h0, this]

/-- `MemRead(0, RXLEN)` of a filled buffer gives its bytes. -/
theorem memRead_filled {m : List Host.Cell} {n : Nat} (h : m.map Prod.fst = List.range n) :
    memRead m 0 n = .ok (m.map Prod.snd) := by
  have hl : (m.map Prod.snd).length = n := by
    have := congrArg List.length h; simpa using this
  exact memRead_ok hl fun k hk => by rw [Nat.zero_add]; exact readCell_filled h hk

/-- What a failing `MemRead` names: a cell without a value. -/
theorem memRead_error {m : List Host.Cell} {i n j : Nat} (h : memRead m i n = .error j) :
    readCell m j = none := by
  induction n generalizing i with
  | zero => simp [memRead] at h
  | succ n ih =>
    simp only [memRead] at h
    split at h
    · cases h; assumption
    · split at h
      · cases h; exact ih ‹_›
      · cases h

end Sys2Proof.Machine
end

