-- ==== Sys2Proof/Laws/Exec.lean ====
section
/-!
SUPPORT. What a step of the machine can do: the three cases of an operation's step, each meaning in
flight, the work of a step, and one inversion lemma per shared operation, so that no proof about steps
unfolds the dispatch again.
-/

namespace Sys2Proof.Machine

/-! ## The environment's answers -/

theorem answer_eq (s : State) : answer s = answerAt s 0 := by
  unfold answer answerAt
  cases h : s.chip <;> simp

/-- A transfer, as a change of the history and of the environment alone. -/
theorem xferPrim_eq (o : Byte) (s : State) :
    xferPrim o s = { s with
      events := s.events ++ [.xfer o (answerAt s 0)]
      chip := chipAfter s 1
      draws := drawsAfter s 1 } := by
  unfold xferPrim record chipAfter drawsAfter
  rw [answer_eq]
  cases h : s.chip <;> simp

theorem answerAt_xferPrim (o : Byte) (s : State) (j : Nat) :
    answerAt (xferPrim o s) j = answerAt s (j + 1) := by
  unfold answerAt
  cases h : s.chip with
  | nil =>
    simp [h]; congr 1; omega
  | cons b r =>
    simp [h]

/-! ## An operation's step -/

theorem operate_ready {i : Instr} {r : Request} {q : Seq} {f : State → State} {s : State}
    (h : portReady s = true) : operate i r q f s = takeRequest i r q s := by
  simp [operate, h]

/-- What it is for the port to be ready. -/
theorem portReady_iff {s : State} : portReady s = true ↔
    s.busy = false ∧ isQuiescent s.seq = false ∧ s.readFault = none := by
  simp [portReady, and_assoc]

theorem portReady_busy {s : State} (h : s.busy = true) : portReady s = false := by
  simp [portReady, h]

theorem operate_flight {i : Instr} {r : Request} {q : Seq} {f : State → State} {s : State}
    (hb : s.busy = true) (hr : s.req = some r) : operate i r q f s = f s := by
  simp [operate, portReady_busy hb, hb, hr]

theorem operate_waits {i : Instr} {r : Request} {q : Seq} {f : State → State} {s : State}
    (h : portReady s = false) (hr : s.req ≠ some r) : operate i r q f s = s := by
  simp [operate, h, hr]

/-- Everything an operation's step can do. -/
theorem operate_cases (i : Instr) (r : Request) (q : Seq) (f : State → State) (s : State) :
    (portReady s = true ∧ operate i r q f s = accept r q s ∧ valueRefusal i = none) ∨
    (portReady s = true ∧ ∃ why, operate i r q f s = raiseRefused why s ∧
      valueRefusal i = some why) ∨
    (s.busy = true ∧ s.req = some r ∧ operate i r q f s = f s) ∨
    operate i r q f s = s := by
  by_cases h : portReady s = true
  · rw [operate_ready h]
    unfold takeRequest
    cases hv : valueRefusal i with
    | none => exact .inl ⟨h, rfl, rfl⟩
    | some why => exact .inr (.inl ⟨h, why, rfl, rfl⟩)
  · by_cases hb : s.busy = true
    · by_cases hr : s.req = some r
      · exact .inr (.inr (.inl ⟨hb, hr, operate_flight hb hr⟩))
      · exact .inr (.inr (.inr (operate_waits (by simpa using h) hr)))
    · refine .inr (.inr (.inr ?_))
      simp [operate, h, hb]

/-! ## Each meaning with its operation in flight -/

theorem execEncode_flight {op : Byte} {args : List Byte} {q : Seq} {s : State}
    (h : InFlight (encodeWord op args) q s) :
    exec (.encode op args) s = .next (advanceEncode op args s) :=
  congrArg _ (operate_flight h.1 h.2.1)

theorem execReadResponse_flight {len : Byte} {q : Seq} {s : State}
    (h : InFlight (readResponseWord len) q s) :
    exec (.readResponse len) s = .next (advanceReadResponse len s) :=
  congrArg _ (operate_flight h.1 h.2.1)

theorem execDecodeAck_flight {q : Seq} {s : State} (h : InFlight decodeAckWord q s) :
    exec .decodeAck s = .next (advanceDecodeAck s) :=
  congrArg _ (operate_flight h.1 h.2.1)

theorem execWaitReady_flight {t : Timeout} {q : Seq} {s : State}
    (h : InFlight (waitReadyWord t) q s) :
    exec (.waitReady t) s = .next (advanceWaitReady t s) :=
  congrArg _ (operate_flight h.1 h.2.1)

theorem execSendCommandAndAck_flight {op : Byte} {args : List Byte} {t : Timeout} {q : Seq}
    {s : State} (h : InFlight (sendCommandAndAckWord op args t) q s) :
    exec (.sendCommandAndAck op args t) s = .next (advanceHandshake op args t s) :=
  congrArg _ (operate_flight h.1 h.2.1)

theorem execCheckFrame_flight {q : Seq} {s : State} (h : InFlight checkFrameWord q s) :
    exec .checkFrame s = .next (advanceCheckFrame s) :=
  congrArg _ (operate_flight h.1 h.2.1)

theorem execCheckResponse_flight {code : Byte} {status : Bool} {q : Seq} {s : State}
    (h : InFlight (checkResponseWord code status) q s) :
    exec (.checkResponse code status) s = .next (advanceCheckResponse code status s) :=
  congrArg _ (operate_flight h.1 h.2.1)

/-! ## The PN532 commands -/

/-- A command is the acceptance step of its handshake, with its other requests put before the host's
program; while the port is not ready it waits. -/
theorem carry_cases (op : Byte) (args : List Byte) (t : Option Timeout) (len : Byte)
    (check : Option (Byte × Bool)) (s : State) :
    (portReady s = true ∧ argsFit args = true ∧
      carry op args t len check s =
        accept (sendCommandAndAckWord op args (timeoutOrDefault t)) (.handshake (.send .select))
          { s with host := continueWith (responseRequests len check) s.host }) ∨
    (portReady s = true ∧ argsFit args = false ∧
      carry op args t len check s = raiseRefused .payloadTooLong
          { s with host := continueWith (responseRequests len check) s.host }) ∨
    (portReady s = false ∧ carry op args t len check s = s) := by
  unfold carry
  by_cases h : portReady s = true
  · have h' : portReady { s with host := continueWith (responseRequests len check) s.host } = true := h
    rw [if_pos h, sendCommandAndAckState, operate_ready h']
    cases ha : argsFit args with
    | true => exact .inl ⟨h, rfl, by simp [takeRequest, valueRefusal, ha]⟩
    | false => exact .inr (.inl ⟨h, rfl, by simp [takeRequest, valueRefusal, ha]⟩)
  · rw [if_neg h]; exact .inr (.inr ⟨by simpa using h, rfl⟩)

/-! ## The work of a step -/

/-- One step while the reset line's schedule is empty is one step of the block. -/
theorem nextWork_empty {s : State} (h : s.resetIn = []) : nextWork s = blockWork s := by
  simp [nextWork, h]

theorem nextWork_deasserted {s : State} {later : List Bool} (h : s.resetIn = false :: later) :
    nextWork s = blockWork { s with resetIn := later } := by
  simp [nextWork, h]

theorem step_reset {s : State} {later : List Bool} (h : s.resetIn = true :: later) :
    step s = .next (applyReset { s with resetIn := later }) := by
  simp [step, nextWork, h]

/-- An operation in flight: the step is `exec` of what the latched request spells. -/
theorem step_latched {s : State} {r : Request} {i : Instr} (hn : s.resetIn = [])
    (hb : s.busy = true) (hq : isQuiescent s.seq = false) (hr : s.req = some r)
    (hd : decodeRequest r = .ok i) : step s = exec i s := by
  simp [step, nextWork_empty hn, blockWork, hb, latchedWork, hq, hr, hd]

/-- The host issues: the step is `exec` of what the action spells, the action taken. -/
theorem step_issued {s : State} {c : Coded} {rest : List (List HostAction)} {i : Instr}
    (hn : s.resetIn = []) (hp : portReady s = true)
    (ha : nextAction s.host = some (.issue c, rest)) (hd : decode c = .ok i) :
    step s = exec i { s with host := rest } := by
  have hb : s.busy = false := by
    cases h : s.busy with
    | false => rfl
    | true => rw [portReady_busy h] at hp; cases hp
  simp [step, nextWork_empty hn, blockWork, hb, hostWork, ha, hp, issueWork, hd]

/-- The next action stands after the programs that have ended. -/
theorem nextAction_ended (k : Nat) (a : HostAction) (cur : List HostAction)
    (later : List (List HostAction)) :
    nextAction (List.replicate k [] ++ (a :: cur) :: later) = some (a, cur :: later) := by
  induction k with
  | zero => rfl
  | succ k ih => exact ih

/-- Nothing is left to do when every program has ended. -/
theorem nextAction_none {h : List (List HostAction)} (e : ∀ p ∈ h, p = []) : nextAction h = none := by
  induction h with
  | nil => rfl
  | cons p h ih =>
    rw [e p List.mem_cons_self]
    exact ih fun q hq => e q (List.mem_cons_of_mem _ hq)

/-- A step while reset is not asserted is one step of the block, the reset line's value taken. -/
theorem step_unasserted {s : State} (h : s.resetIn.head? ≠ some true) :
    step s = match blockWork { s with resetIn := s.resetIn.tail } with
      | .run i t => exec i t
      | .settled o => o := by
  obtain ⟨later, hl⟩ | hl : (∃ later, s.resetIn = false :: later) ∨ s.resetIn = [] := by
    match e : s.resetIn with
    | [] => exact .inr rfl
    | false :: later => exact .inl ⟨later, rfl⟩
    | true :: later => rw [e] at h; exact absurd rfl h
  · rw [hl]
    exact congrArg (fun w : Work => match w with
      | .run i t => exec i t
      | .settled o => o) (nextWork_deasserted hl)
  · rw [show s.resetIn.tail = s.resetIn by simp [hl]]
    exact congrArg (fun w : Work => match w with
      | .run i t => exec i t
      | .settled o => o) (nextWork_empty hl)

/-- The work of the block, case by case. -/
theorem blockWork_cases (s : State) :
    (blockWork s = .settled (.next s)) ∨
    (∃ r rest, s.busy = false ∧ nextAction s.host = some (.read r, rest) ∧
      blockWork s = .settled (.next (hostRead r { s with host := rest }))) ∨
    (∃ why r rest, portReady s = true ∧ nextAction s.host = some (issue r, rest) ∧
      decodeRequest r = .error why ∧
      blockWork s = .settled (.next (raiseRefused why { s with host := rest }))) ∨
    (∃ c i rest, portReady s = true ∧ nextAction s.host = some (.issue c, rest) ∧
      decode c = .ok i ∧ blockWork s = .run i { s with host := rest }) ∨
    (∃ r i, s.busy = true ∧ isQuiescent s.seq = false ∧ s.req = some r ∧
      decodeRequest r = .ok i ∧ blockWork s = .run i s) ∨
    (∃ f, blockWork s = .settled (.fault f)) ∨
    (∃ f, blockWork s = .settled (.refused f)) := by
  have quiet : quiescentWork s = .settled (.next s) ∨
      (∃ f, quiescentWork s = .settled (.fault f)) ∨
      (∃ f, quiescentWork s = .settled (.refused f)) := by
    unfold quiescentWork
    split
    · exact .inl rfl
    · split
      · exact .inr (.inl ⟨_, rfl⟩)
      · exact .inr (.inr ⟨_, rfl⟩)
      · split
        · exact .inr (.inl ⟨_, rfl⟩)
        · exact .inl rfl
  unfold blockWork
  by_cases hb : s.busy = true
  · rw [if_pos hb]
    unfold latchedWork
    by_cases hq : isQuiescent s.seq = true
    · rw [if_pos hq]
      rcases quiet with h | h | h
      · exact .inl h
      · exact .inr (.inr (.inr (.inr (.inr (.inl h)))))
      · exact .inr (.inr (.inr (.inr (.inr (.inr h)))))
    · rw [if_neg hq]
      cases hr : s.req with
      | none => exact .inl rfl
      | some r =>
        cases hd : decodeRequest r with
        | error why => exact .inl (by simp [hd])
        | ok i =>
          exact .inr (.inr (.inr (.inr (.inl ⟨r, i, hb, by simpa using hq, rfl, hd, by simp [hd]⟩))))
  · rw [if_neg hb]
    have hb' : s.busy = false := by simpa using hb
    unfold hostWork
    cases ha : nextAction s.host with
    | none =>
      simp only []
      split
      · exact .inl rfl
      · rcases quiet with h | h | h
        · exact .inl h
        · exact .inr (.inr (.inr (.inr (.inr (.inl h)))))
        · exact .inr (.inr (.inr (.inr (.inr (.inr h)))))
    | some p =>
      obtain ⟨a, rest⟩ := p
      cases a with
      | read r => exact .inr (.inl ⟨r, rest, hb', rfl, rfl⟩)
      | issue c =>
        simp only []
        split
        · rename_i hp
          unfold issueWork
          cases hd : decode c with
          | ok i => exact .inr (.inr (.inr (.inl ⟨c, i, rest, hp, rfl, hd, rfl⟩)))
          | error e =>
            cases e with
            | command why => exact .inr (.inr (.inr (.inr (.inr (.inr ⟨_, rfl⟩)))))
            | request why =>
              cases c with
              | request r =>
                refine .inr (.inr (.inl ⟨why, r, rest, hp, rfl, ?_, rfl⟩))
                simp only [decode] at hd
                split at hd <;> simp_all
              | command code ops =>
                simp only [decode] at hd
                split at hd <;> simp_all
        · rcases quiet with h | h | h
          · exact .inl h
          · exact .inr (.inr (.inr (.inr (.inr (.inl h)))))
          · exact .inr (.inr (.inr (.inr (.inr (.inr h)))))

/-- Everything a step that has a next state can do, `s₀` being `s` with the reset line's value for this
step taken: reset, nothing, a host read, a refusal at acceptance, or one step of an instruction. -/
theorem step_cases {s u : State} (h : step s = .next u) :
    (∃ later, s.resetIn = true :: later ∧ u = applyReset { s with resetIn := later }) ∨
    (∃ later, (s.resetIn = false :: later ∨ (s.resetIn = [] ∧ later = [])) ∧
      ∃ s₀, s₀ = { s with resetIn := later } ∧
      (u = s₀ ∨
        (∃ r rest, s.busy = false ∧ u = hostRead r { s₀ with host := rest }) ∨
        (∃ why rest, portReady s = true ∧ u = raiseRefused why { s₀ with host := rest }) ∨
        (∃ i rest, portReady s = true ∧ exec i { s₀ with host := rest } = .next u) ∨
        (∃ r i, s.busy = true ∧ isQuiescent s.seq = false ∧ s.req = some r ∧
          decodeRequest r = .ok i ∧ exec i s₀ = .next u))) := by
  have main : ∀ s₀ : State, (match blockWork s₀ with
        | .run i t => exec i t
        | .settled o => o) = .next u →
      (u = s₀ ∨
        (∃ r rest, s₀.busy = false ∧ u = hostRead r { s₀ with host := rest }) ∨
        (∃ why rest, portReady s₀ = true ∧ u = raiseRefused why { s₀ with host := rest }) ∨
        (∃ i rest, portReady s₀ = true ∧ exec i { s₀ with host := rest } = .next u) ∨
        (∃ r i, s₀.busy = true ∧ isQuiescent s₀.seq = false ∧ s₀.req = some r ∧
          decodeRequest r = .ok i ∧ exec i s₀ = .next u)) := by
    intro s₀ h
    rcases blockWork_cases s₀ with e | ⟨r, rest, hb, -, e⟩ | ⟨why, r, rest, hp, -, -, e⟩ |
      ⟨c, i, rest, hp, -, -, e⟩ | ⟨r, i, hb, hq, hr, hd, e⟩ | ⟨f, e⟩ | ⟨f, e⟩ <;> rw [e] at h
    · simp only [Host.Outcome.next.injEq] at h; exact .inl h.symm
    · simp only [Host.Outcome.next.injEq] at h; exact .inr (.inl ⟨r, rest, hb, h.symm⟩)
    · simp only [Host.Outcome.next.injEq] at h; exact .inr (.inr (.inl ⟨why, rest, hp, h.symm⟩))
    · exact .inr (.inr (.inr (.inl ⟨i, rest, hp, h⟩)))
    · exact .inr (.inr (.inr (.inr ⟨r, i, hb, hq, hr, hd, h⟩)))
    · cases h
    · cases h
  cases hn : s.resetIn with
  | nil =>
    refine .inr ⟨[], .inr ⟨rfl, rfl⟩, { s with resetIn := [] }, rfl, ?_⟩
    rw [step, nextWork_empty hn] at h
    have e : ({ s with resetIn := [] } : State) = s := by cases s; simp_all
    rw [e]; exact main s h
  | cons b later =>
    cases b with
    | true =>
      rw [step_reset hn] at h
      simp only [Host.Outcome.next.injEq] at h
      exact .inl ⟨later, rfl, h.symm⟩
    | false =>
      refine .inr ⟨later, .inl rfl, { s with resetIn := later }, rfl, ?_⟩
      rw [step, nextWork_deasserted hn] at h
      exact main _ h

/-! ## Runs -/

theorem reaches_refl (s : State) : Reaches s s := ⟨0, rfl⟩

/-- One step, then a run. -/
theorem reaches_head {s t u : State} (h : step s = .next t) (r : Reaches t u) : Reaches s u := by
  obtain ⟨n, hn⟩ := r
  refine ⟨n + 1, ?_⟩
  have h' : Sys2Proof.core.step s = .next t := h
  simp only [Host.Core.run, h']
  exact hn

theorem reaches_trans {s t u : State} (h : Reaches s t) (r : Reaches t u) : Reaches s u := by
  obtain ⟨n, hn⟩ := h
  induction n generalizing s with
  | zero =>
    have : s = t := Host.Outcome.next.inj hn
    exact this ▸ r
  | succ n ih =>
    simp only [Host.Core.run] at hn
    split at hn
    · exact reaches_head ‹_› (ih hn)
    · cases hn
    · cases hn

end Sys2Proof.Machine
end

