-- ==== Sys2Proof/Laws/Flight.lean ====
section
/-!
SUPPORT. What one step of an operation in flight can do, said once: a register write that belongs to
the point the sequencer stands at, then one primitive, `finish` or fault. Every rule of the whole
machine is derived from it.
-/

namespace Sys2Proof.Machine

/-- The register writes between two primitives (R14), each with the points of the sequencer at which
it is made. -/
inductive RegWrite (s : State) : State → Prop
  | none : RegWrite s s
  | clear (h : s.seq = .readResponse .select ∨ s.seq = .handshake (.readAck .select)) :
      RegWrite s (clearRx s)
  | store (k : Nat) (b : Byte)
      (h : s.seq = .readResponse (.got k b) ∨ s.seq = .handshake (.readAck (.got k b))) :
      RegWrite s (storeRx k b s)
  | startWait (h : startsWait s.seq = true) :
      RegWrite s { s with elapsed := 0, poll := .polling }
  | ready (b : Byte) (hb : isReady b = true)
      (h : s.seq = .waitReady (.judge b) ∨ s.seq = .handshake (.waitResponse (.judge b))) :
      RegWrite s { s with poll := .ready }
  | readyClear (b : Byte) (hb : isReady b = true) (h : s.seq = .handshake (.waitAck (.judge b))) :
      RegWrite s (clearRx { s with poll := .ready })
  | slept (h : s.seq = .waitReady .slept ∨ s.seq = .handshake (.waitAck .slept) ∨
        s.seq = .handshake (.waitResponse .slept)) :
      RegWrite s { s with elapsed := addInterval s.elapsed }
  | timedOut (h : s.seq = .waitReady .slept ∨ s.seq = .handshake (.waitAck .slept) ∨
        s.seq = .handshake (.waitResponse .slept)) :
      RegWrite s { s with elapsed := addInterval s.elapsed, poll := .timedOut }

/-- One primitive, `finish` or fault, with the sequencer's next point. -/
inductive Act (s : State) : State → Prop
  | cs (b : Bool) (q : Seq) (hq : q ≠ .idle) (hn : isQuiescent q = false) : Act s (goto q (csPrim b s))
  | xfer (o : Byte) (q : Seq) (hq : q ≠ .idle) (hn : isQuiescent q = false)
      (hs : selects q = true) : Act s (goto q (xferPrim o s))
  | sleep (n : Nat) (q : Seq) (hq : q ≠ .idle) (hn : isQuiescent q = false) :
      Act s (goto q (sleepPrim n s))
  | finish (c : ResultCode) (v : Byte) (hc : isProduced c = true) : Act s (finish c v s)
  | fault (w : ReadRef) : Act s (raiseFault w s)

/-- One step of an operation in flight. -/
def FlightStep (s u : State) : Prop := ∃ s₀, RegWrite s s₀ ∧ Act s₀ u

/-- Everything a step of a frame transmission can do. -/
theorem sendBody_cases (f : List Byte) (p : SendPos) (s : State) :
    (∃ p' b, sendBody f p s = .more p' (csPrim b s)) ∨
    (∃ p' o, sendSelects p' = true ∧ sendBody f p s = .more p' (xferPrim o s)) ∨
    (p = .sent ∧ sendBody f p s = .ended s) := by
  have byte : ∀ k, (∃ p' b, sendByte f k s = .more p' (csPrim b s)) ∨
      (∃ p' o, sendSelects p' = true ∧ sendByte f k s = .more p' (xferPrim o s)) := by
    intro k
    unfold sendByte
    split
    · exact .inr ⟨_, _, rfl, rfl⟩
    · exact .inl ⟨_, _, rfl⟩
  cases p with
  | select => exact .inl ⟨_, _, rfl⟩
  | lead =>
    simp only [sendBody]
    split
    · exact .inr (.inl ⟨_, _, rfl, rfl⟩)
    · rcases byte 0 with h | h
      · exact .inl h
      · exact .inr (.inl h)
  | byte k =>
    rcases byte k with h | h
    · exact .inl h
    · exact .inr (.inl h)
  | sent => exact .inr (.inr ⟨rfl, rfl⟩)

/-- Everything a step of a response read can do. -/
theorem readBody_cases (len : Nat) (p : ReadPos) (s : State) :
    (p = .select ∧ readBody len p s = .more .settle (readStart s)) ∨
    (∃ s₀, (s₀ = s ∨ ∃ k b, p = .got k b ∧ s₀ = storeRx k b s) ∧
      ((∃ p' n, readBody len p s = .more p' (sleepPrim n s₀)) ∨
        (∃ p' o, readSelects p' = true ∧ readBody len p s = .more p' (xferPrim o s₀)) ∨
        (∃ p', readBody len p s = .more p' (csPrim false s₀)))) ∨
    (p = .done ∧ readBody len p s = .ended s) := by
  have loop : ∀ k j s₀, (∃ p' n, readLoop len k j s₀ = .more p' (sleepPrim n s₀)) ∨
      (∃ p' o, readSelects p' = true ∧ readLoop len k j s₀ = .more p' (xferPrim o s₀)) ∨
      (∃ p', readLoop len k j s₀ = .more p' (csPrim false s₀)) := by
    intro k j s₀
    unfold readLoop
    split
    · split
      · exact .inl ⟨_, _, rfl⟩
      · exact .inr (.inl ⟨_, _, rfl, rfl⟩)
    · exact .inr (.inr ⟨_, rfl⟩)
  cases p with
  | select => exact .inl ⟨rfl, rfl⟩
  | settle => exact .inr (.inl ⟨s, .inl rfl, .inl ⟨_, _, rfl⟩⟩)
  | lead =>
    simp only [readBody]
    split
    · exact .inr (.inl ⟨s, .inl rfl, .inr (.inl ⟨_, _, rfl, rfl⟩)⟩)
    · exact .inr (.inl ⟨s, .inl rfl, loop _ _ _⟩)
  | led => exact .inr (.inl ⟨s, .inl rfl, loop _ _ _⟩)
  | byte k => exact .inr (.inl ⟨s, .inl rfl, .inr (.inl ⟨_, _, rfl, rfl⟩)⟩)
  | got k b => exact .inr (.inl ⟨_, .inr ⟨k, b, rfl, rfl⟩, loop _ _ _⟩)
  | done => exact .inr (.inr ⟨rfl, rfl⟩)

/-- Everything a step of a wait can do. -/
theorem waitBody_cases (t : Timeout) (p : WaitPos) (s : State) :
    (p = .first ∧ waitBody t p s = .more .command (waitStart s)) ∨
    (∃ p' o, waitSelects p' = true ∧ waitBody t p s = .more p' (xferPrim o s)) ∨
    (∃ p', waitBody t p s = .more p' (csPrim false s)) ∨
    (∃ p' n, waitBody t p s = .more p' (sleepPrim n s)) ∨
    (∃ b, isReady b = true ∧ p = .judge b ∧ waitBody t p s = .ended .ok { s with poll := .ready }) ∨
    (p = .slept ∧ waitBody t p s =
      .ended .transportTimeout { s with elapsed := addInterval s.elapsed, poll := .timedOut }) ∨
    (p = .slept ∧ waitBody t p s =
      .more .command (csPrim true { s with elapsed := addInterval s.elapsed })) := by
  cases p with
  | first => exact .inl ⟨rfl, rfl⟩
  | command => exact .inr (.inl ⟨_, _, rfl, rfl⟩)
  | status => exact .inr (.inl ⟨_, _, rfl, rfl⟩)
  | release b => exact .inr (.inr (.inl ⟨_, rfl⟩))
  | judge b =>
    simp only [waitBody]
    split
    · exact .inr (.inr (.inr (.inr (.inl ⟨b, ‹_›, rfl, rfl⟩))))
    · exact .inr (.inr (.inr (.inl ⟨_, _, rfl⟩)))
  | slept =>
    simp only [waitBody]
    split
    · exact .inr (.inr (.inr (.inr (.inr (.inl ⟨trivial, rfl⟩)))))
    · exact .inr (.inr (.inr (.inr (.inr (.inr ⟨trivial, rfl⟩)))))

theorem advanceEncode_flight (op : Byte) (args : List Byte) {s : State} {p : SendPos}
    (hs : s.seq = .encode p) : FlightStep s (advanceEncode op args s) := by
  unfold advanceEncode
  rw [hs]
  simp only []
  rcases sendBody_cases (encodeFrame op args) p s with ⟨p', b, h⟩ | ⟨p', o, hx, h⟩ | ⟨-, h⟩ <;>
    simp only [h]
  · exact ⟨s, .none, .cs _ _ (by simp) rfl⟩
  · exact ⟨s, .none, .xfer _ _ (by simp) rfl hx⟩
  · exact ⟨s, .none, .finish _ _ rfl⟩

theorem advanceEncode_cases (op : Byte) (args : List Byte) (s : State) :
    advanceEncode op args s = s ∨ FlightStep s (advanceEncode op args s) := by
  by_cases h : ∃ p, s.seq = .encode p
  · exact .inr (advanceEncode_flight op args h.choose_spec)
  · refine .inl ?_
    unfold advanceEncode
    cases hs : s.seq <;> first | rfl | exact absurd ⟨_, hs⟩ h

theorem advanceReadResponse_flight (len : Byte) {s : State} {p : ReadPos}
    (hs : s.seq = .readResponse p) : FlightStep s (advanceReadResponse len s) := by
  unfold advanceReadResponse
  rw [hs]
  simp only []
  rcases readBody_cases len.toNat p s with ⟨hp, h⟩ | ⟨s₀, hs₀, h⟩ | ⟨-, h⟩
  · simp only [h]
    exact ⟨clearRx s, .clear (.inl (by rw [hs, hp])), .cs _ _ (by simp) rfl⟩
  · have hw : RegWrite s s₀ := by
      rcases hs₀ with rfl | ⟨k, b, hp, rfl⟩
      · exact .none
      · exact .store k b (.inl (by rw [hs, hp]))
    rcases h with ⟨p', n, h⟩ | ⟨p', o, hx, h⟩ | ⟨p', h⟩ <;> simp only [h]
    · exact ⟨s₀, hw, .sleep _ _ (by simp) rfl⟩
    · exact ⟨s₀, hw, .xfer _ _ (by simp) rfl hx⟩
    · exact ⟨s₀, hw, .cs _ _ (by simp) rfl⟩
  · simp only [h]
    exact ⟨s, .none, .finish _ _ rfl⟩

theorem advanceReadResponse_cases (len : Byte) (s : State) :
    advanceReadResponse len s = s ∨ FlightStep s (advanceReadResponse len s) := by
  by_cases h : ∃ p, s.seq = .readResponse p
  · exact .inr (advanceReadResponse_flight len h.choose_spec)
  · refine .inl ?_
    unfold advanceReadResponse
    cases hs : s.seq <;> first | rfl | exact absurd ⟨_, hs⟩ h

theorem advanceDecodeAck_flight {s : State} (hs : s.seq = .decodeAck) :
    FlightStep s (advanceDecodeAck s) := by
  unfold advanceDecodeAck decodeAckStep
  rw [hs]
  refine ⟨s, .none, ?_⟩
  simp only []
  split
  · exact .fault _
  · split
    · exact .fault _
    · split
      · exact .finish _ _ rfl
      · exact .finish _ _ rfl

theorem advanceDecodeAck_cases (s : State) :
    advanceDecodeAck s = s ∨ FlightStep s (advanceDecodeAck s) := by
  by_cases h : s.seq = .decodeAck
  · exact .inr (advanceDecodeAck_flight h)
  · refine .inl ?_
    unfold advanceDecodeAck
    cases hs : s.seq <;> first | rfl | exact absurd hs h

theorem advanceWaitReady_flight (t : Timeout) {s : State} {p : WaitPos}
    (hs : s.seq = .waitReady p) : FlightStep s (advanceWaitReady t s) := by
  unfold advanceWaitReady
  rw [hs]
  simp only []
  rcases waitBody_cases t p s with ⟨hp, h⟩ | ⟨p', o, hx, h⟩ | ⟨p', h⟩ | ⟨p', n, h⟩ | ⟨b, hb, hp, h⟩ |
    ⟨hp, h⟩ | ⟨hp, h⟩ <;> simp only [h]
  · exact ⟨_, .startWait (by rw [hs, hp]; rfl), .cs _ _ (by simp) rfl⟩
  · exact ⟨s, .none, .xfer _ _ (by simp) rfl hx⟩
  · exact ⟨s, .none, .cs _ _ (by simp) rfl⟩
  · exact ⟨s, .none, .sleep _ _ (by simp) rfl⟩
  · exact ⟨_, .ready b hb (.inl (by rw [hs, hp])), .finish _ _ rfl⟩
  · exact ⟨_, .timedOut (.inl (by rw [hs, hp])), .finish _ _ rfl⟩
  · exact ⟨_, .slept (.inl (by rw [hs, hp])), .cs _ _ (by simp) rfl⟩

theorem advanceWaitReady_cases (t : Timeout) (s : State) :
    advanceWaitReady t s = s ∨ FlightStep s (advanceWaitReady t s) := by
  by_cases h : ∃ p, s.seq = .waitReady p
  · exact .inr (advanceWaitReady_flight t h.choose_spec)
  · refine .inl ?_
    unfold advanceWaitReady
    cases hs : s.seq <;> first | rfl | exact absurd ⟨_, hs⟩ h

theorem handshakeWait_act (pos : WaitPos → HandshakePos) {s : State}
    (hs : startsWait s.seq = true) : FlightStep s (handshakeWait pos s) :=
  ⟨_, .startWait hs, .cs _ _ (by simp) rfl⟩

theorem advanceHandshake_flight (op : Byte) (args : List Byte) (t : Timeout) {s : State}
    {p : HandshakePos} (hs : s.seq = .handshake p) : FlightStep s (advanceHandshake op args t s) := by
  unfold advanceHandshake
  rw [hs]
  cases p with
  | send p =>
    rcases sendBody_cases (encodeFrame op args) p s with ⟨p', b, h⟩ | ⟨p', o, hx, h⟩ | ⟨hp, h⟩ <;>
      simp only [h]
    · exact ⟨s, .none, .cs _ _ (by simp) rfl⟩
    · exact ⟨s, .none, .xfer _ _ (by simp) rfl hx⟩
    · exact handshakeWait_act _ (by rw [hs, hp]; rfl)
  | waitAck p =>
    rcases waitBody_cases t p s with ⟨hp, h⟩ | ⟨p', o, hx, h⟩ | ⟨p', h⟩ | ⟨p', n, h⟩ | ⟨b, hb, hp, h⟩ |
      ⟨hp, h⟩ | ⟨hp, h⟩ <;> simp only [h]
    · exact ⟨_, .startWait (by rw [hs, hp]; rfl), .cs _ _ (by simp) rfl⟩
    · exact ⟨s, .none, .xfer _ _ (by simp) rfl hx⟩
    · exact ⟨s, .none, .cs _ _ (by simp) rfl⟩
    · exact ⟨s, .none, .sleep _ _ (by simp) rfl⟩
    · exact ⟨_, .readyClear b hb (by rw [hs, hp]), .cs _ _ (by simp) rfl⟩
    · exact ⟨_, .timedOut (.inr (.inl (by rw [hs, hp]))), .finish _ _ rfl⟩
    · exact ⟨_, .slept (.inr (.inl (by rw [hs, hp]))), .cs _ _ (by simp) rfl⟩
  | readAck p =>
    rcases readBody_cases ackConst.length p s with ⟨hp, h⟩ | ⟨s₀, hs₀, h⟩ | ⟨hp, h⟩
    · simp only [h]
      exact ⟨clearRx s, .clear (.inr (by rw [hs, hp])), .cs _ _ (by simp) rfl⟩
    · have hw : RegWrite s s₀ := by
        rcases hs₀ with rfl | ⟨k, b, hp, rfl⟩
        · exact .none
        · exact .store k b (.inr (by rw [hs, hp]))
      rcases h with ⟨p', n, h⟩ | ⟨p', o, hx, h⟩ | ⟨p', h⟩ <;> simp only [h]
      · exact ⟨s₀, hw, .sleep _ _ (by simp) rfl⟩
      · exact ⟨s₀, hw, .xfer _ _ (by simp) rfl hx⟩
      · exact ⟨s₀, hw, .cs _ _ (by simp) rfl⟩
    · simp only [h]
      unfold handshakeAck
      split
      · exact ⟨s, .none, .fault _⟩
      · split
        · exact handshakeWait_act _ (by rw [hs, hp]; rfl)
        · exact ⟨s, .none, .finish _ _ rfl⟩
  | waitResponse p =>
    rcases waitBody_cases t p s with ⟨hp, h⟩ | ⟨p', o, hx, h⟩ | ⟨p', h⟩ | ⟨p', n, h⟩ | ⟨b, hb, hp, h⟩ |
      ⟨hp, h⟩ | ⟨hp, h⟩ <;> simp only [h]
    · exact ⟨_, .startWait (by rw [hs, hp]; rfl), .cs _ _ (by simp) rfl⟩
    · exact ⟨s, .none, .xfer _ _ (by simp) rfl hx⟩
    · exact ⟨s, .none, .cs _ _ (by simp) rfl⟩
    · exact ⟨s, .none, .sleep _ _ (by simp) rfl⟩
    · exact ⟨_, .ready b hb (.inr (by rw [hs, hp])), .finish _ _ rfl⟩
    · exact ⟨_, .timedOut (.inr (.inr (by rw [hs, hp]))), .finish _ _ rfl⟩
    · exact ⟨_, .slept (.inr (.inr (by rw [hs, hp]))), .cs _ _ (by simp) rfl⟩

theorem advanceHandshake_cases (op : Byte) (args : List Byte) (t : Timeout) (s : State) :
    advanceHandshake op args t s = s ∨ FlightStep s (advanceHandshake op args t s) := by
  by_cases h : ∃ p, s.seq = .handshake p
  · exact .inr (advanceHandshake_flight op args t h.choose_spec)
  · refine .inl ?_
    unfold advanceHandshake
    cases hs : s.seq <;> first | rfl | exact absurd ⟨_, hs⟩ h

theorem advanceCheckFrame_flight {s : State} (hs : s.seq = .checkFrame) :
    FlightStep s (advanceCheckFrame s) := by
  unfold advanceCheckFrame checkFrameStep
  rw [hs]
  refine ⟨s, .none, ?_⟩
  simp only []
  split
  · exact .fault _
  · exact .finish _ _ rfl

theorem advanceCheckFrame_cases (s : State) :
    advanceCheckFrame s = s ∨ FlightStep s (advanceCheckFrame s) := by
  by_cases h : s.seq = .checkFrame
  · exact .inr (advanceCheckFrame_flight h)
  · refine .inl ?_
    unfold advanceCheckFrame
    cases hs : s.seq <;> first | rfl | exact absurd hs h

theorem advanceCheckResponse_flight (code : Byte) (status : Bool) {s : State} (hs : s.seq = .checkResponse) :
    FlightStep s (advanceCheckResponse code status s) := by
  unfold advanceCheckResponse checkResponseStep
  rw [hs]
  refine ⟨s, .none, ?_⟩
  simp only []
  repeat' split
  all_goals first | exact .fault _ | exact .finish _ _ rfl

theorem advanceCheckResponse_cases (code : Byte) (status : Bool) (s : State) :
    advanceCheckResponse code status s = s ∨ FlightStep s (advanceCheckResponse code status s) := by
  by_cases h : s.seq = .checkResponse
  · exact .inr (advanceCheckResponse_flight code status h)
  · refine .inl ?_
    unfold advanceCheckResponse
    cases hs : s.seq <;> first | rfl | exact absurd hs h

/-- Everything a step of an instruction can do: wait, be accepted, be refused, or advance in flight. -/
theorem exec_cases {i : Instr} {s u : State} (h : exec i s = .next u) :
    u = s ∨
    (portReady s = true ∧ ∃ r q hs, q ≠ .idle ∧ isQuiescent q = false ∧ selects q = false ∧
      (isOperation i = true → hs = s.host) ∧ u = accept r q { s with host := hs }) ∨
    (portReady s = true ∧ ∃ why hs, (isOperation i = true → hs = s.host) ∧
      u = raiseRefused why { s with host := hs }) ∨
    (s.busy = true ∧ (∃ r, encode i = .request r ∧ s.req = some r) ∧ FlightStep s u) := by
  have op : ∀ (j : Instr) (r : Request) (q : Seq) (f : State → State), q ≠ .idle →
      isQuiescent q = false → selects q = false → encode i = .request r →
      (f s = s ∨ FlightStep s (f s)) →
      exec i s = .next (operate j r q f s) →
      u = s ∨
      (portReady s = true ∧ ∃ r q hs, q ≠ .idle ∧ isQuiescent q = false ∧ selects q = false ∧
        (isOperation i = true → hs = s.host) ∧ u = accept r q { s with host := hs }) ∨
      (portReady s = true ∧ ∃ why hs, (isOperation i = true → hs = s.host) ∧
        u = raiseRefused why { s with host := hs }) ∨
      (s.busy = true ∧ (∃ r, encode i = .request r ∧ s.req = some r) ∧ FlightStep s u) := by
    intro j r q f h1 h2 h3 h4 h5 h6
    rw [h6] at h
    simp only [Host.Outcome.next.injEq] at h
    subst h
    rcases operate_cases j r q f s with ⟨hp, e, -⟩ | ⟨hp, why, e, -⟩ | ⟨hb, hr, e⟩ | e <;> rw [e]
    · exact .inr (.inl ⟨hp, r, q, s.host, h1, h2, h3, fun _ => rfl, rfl⟩)
    · exact .inr (.inr (.inl ⟨hp, why, s.host, fun _ => rfl, rfl⟩))
    · rcases h5 with e' | e'
      · exact .inl e'
      · exact .inr (.inr (.inr ⟨hb, ⟨r, h4, hr⟩, e'⟩))
    · exact .inl rfl
  have cmd : ∀ (o : Byte) (args : List Byte) (t : Option Timeout) (len : Byte)
      (check : Option (Byte × Bool)), isOperation i = false →
      exec i s = .next (carry o args t len check s) →
      u = s ∨
      (portReady s = true ∧ ∃ r q hs, q ≠ .idle ∧ isQuiescent q = false ∧ selects q = false ∧
        (isOperation i = true → hs = s.host) ∧ u = accept r q { s with host := hs }) ∨
      (portReady s = true ∧ ∃ why hs, (isOperation i = true → hs = s.host) ∧
        u = raiseRefused why { s with host := hs }) ∨
      (s.busy = true ∧ (∃ r, encode i = .request r ∧ s.req = some r) ∧ FlightStep s u) := by
    intro o args t len check h1 h2
    rw [h2] at h
    simp only [Host.Outcome.next.injEq] at h
    subst h
    rcases carry_cases o args t len check s with ⟨hp, -, e⟩ | ⟨hp, -, e⟩ | ⟨-, e⟩ <;> rw [e]
    · exact .inr (.inl ⟨hp, _, _, _, by simp, rfl, rfl, by simp [h1], rfl⟩)
    · exact .inr (.inr (.inl ⟨hp, _, _, by simp [h1], rfl⟩))
    · exact .inl rfl
  cases i with
  | encode o args => exact op _ _ _ _ (by simp) rfl rfl rfl (advanceEncode_cases o args s) rfl
  | readResponse len => exact op _ _ _ _ (by simp) rfl rfl rfl (advanceReadResponse_cases len s) rfl
  | decodeAck => exact op _ _ _ _ (by simp) rfl rfl rfl (advanceDecodeAck_cases s) rfl
  | waitReady t => exact op _ _ _ _ (by simp) rfl rfl rfl (advanceWaitReady_cases t s) rfl
  | sendCommandAndAck o args t =>
    exact op _ _ _ _ (by simp) rfl rfl rfl (advanceHandshake_cases o args t s) rfl
  | checkFrame => exact op _ _ _ _ (by simp) rfl rfl rfl (advanceCheckFrame_cases s) rfl
  | checkResponse code status =>
    exact op _ _ _ _ (by simp) rfl rfl rfl (advanceCheckResponse_cases code status s) rfl
  | firmwareVersion t len => exact cmd _ _ _ _ _ rfl rfl
  | samConfiguration args t len => exact cmd _ _ _ _ _ rfl rfl
  | peerJumpForDep args t len => exact cmd _ _ _ _ _ rfl rfl
  | targetInitAsTarget args t len => exact cmd _ _ _ _ _ rfl rfl
  | targetGetData args t len status => exact cmd _ _ _ _ _ rfl rfl
  | targetSetData args t len status => exact cmd _ _ _ _ _ rfl rfl
  | listPassiveTarget args t len => exact cmd _ _ _ _ _ rfl rfl
  | dataExchange args t len => exact cmd _ _ _ _ _ rfl rfl
  | mifareReadPage lead args t len => exact cmd _ _ _ _ _ rfl rfl
  | mifareWritePage lead args t len => exact cmd _ _ _ _ _ rfl rfl
  | mifareAuthKeyA lead args t len => exact cmd _ _ _ _ _ rfl rfl
  | mifareAuthKeyB lead args t len => exact cmd _ _ _ _ _ rfl rfl

/-- A host read reports a value or raises the one fault. -/
theorem hostRead_cases (r : HostReg) (s : State) :
    (∃ v, hostRead r s = { s with readOut := some v }) ∨ ∃ w, hostRead r s = raiseReadFault w s := by
  unfold hostRead
  split
  · exact .inl ⟨_, rfl⟩
  · exact .inr ⟨_, rfl⟩

/-- Everything a step that has a next state can do, in one list: reset; nothing; a host read; a refusal;
an acceptance; one step in flight. -/
theorem step_outcomes {s u : State} (h : step s = .next u) :
    (∃ later, s.resetIn = true :: later ∧ u = applyReset { s with resetIn := later }) ∨
    (∃ later host, s.resetIn.head? ≠ some true ∧
      ((∃ s₀, s₀ = { s with resetIn := later, host := host } ∧
        ((u = s₀ ∧ (s.busy = true → host = s.host)) ∨
        (∃ r, s.busy = false ∧ u = hostRead r s₀) ∨
        (∃ why, portReady s = true ∧ u = raiseRefused why s₀) ∨
        (∃ r q, portReady s = true ∧ q ≠ .idle ∧ isQuiescent q = false ∧ selects q = false ∧
          u = accept r q s₀) ∨
        (s.busy = true ∧ isQuiescent s.seq = false ∧ host = s.host ∧ FlightStep s₀ u))))) := by
  rcases step_cases h with h | ⟨later, hl, s₀, hs, h⟩
  · exact .inl h
  have hr : s.resetIn.head? ≠ some true := by rcases hl with h | h <;> simp [h]
  refine .inr ⟨later, ?_⟩
  rcases h with h | ⟨r, rest, hb, h⟩ | ⟨why, rest, hp, h⟩ | ⟨i, rest, hp, h⟩ | ⟨r, i, hb, hq, hr', hd, h⟩
  · exact ⟨s.host, hr, _, rfl, .inl ⟨by rw [h, hs], fun _ => rfl⟩⟩
  · exact ⟨rest, hr, _, rfl, .inr (.inl ⟨r, hb, by rw [h, hs]⟩)⟩
  · exact ⟨rest, hr, _, rfl, .inr (.inr (.inl ⟨why, hp, by rw [h, hs]⟩))⟩
  · have hb : s.busy = false := by
      cases hb : s.busy with
      | false => rfl
      | true => rw [portReady_busy hb] at hp; cases hp
    rcases exec_cases h with e | ⟨_, r, q, hs', h1, h2, h3, -, e⟩ | ⟨_, why, hs', -, e⟩ | ⟨hb', _⟩
    · exact ⟨rest, hr, _, rfl, .inl ⟨by rw [e, hs], by simp [hb]⟩⟩
    · exact ⟨hs', hr, _, rfl, .inr (.inr (.inr (.inl ⟨r, q, hp, h1, h2, h3, by rw [e, hs]⟩)))⟩
    · exact ⟨hs', hr, _, rfl, .inr (.inr (.inl ⟨why, hp, by rw [e, hs]⟩))⟩
    · subst hs; simp [hb] at hb'
  · rcases exec_cases h with e | ⟨hp, -⟩ | ⟨hp, -⟩ | ⟨_, _, e⟩
    · exact ⟨s.host, hr, _, rfl, .inl ⟨by rw [e, hs], fun _ => rfl⟩⟩
    · have hp' : portReady s = true := by rw [hs] at hp; exact hp
      rw [portReady_busy hb] at hp'; cases hp'
    · have hp' : portReady s = true := by rw [hs] at hp; exact hp
      rw [portReady_busy hb] at hp'; cases hp'
    · exact ⟨s.host, hr, _, rfl, .inr (.inr (.inr (.inr ⟨hb, hq, rfl, by rw [← hs]; exact e⟩)))⟩

end Sys2Proof.Machine
end

