-- ==== Sys2Proof/Laws/PerInstr.lean ====
section
/-!
SUPPORT. One fact per instruction: its encoding lies in its row of spec/opcode_table.json.
-/

namespace Sys2Proof.Laws.TableRow

/-- The row of spec/opcode_table.json of an instruction: its format's width in bits, the mask and the
value of the masked bits. -/
def row : Instr → Nat × Nat × Nat
  | .encode _ _ => (32, 0xFFFF00FF, 0x00000001)
  | .readResponse _ => (32, 0xFFFF00FF, 0x00000002)
  | .decodeAck => (32, 0xFFFFFFFF, 0x00000003)
  | .waitReady _ => (32, 0x0000FFFF, 0x00000004)
  | .sendCommandAndAck _ _ _ => (32, 0x000000FF, 0x00000005)
  | .checkFrame => (32, 0xFFFFFFFF, 0x00000006)
  | .checkResponse _ _ => (32, 0xFFFF00EF, 0x00000007)
  | .firmwareVersion _ _ => (8, 0xFF, 0x02)
  | .samConfiguration _ _ _ => (8, 0xFF, 0x14)
  | .peerJumpForDep _ _ _ => (8, 0xFF, 0x56)
  | .targetInitAsTarget _ _ _ => (8, 0xFF, 0x8C)
  | .targetGetData _ _ _ _ => (8, 0xFF, 0x86)
  | .targetSetData _ _ _ _ => (8, 0xFF, 0x8E)
  | .listPassiveTarget _ _ _ => (8, 0xFF, 0x4A)
  | .dataExchange _ _ _ => (8, 0xFF, 0x40)
  | .mifareReadPage _ _ _ _ => (8, 0xFF, 0x30)
  | .mifareWritePage _ _ _ _ => (8, 0xFF, 0xA0)
  | .mifareAuthKeyA _ _ _ _ => (8, 0xFF, 0x60)
  | .mifareAuthKeyB _ _ _ _ => (8, 0xFF, 0x61)

/-- The bits of an encoded instruction that the table numbers, with their count: the header word of a
request, the code of a PN532 command. -/
def bits : Coded → Nat × Nat
  | .request r => (32, r.header.toNat)
  | .command code _ => (8, code.toNat)

/-- The instruction's encoding has its row's width, and its masked bits are the row's. -/
def Statement (i : Instr) : Prop :=
  (bits (Sys2Proof.encode i)).1 = (row i).1 ∧ (bits (Sys2Proof.encode i)).2 &&& (row i).2.1 = (row i).2.2

/-- Masked bits of a header word, as numbers. -/
theorem toNat_fixed {h m p : Header} (e : h &&& m = p) : h.toNat &&& m.toNat = p.toNat := by
  rw [← BitVec.toNat_and, e]

theorem encode (op : Byte) (args : List Byte) :
    Statement (.encode op args) :=
  ⟨rfl, toNat_fixed (encodeWord_fixed op)⟩

theorem readResponse (len : Byte) :
    Statement (.readResponse len) :=
  ⟨rfl, toNat_fixed (readResponseWord_fixed len)⟩

theorem decodeAck :
    Statement .decodeAck :=
  ⟨rfl, toNat_fixed decodeAckWord_fixed⟩

theorem waitReady (t : Timeout) :
    Statement (.waitReady t) :=
  ⟨rfl, toNat_fixed (waitReadyWord_fixed t)⟩

theorem sendCommandAndAck (op : Byte) (args : List Byte) (t : Timeout) :
    Statement (.sendCommandAndAck op args t) :=
  ⟨rfl, toNat_fixed (sendCommandAndAckWord_fixed op t)⟩

theorem checkFrame :
    Statement .checkFrame :=
  ⟨rfl, toNat_fixed checkFrameWord_fixed⟩

theorem checkResponse (code : Byte) (status : Bool) :
    Statement (.checkResponse code status) :=
  ⟨rfl, toNat_fixed (checkResponseWord_fixed code status)⟩

theorem firmwareVersion (t : Option Timeout) (len : Byte) :
    Statement (.firmwareVersion t len) :=
  ⟨rfl, by simp [bits, row, Sys2Proof.encode]⟩

theorem samConfiguration (args : List Byte) (t : Option Timeout) (len : Byte) :
    Statement (.samConfiguration args t len) :=
  ⟨rfl, by simp [bits, row, Sys2Proof.encode]⟩

theorem peerJumpForDep (args : List Byte) (t : Option Timeout) (len : Byte) :
    Statement (.peerJumpForDep args t len) :=
  ⟨rfl, by simp [bits, row, Sys2Proof.encode]⟩

theorem targetInitAsTarget (args : List Byte) (t : Option Timeout) (len : Byte) :
    Statement (.targetInitAsTarget args t len) :=
  ⟨rfl, by simp [bits, row, Sys2Proof.encode]⟩

theorem targetGetData (args : List Byte) (t : Option Timeout) (len : Byte) (status : Bool) :
    Statement (.targetGetData args t len status) :=
  ⟨rfl, by simp [bits, row, Sys2Proof.encode]⟩

theorem targetSetData (args : List Byte) (t : Option Timeout) (len : Byte) (status : Bool) :
    Statement (.targetSetData args t len status) :=
  ⟨rfl, by simp [bits, row, Sys2Proof.encode]⟩

theorem listPassiveTarget (args : List Byte) (t : Option Timeout) (len : Byte) :
    Statement (.listPassiveTarget args t len) :=
  ⟨rfl, by simp [bits, row, Sys2Proof.encode]⟩

theorem dataExchange (args : List Byte) (t : Option Timeout) (len : Byte) :
    Statement (.dataExchange args t len) :=
  ⟨rfl, by simp [bits, row, Sys2Proof.encode]⟩

theorem mifareReadPage (lead : List Byte) (args : List Byte) (t : Option Timeout) (len : Byte) :
    Statement (.mifareReadPage lead args t len) :=
  ⟨rfl, by simp [bits, row, Sys2Proof.encode]⟩

theorem mifareWritePage (lead : List Byte) (args : List Byte) (t : Option Timeout) (len : Byte) :
    Statement (.mifareWritePage lead args t len) :=
  ⟨rfl, by simp [bits, row, Sys2Proof.encode]⟩

theorem mifareAuthKeyA (lead : List Byte) (args : List Byte) (t : Option Timeout) (len : Byte) :
    Statement (.mifareAuthKeyA lead args t len) :=
  ⟨rfl, by simp [bits, row, Sys2Proof.encode]⟩

theorem mifareAuthKeyB (lead : List Byte) (args : List Byte) (t : Option Timeout) (len : Byte) :
    Statement (.mifareAuthKeyB lead args t len) :=
  ⟨rfl, by simp [bits, row, Sys2Proof.encode]⟩

end Sys2Proof.Laws.TableRow
end

