-- ==== Sys2Proof/Tests/Slice0.lean ====
section
/-!
SUPPORT. Tests of the model. Expected values are from spec/95_test_vectors.md or computed by hand from
the rule named; `witness_…` theorems show states and operands that meet the hypotheses of a statement.
-/

namespace Sys2Proof.Tests

open Sys2Proof Sys2Proof.Machine

/-! ## Small states -/

/-- Configuration A of 95 section 0. -/
def configA : Config :=
  { statusReadCmd := 0x02, dataWritePrefix := none, dataReadPrefix := none, settlePreMs := 0,
    settleBetweenMs := 0 }

/-- Configuration C of 95 section 0. -/
def configC : Config :=
  { statusReadCmd := 0x02, dataWritePrefix := some 0x01, dataReadPrefix := some 0x03,
    settlePreMs := 1, settleBetweenMs := 1 }

/-- The reset state with a configuration and the bytes the chip will answer. -/
def idle (c : Config) (chip : List Byte) : State := { State.reset with config := c, chip := chip }

/-- The host about to issue. -/
def ready (c : Config) (chip : List Byte) (r : Request) : State :=
  { idle c chip with host := [[issue r]] }

/-- An operation in flight, the select line as its point asserts it. -/
def flight (c : Config) (chip : List Byte) (r : Request) (q : Seq) : State :=
  { idle c chip with busy := true, req := some r, seq := q, cs := selects q }

/-- The receive buffer filled with bytes. -/
def loaded (bs : List Byte) (s : State) : State :=
  { s with rx := (List.range bs.length).zip bs, rxLen := bs.length }

/-- A wait under way. -/
def polling (e : Millis) (s : State) : State := { s with poll := .polling, elapsed := e }

/-- What a test looks at in a next state. -/
def seen (o : Host.Outcome State Fault Refusal) : Option (List Event × Seq × Bool × Option Result) :=
  match o with
  | .next s => some (s.events, s.seq, s.busy, s.result)
  | .fault _ => none
  | .refused _ => none

/-- The receive buffer in a next state. -/
def seenRx (o : Host.Outcome State Fault Refusal) : Option (List Byte × Nat) :=
  match o with
  | .next s => some (s.rx.map Prod.snd, s.rxLen)
  | .fault _ => none
  | .refused _ => none

/-- POLL, ELAPSED and CS in a next state. -/
def seenWait (o : Host.Outcome State Fault Refusal) : Option (PollState × Millis × Bool) :=
  match o with
  | .next s => some (s.poll, s.elapsed, s.cs)
  | .fault _ => none
  | .refused _ => none

/-- REQ and the host's programs in a next state. -/
def seenIssue (o : Host.Outcome State Fault Refusal) :
    Option (Option Request × List (List HostAction)) :=
  match o with
  | .next s => some (s.req, s.host)
  | .fault _ => none
  | .refused _ => none

/-- Equality of two answers of the decoder, decidable. -/
def isOk (x : Except Reject Instr) (i : Instr) : Bool :=
  match x with
  | .ok j => decide (j = i)
  | .error _ => false

/-- The decoder's rejection, if it rejects. -/
def rejection (x : Except Reject Instr) : Option Reject :=
  match x with
  | .ok _ => none
  | .error e => some e

def zeros (n : Nat) : List Byte := List.replicate n 0x00

/-- The ACK frame (R80). -/
def ackBytes : List Byte := [0x00, 0x00, 0xFF, 0x00, 0xFF, 0x00]

/-- The PN532 NACK of 95 row A4. -/
def nackBytes : List Byte := [0x00, 0x00, 0xFF, 0xFF, 0x00, 0x00]

/-! ## WellFormed: an ill-formed term for each check -/

theorem test_wellFormed_payload :
    (Instr.encode 0x40 (zeros 63)).wellFormed = true ∧
    (Instr.encode 0x40 (zeros 64)).wellFormed = false ∧
    (Instr.sendCommandAndAck 0x40 (zeros 63) 0).wellFormed = true ∧
    (Instr.sendCommandAndAck 0x40 (zeros 64) 0).wellFormed = false := by decide

theorem test_wellFormed_length :
    (Instr.readResponse 64).wellFormed = true ∧ (Instr.readResponse 65).wellFormed = false ∧
    (Instr.readResponse 255).wellFormed = false := by decide

theorem test_wellFormed_command_payload :
    (Instr.samConfiguration (zeros 64) none 7).wellFormed = false ∧
    (Instr.peerJumpForDep (zeros 64) none 7).wellFormed = false ∧
    (Instr.targetInitAsTarget (zeros 64) none 7).wellFormed = false ∧
    (Instr.targetGetData (zeros 64) none 7 true).wellFormed = false ∧
    (Instr.targetSetData (zeros 64) none 7 true).wellFormed = false ∧
    (Instr.listPassiveTarget (zeros 64) none 7).wellFormed = false ∧
    (Instr.dataExchange (zeros 64) none 7).wellFormed = false := by decide

theorem test_wellFormed_subcommand_payload :
    (Instr.mifareReadPage (zeros 1) (zeros 61) none 26).wellFormed = true ∧
    (Instr.mifareReadPage (zeros 1) (zeros 62) none 26).wellFormed = false ∧
    (Instr.mifareWritePage (zeros 63) [] none 26).wellFormed = false ∧
    (Instr.mifareAuthKeyA [] (zeros 63) none 26).wellFormed = false ∧
    (Instr.mifareAuthKeyB (zeros 30) (zeros 33) none 26).wellFormed = false := by decide

theorem test_wellFormed_command_length :
    (Instr.firmwareVersion none 65).wellFormed = false ∧
    (Instr.samConfiguration [] none 65).wellFormed = false ∧
    (Instr.peerJumpForDep [] none 65).wellFormed = false ∧
    (Instr.targetInitAsTarget [] none 65).wellFormed = false ∧
    (Instr.targetGetData [] none 65 false).wellFormed = false ∧
    (Instr.targetSetData [] none 65 false).wellFormed = false ∧
    (Instr.listPassiveTarget [] none 65).wellFormed = false ∧
    (Instr.dataExchange [] none 65).wellFormed = false ∧
    (Instr.mifareReadPage [] [] none 65).wellFormed = false ∧
    (Instr.mifareWritePage [] [] none 65).wellFormed = false ∧
    (Instr.mifareAuthKeyA [] [] none 65).wellFormed = false ∧
    (Instr.mifareAuthKeyB [] [] none 65).wellFormed = false := by decide

/-! ## Words written out bit by bit from R70: T, A, reserved, S, OP -/

theorem test_decode_encode :
    isOk (decode (.request ⟨0b0000000000000000_01000000_000_0_0001, [0x01, 0x30, 0x04]⟩))
      (.encode 0x40 [0x01, 0x30, 0x04]) = true := by decide

theorem test_decode_readResponse :
    isOk (decode (.request ⟨0b0000000000000000_01000000_000_0_0010, []⟩))
      (.readResponse 64) = true := by decide

theorem test_decode_decodeAck :
    isOk (decode (.request ⟨0b0000000000000000_00000000_000_0_0011, []⟩)) .decodeAck = true := by
  decide

theorem test_decode_waitReady :
    isOk (decode (.request ⟨0b0000001111101000_00000000_000_0_0100, []⟩))
      (.waitReady 1000) = true := by decide

theorem test_decode_sendCommandAndAck :
    isOk (decode (.request ⟨0b0000000001100100_00010100_000_0_0101, [0x01, 0x14, 0x01]⟩))
      (.sendCommandAndAck 0x14 [0x01, 0x14, 0x01] 100) = true := by decide

theorem test_decode_checkFrame :
    isOk (decode (.request ⟨0b0000000000000000_00000000_000_0_0110, []⟩)) .checkFrame = true := by
  decide

theorem test_decode_checkResponse :
    isOk (decode (.request ⟨0b0000000000000000_01000001_000_1_0111, []⟩))
      (.checkResponse 0x41 true) = true ∧
    isOk (decode (.request ⟨0b0000000000000000_01000001_000_0_0111, []⟩))
      (.checkResponse 0x41 false) = true := by decide

/-- The twelve codes of spec/43_pn532_commands.md, bit by bit. -/
theorem test_decode_commands :
    isOk (decode (.command 0b00000010 .bare)) (.firmwareVersion none 0) = true ∧
    isOk (decode (.command 0b00010100 .bare)) (.samConfiguration [] none 0) = true ∧
    isOk (decode (.command 0b01010110 .bare)) (.peerJumpForDep [] none 0) = true ∧
    isOk (decode (.command 0b10001100 .bare)) (.targetInitAsTarget [] none 0) = true ∧
    isOk (decode (.command 0b10000110 .bare)) (.targetGetData [] none 0 false) = true ∧
    isOk (decode (.command 0b10001110 .bare)) (.targetSetData [] none 0 false) = true ∧
    isOk (decode (.command 0b01001010 .bare)) (.listPassiveTarget [] none 0) = true ∧
    isOk (decode (.command 0b01000000 .bare)) (.dataExchange [] none 0) = true := by decide

theorem test_decode_subcommands :
    isOk (decode (.command 0b00110000 .bare)) (.mifareReadPage [] [] none 0) = true ∧
    isOk (decode (.command 0b10100000 .bare)) (.mifareWritePage [] [] none 0) = true ∧
    isOk (decode (.command 0b01100000 .bare)) (.mifareAuthKeyA [] [] none 0) = true ∧
    isOk (decode (.command 0b01100001 .bare)) (.mifareAuthKeyB [] [] none 0) = true ∧
    rejection (decode (.command 0b00000011 .bare)) = some (.command .unlistedCode) ∧
    rejection (decode (.command 0b00000010 { CommandOperands.bare with args := [0x00] }))
      = some (.command .strayOperand) := by decide

/-- 95 section 2.8, rows Q1 to Q13. -/
theorem test_decode_refusals :
    rejection (decode (.request ⟨0x00000000, []⟩)) = some (.request .illegalOp) ∧
    rejection (decode (.request ⟨0x00000008, []⟩)) = some (.request .illegalOp) ∧
    rejection (decode (.request ⟨0x0000000F, []⟩)) = some (.request .illegalOp) ∧
    rejection (decode (.request ⟨0x00000020, [0x01]⟩)) = some (.request .illegalOp) ∧
    rejection (decode (.request ⟨0x00010201, []⟩)) = some (.request .reservedField) ∧
    rejection (decode (.request ⟨0x00000211, []⟩)) = some (.request .reservedField) ∧
    rejection (decode (.request ⟨0x00000221, []⟩)) = some (.request .reservedField) ∧
    rejection (decode (.request ⟨0x00000023, [0x01]⟩)) = some (.request .reservedField) ∧
    rejection (decode (.request ⟨0x00000103, [0x01]⟩)) = some (.request .reservedField) ∧
    rejection (decode (.request ⟨0x00004102, [0x01]⟩)) = some (.request .unexpectedPayload) ∧
    rejection (decode (.request ⟨0x00010006, []⟩)) = some (.request .reservedField) ∧
    rejection (decode (.request ⟨0x00004001, zeros 64⟩)) = some (.request .payloadTooLong) ∧
    rejection (decode (.request ⟨0x00004001, zeros 63⟩)) = none ∧
    rejection (decode (.request ⟨0x00004102, []⟩)) = some (.request .lengthTooLong) := by decide

/-- The encoder writes the header words of 95 section 3. -/
theorem test_encode_words :
    (sendCommandAndAckWord 0x02 [] 1000).header = 0x03E80205 ∧
    (readResponseWord 13).header = 0x00000D02 ∧ checkFrameWord.header = 0x00000006 ∧
    (checkResponseWord 0x41 true).header = 0x00004117 ∧ (encodeWord 0x4A []).header = 0x00004A01 ∧
    (waitReadyWord 25).header = 0x00190004 ∧ decodeAckWord.header = 0x00000003 := by decide

/-! ## Frames -/

/-- 95 rows E1, E11, E15 and E13. -/
theorem test_encodeFrame :
    encodeFrame 0x02 [] = [0x00, 0x00, 0xFF, 0x02, 0xFE, 0xD4, 0x02, 0x2A, 0x00] ∧
    encodeFrame 0x40 [0x01, 0x30, 0x04] =
      [0x00, 0x00, 0xFF, 0x05, 0xFB, 0xD4, 0x40, 0x01, 0x30, 0x04, 0xB7, 0x00] ∧
    encodeFrame 0x2C [] = [0x00, 0x00, 0xFF, 0x02, 0xFE, 0xD4, 0x2C, 0x00, 0x00] ∧
    encodeFrame 0x40 [0x01, 0x60, 0x04, 0xFF, 0xFF, 0xFF, 0xFF, 0xFF, 0xFF, 0x11, 0x22, 0x33, 0x44] =
      [0x00, 0x00, 0xFF, 0x0F, 0xF1, 0xD4, 0x40, 0x01, 0x60, 0x04, 0xFF, 0xFF, 0xFF, 0xFF, 0xFF,
        0xFF, 0x11, 0x22, 0x33, 0x44, 0xE3, 0x00] := by decide

/-- 95 section 2.3, rows F1 to F15. -/
theorem test_frameCheck :
    frameCheck [] = .short ∧ frameCheck [0x00, 0x00, 0xFF, 0x02] = .short ∧
    frameCheck [0x00, 0x00, 0xFF, 0x02, 0xFE] = .short ∧
    frameCheck [0x00, 0xFF, 0xFF, 0x02, 0xFE, 0xD5, 0x15, 0x16, 0x00] = .badStart ∧
    frameCheck ackBytes = .badLcs ∧ frameCheck nackBytes = .badLcs ∧
    frameCheck [0x00, 0x00, 0xFF, 0x02, 0xFE, 0xD5, 0x15, 0x16] = .short ∧
    frameCheck [0x00, 0x00, 0xFF, 0x02, 0xFE, 0xD5, 0x15, 0x16, 0x00] = .valid ∧
    frameCheck [0x00, 0x00, 0xFF, 0x02, 0xFE, 0xD5, 0x15, 0x17, 0x00] = .badDcs ∧
    frameCheck [0x00, 0x00, 0xFF, 0x02, 0xFE, 0xD5, 0x15, 0x16, 0xFF] = .badPostamble ∧
    frameCheck [0x00, 0x00, 0xFF, 0x02, 0xFE, 0xD5, 0x15, 0x16, 0x00, 0xAB, 0xCD] = .valid ∧
    frameCheck [0x00, 0x00, 0xFF, 0x00, 0x00, 0x00, 0x00] = .valid ∧
    frameCheck ([0x00, 0x00, 0xFF, 0xFF, 0x01] ++ zeros 10) = .short ∧
    frameCheck [0x00, 0x00, 0xFF, 0x03, 0xFD, 0xD5, 0x4B, 0x00, 0xE0, 0x00] = .valid := by decide

/-- 95 section 1.3: the ACK and one perturbation of each byte. -/
theorem test_isAck :
    isAck ackBytes = true ∧ isAck [0x01, 0x00, 0xFF, 0x00, 0xFF, 0x00] = false ∧
    isAck [0x00, 0x80, 0xFF, 0x00, 0xFF, 0x00] = false ∧
    isAck [0x00, 0x00, 0xFE, 0x00, 0xFF, 0x00] = false ∧
    isAck [0x00, 0x00, 0xFF, 0x01, 0xFF, 0x00] = false ∧
    isAck [0x00, 0x00, 0xFF, 0x00, 0xFE, 0x00] = false ∧
    isAck [0x00, 0x00, 0xFF, 0x00, 0xFF, 0xFF] = false := by decide

/-! ## One step of each instruction -/

/-- Frame byte 4, the LCS `FE` of E1. -/
theorem test_encode_sends_lcs :
    seen (exec (.encode 0x02 []) (flight configA [0x77] (encodeWord 0x02 []) (.encode (.byte 4)))) =
      some ([.xfer 0xFE 0x77], .encode (.byte 5), true, none) := by decide

/-- Configuration C sends the write prefix first. -/
theorem test_encode_sends_lead :
    seen (exec (.encode 0x02 []) (flight configC [0x77] (encodeWord 0x02 []) (.encode .lead))) =
      some ([.xfer 0x01 0x77], .encode (.byte 0), true, none) := by decide

/-- 95 row R5: the byte received second goes to cell 1. -/
theorem test_readResponse_stores :
    seenRx (exec (.readResponse 2)
      (loaded [0xAB] (flight configC [] (readResponseWord 2) (.readResponse (.got 1 0xCD))))) =
      some ([0xAB, 0xCD], 2) := by decide

/-- 95 row R10: a new read begins with no cell valid. -/
theorem test_readResponse_clears :
    seenRx (exec (.readResponse 2)
      (loaded ackBytes (flight configA [] (readResponseWord 2) (.readResponse .select)))) =
      some ([], 0) := by decide

/-- 95 row A2: only RX[0..5] are compared. -/
theorem test_decodeAck_match :
    seen (exec .decodeAck
      (loaded (ackBytes ++ [0xAB, 0xCD]) (flight configA [] decodeAckWord .decodeAck))) =
      some ([.finish .ok 1], .idle, false, some ⟨.ok, 1⟩) := by decide

/-- 95 row A7: five valid bytes fault at index 5, BUSY stays true, RESULT is kept. -/
theorem test_decodeAck_fault :
    seen (exec .decodeAck (loaded (zeros 5) (flight configA [] decodeAckWord .decodeAck))) =
      some ([.fault (.cell 5)], .faulted (.cell 5), true, none) := by decide

/-- 95 row W7: T = 9 times out after one sleep. -/
theorem test_waitReady_times_out :
    seenWait (exec (.waitReady 9)
      (polling 0 (flight configA [] (waitReadyWord 9) (.waitReady .slept)))) =
      some (.timedOut, 10, false) := by decide

/-- 95 row W8: T = 10 does not, "exceeds" being strict. -/
theorem test_waitReady_goes_on :
    seenWait (exec (.waitReady 10)
      (polling 0 (flight configA [] (waitReadyWord 10) (.waitReady .slept)))) =
      some (.polling, 10, true) := by decide

/-- 95 row H4: the NACK ends the handshake, no second wait. -/
theorem test_sendCommandAndAck_nack :
    seen (exec (.sendCommandAndAck 0x02 [] 30) (loaded nackBytes
      (flight configA [] (sendCommandAndAckWord 0x02 [] 30) (.handshake (.readAck .done))))) =
      some ([.finish .framingMismatch 0], .idle, false, some ⟨.framingMismatch, 0⟩) := by decide

/-- 95 row H5: the second wait restarts ELAPSED. -/
theorem test_sendCommandAndAck_second_wait :
    seenWait (exec (.sendCommandAndAck 0x02 [] 30) (polling 30 (loaded ackBytes
      (flight configA [] (sendCommandAndAckWord 0x02 [] 30) (.handshake (.readAck .done)))))) =
      some (.polling, 0, true) := by decide

/-- 95 row F9. -/
theorem test_checkFrame_badDcs :
    seen (exec .checkFrame (loaded [0x00, 0x00, 0xFF, 0x02, 0xFE, 0xD5, 0x15, 0x17, 0x00]
      (flight configA [] checkFrameWord .checkFrame))) =
      some ([.finish .ok 4], .idle, false, some ⟨.ok, 4⟩) := by decide

/-- 95 row K3. -/
theorem test_checkResponse_status :
    seen (exec (.checkResponse 0x41 true) (loaded [0x00, 0x00, 0xFF, 0x03, 0xFD, 0xD5, 0x41, 0x7F]
      (flight configA [] (checkResponseWord 0x41 true) .checkResponse))) =
      some ([.finish .protocolStatusError 0], .idle, false, some ⟨.protocolStatusError, 0⟩) := by
  decide

/-- 95 rows K8 and K9: seven valid bytes are enough without STATUS only. -/
theorem test_checkResponse_need :
    seen (exec (.checkResponse 0x41 false) (loaded [0x00, 0x00, 0xFF, 0x03, 0xFD, 0xD5, 0x41]
      (flight configA [] (checkResponseWord 0x41 false) .checkResponse))) =
      some ([.finish .ok 0], .idle, false, some ⟨.ok, 0⟩) ∧
    seen (exec (.checkResponse 0x41 true) (loaded [0x00, 0x00, 0xFF, 0x03, 0xFD, 0xD5, 0x41]
      (flight configA [] (checkResponseWord 0x41 true) .checkResponse))) =
      some ([.fault (.cell 7)], .faulted (.cell 7), true, none) := by decide

/-- R170: `SEND_COMMAND_AND_ACK 0x02 {}`, T = 1000, then `READ_RESPONSE 13`: P1's first two words. -/
theorem test_firmwareVersion :
    seenIssue (exec (.firmwareVersion none 13) (idle configA [])) =
      some (some ⟨0x03E80205, []⟩, [[.issue (.request ⟨0x00000D02, []⟩)]]) := by decide

/-- R171, with P4's first word. -/
theorem test_samConfiguration :
    seenIssue (exec (.samConfiguration [0x01, 0x14, 0x01] (some 100) 9) (idle configA [])) =
      some (some ⟨0x00641405, [0x01, 0x14, 0x01]⟩,
        [[.issue (.request ⟨0x00000902, []⟩), .issue (.request ⟨0x00001507, []⟩)]]) := by decide

theorem test_peerJumpForDep :
    seenIssue (exec (.peerJumpForDep [0xAA] (some 0) 9) (idle configA [])) =
      some (some ⟨0x00005605, [0xAA]⟩, [[.issue (.request ⟨0x00000902, []⟩)]]) := by decide

theorem test_targetInitAsTarget :
    seenIssue (exec (.targetInitAsTarget [0xAA] (some 0) 9) (idle configA [])) =
      some (some ⟨0x00008C05, [0xAA]⟩, [[.issue (.request ⟨0x00000902, []⟩)]]) := by decide

theorem test_targetGetData :
    seenIssue (exec (.targetGetData [] (some 0) 9 true) (idle configA [])) =
      some (some ⟨0x00008605, []⟩,
        [[.issue (.request ⟨0x00000902, []⟩), .issue (.request ⟨0x00008717, []⟩)]]) := by decide

theorem test_targetSetData :
    seenIssue (exec (.targetSetData [0xAA] (some 0) 9 false) (idle configA [])) =
      some (some ⟨0x00008E05, [0xAA]⟩,
        [[.issue (.request ⟨0x00000902, []⟩), .issue (.request ⟨0x00008F07, []⟩)]]) := by decide

theorem test_listPassiveTarget :
    seenIssue (exec (.listPassiveTarget [0x01, 0x00] none 19) (idle configA [])) =
      some (some ⟨0x03E84A05, [0x01, 0x00]⟩,
        [[.issue (.request ⟨0x00001302, []⟩), .issue (.request ⟨0x00004B07, []⟩)]]) := by decide

theorem test_dataExchange :
    seenIssue (exec (.dataExchange [0x01, 0x30, 0x04] none 26) (idle configA [])) =
      some (some ⟨0x03E84005, [0x01, 0x30, 0x04]⟩,
        [[.issue (.request ⟨0x00001A02, []⟩), .issue (.request ⟨0x00004117, []⟩)]]) := by decide

/-- P2's requests 1 to 3, the sub-code between `01` and `04`. -/
theorem test_mifareReadPage :
    seenIssue (exec (.mifareReadPage [0x01] [0x04] none 26) (idle configA [])) =
      some (some ⟨0x03E84005, [0x01, 0x30, 0x04]⟩,
        [[.issue (.request ⟨0x00001A02, []⟩), .issue (.request ⟨0x00004117, []⟩)]]) := by decide

/-- The payload of E12. -/
theorem test_mifareWritePage :
    seenIssue (exec (.mifareWritePage [0x01] [0x04, 0x11, 0x22, 0x33, 0x44] none 10)
      (idle configA [])) =
      some (some ⟨0x03E84005, [0x01, 0xA0, 0x04, 0x11, 0x22, 0x33, 0x44]⟩,
        [[.issue (.request ⟨0x00000A02, []⟩), .issue (.request ⟨0x00004117, []⟩)]]) := by decide

theorem test_mifareAuthKeyA :
    seenIssue (exec (.mifareAuthKeyA [0x01] [0x04] none 10) (idle configA [])) =
      some (some ⟨0x03E84005, [0x01, 0x60, 0x04]⟩,
        [[.issue (.request ⟨0x00000A02, []⟩), .issue (.request ⟨0x00004117, []⟩)]]) := by decide

theorem test_mifareAuthKeyB :
    seenIssue (exec (.mifareAuthKeyB [0x01] [0x04] none 10) (idle configA [])) =
      some (some ⟨0x03E84005, [0x01, 0x61, 0x04]⟩,
        [[.issue (.request ⟨0x00000A02, []⟩), .issue (.request ⟨0x00004117, []⟩)]]) := by decide

/-! ## Steps that are no instruction's -/

/-- 95 row Q2: no port event, BUSY true. -/
theorem test_step_refuses :
    seen (step (ready configA [] ⟨0x00000008, []⟩)) =
      some ([.refused .illegalOp], .refused .illegalOp, true, none) := by decide

/-- 95 row X1: a read of RESULT before any request. -/
theorem test_step_read_fault :
    seen (step { idle configA [] with host := [[.read .result]] }) =
      some ([.fault .result], .idle, false, none) := by decide

/-- R87: a command's other requests come before the rest of the program it stands in; ended programs are
passed over, later ones stand. -/
theorem test_step_command_goes_on :
    seenIssue (step { idle configA [] with
      host := [[], [.issue (.command 0x4A { CommandOperands.bare with length := 7 }), .read .poll],
        [.read .busy]] }) =
      some (some ⟨0x03E84A05, []⟩,
        [[.issue (.request ⟨0x00000702, []⟩), .issue (.request ⟨0x00004B07, []⟩), .read .poll],
          [.read .busy]]) := by decide

/-- R87: after a refusal nothing more of the program is issued, and the later one stands. -/
theorem test_step_refusal_stops_program :
    seenIssue (step { idle configA [] with
      host := [[], [.issue (.request ⟨0x00000008, []⟩), .read .poll], [.read .busy]] }) =
      some (none, [[], [.read .busy]]) := by decide

/-- 95 row Z2: reset in the middle of a poll records `CS0` and no finish. -/
theorem test_step_reset :
    seen (step { polling 0 (flight configA [] (waitReadyWord 0) (.waitReady (.release 0x00))) with
      resetIn := [true] }) = some ([.cs false], .idle, false, none) := by decide

/-! ## Witnesses: every hypothesis of a statement is met somewhere, at the ends of its range -/

theorem flight_inFlight (c : Config) (chip : List Byte) (r : Request) (q : Seq) :
    InFlight r q (flight c chip r q) := ⟨rfl, rfl, rfl⟩

theorem loaded_inFlight (bs : List Byte) (c : Config) (chip : List Byte) (r : Request) (q : Seq) :
    InFlight r q (loaded bs (flight c chip r q)) := ⟨rfl, rfl, rfl⟩

theorem polling_inFlight (e : Millis) (c : Config) (chip : List Byte) (r : Request) (q : Seq) :
    InFlight r q (polling e (flight c chip r q)) := ⟨rfl, rfl, rfl⟩

theorem ready_issues (c : Config) (chip : List Byte) (r : Request) :
    Issues r (ready c chip r) := ⟨rfl, rfl, rfl⟩

/-- DecodeEncodeRoundTrip, and the instructions of the PN532 commands' issue statements. -/
theorem witness_wellFormed :
    (Instr.encode 0xFF (zeros 63)).wellFormed = true ∧ (Instr.readResponse 0).wellFormed = true ∧
    Instr.decodeAck.wellFormed = true ∧ (Instr.waitReady 0xFFFF).wellFormed = true ∧
    (Instr.sendCommandAndAck 0x00 [] 0).wellFormed = true ∧ Instr.checkFrame.wellFormed = true ∧
    (Instr.checkResponse 0xFF true).wellFormed = true ∧
    (Instr.firmwareVersion (some 0) 64).wellFormed = true ∧
    (Instr.samConfiguration (zeros 63) none 64).wellFormed = true ∧
    (Instr.peerJumpForDep (zeros 63) none 64).wellFormed = true ∧
    (Instr.targetInitAsTarget (zeros 63) none 64).wellFormed = true ∧
    (Instr.targetGetData (zeros 63) none 64 true).wellFormed = true ∧
    (Instr.targetSetData (zeros 63) none 64 false).wellFormed = true ∧
    (Instr.listPassiveTarget (zeros 63) none 64).wellFormed = true ∧
    (Instr.dataExchange (zeros 63) none 64).wellFormed = true ∧
    (Instr.mifareReadPage (zeros 62) [] none 64).wellFormed = true ∧
    (Instr.mifareWritePage [] (zeros 62) none 64).wellFormed = true ∧
    (Instr.mifareAuthKeyA (zeros 31) (zeros 31) none 64).wellFormed = true ∧
    (Instr.mifareAuthKeyB [] [] (some 0xFFFF) 0).wellFormed = true := by decide

theorem witness_DecodedIsTheEncoding :
    decode (.request ⟨0x00004002, []⟩) = .ok (.readResponse 64) ∧
    decode (.command 0x60 { CommandOperands.bare with lead := [0x01] })
      = .ok (.mifareAuthKeyA [0x01] [] none 0) := ⟨rfl, rfl⟩

/-- RequestAdmission: each of its seven clauses at the ends of its range. -/
theorem witness_RequestAdmission :
    ((0x0000FF01 : Header) &&& 0xFFFF00FF = 0x00000001 ∧ 1 + (zeros 63).length ≤ 64) ∧
    ((0x00004002 : Header) &&& 0xFFFF00FF = 0x00000002 ∧
      ((0x00004002 : Header).extractLsb' 8 8).toNat = 64) ∧
    ((0x00000003 : Header) &&& 0xFFFFFFFF = 0x00000003) ∧
    ((0xFFFF0004 : Header) &&& 0x0000FFFF = 0x00000004) ∧
    ((0xFFFFFF05 : Header) &&& 0x000000FF = 0x00000005 ∧ 1 + (zeros 63).length ≤ 64) ∧
    ((0x00000006 : Header) &&& 0xFFFFFFFF = 0x00000006) ∧
    ((0x0000FF17 : Header) &&& 0xFFFF00EF = 0x00000007) := by decide

/-- RefusalReasonsInOrder: each of its five clauses. -/
theorem witness_RefusalReasonsInOrder :
    (((0x0 : Header).extractLsb' 0 4).toNat = 0) ∧ (8 ≤ ((0x8 : Header).extractLsb' 0 4).toNat) ∧
    (operationOf ((0x00000103 : Header).extractLsb' 0 4) = some .decodeAck ∧
      (0x00000103 : Header) &&& operationMask .decodeAck ≠ operationMatch .decodeAck) ∧
    (operationOf ((0x00004102 : Header).extractLsb' 0 4) = some .readResponse ∧
      (0x00004102 : Header) &&& operationMask .readResponse = operationMatch .readResponse ∧
      [(0x01 : Byte)] ≠ []) ∧
    (operationOf ((0x00004001 : Header).extractLsb' 0 4) = some .encode ∧
      (0x00004001 : Header) &&& operationMask .encode = operationMatch .encode ∧
      64 < 1 + (zeros 64).length) ∧
    ((0x00004102 : Header) &&& 0xFFFF00FF = 0x00000002 ∧
      64 < ((0x00004102 : Header).extractLsb' 8 8).toNat) := by decide

/-- CommandFrameLayout and EncodeFrameLaws: payloads of 0 and of 253 bytes; AckIsExactMatch. -/
theorem witness_frames :
    ([] : List Byte).length ≤ 253 ∧ (zeros 253).length ≤ 253 ∧ ackBytes.length = 6 ∧
    nackBytes.length = 6 := 
  ⟨Nat.zero_le _, Nat.le_of_eq (List.length_replicate ..), rfl, rfl⟩

/-- FrameCheckSteps, second clause: a frame of exactly LEN + 7 bytes. -/
theorem witness_FrameCheckSteps :
    5 ≤ (encodeFrame 0x02 []).length ∧
    ((encodeFrame 0x02 []).getD 3 0).toNat + 7 = (encodeFrame 0x02 []).length := by decide

theorem witness_AcceptanceLatchesRequest :
    portReady (idle configA []) = true ∧
    encode (.encode 0x02 (zeros 63)) = .request (encodeWord 0x02 (zeros 63)) ∧
    encode (.readResponse 64) = .request (readResponseWord 64) ∧
    encode (.waitReady 0) = .request (waitReadyWord 0) ∧
    encode (.sendCommandAndAck 0x02 [] 0) = .request (sendCommandAndAckWord 0x02 [] 0) ∧
    encode .decodeAck = .request decodeAckWord ∧ encode .checkFrame = .request checkFrameWord ∧
    encode (.checkResponse 0x41 true) = .request (checkResponseWord 0x41 true) := by decide

/-- IssueWaitsWhileBusy, for another operation than the one in flight and for a command; and with BUSY
false after a host read that faulted. -/
theorem witness_IssueWaitsWhileBusy :
    portReady (flight configA [] decodeAckWord .decodeAck) = false ∧
    (∀ r, encode .checkFrame = .request r →
      (flight configA [] decodeAckWord .decodeAck).req ≠ some r) ∧
    (∀ r, encode (.firmwareVersion none 0) = .request r →
      (flight configA [] decodeAckWord .decodeAck).req ≠ some r) ∧
    (let s : State := { idle configA [] with readFault := some .result };
      s.busy = false ∧ portReady s = false ∧ ∀ r, encode .checkFrame = .request r → s.req ≠ some r) := by
  refine ⟨rfl, ?_, ?_, rfl, rfl, ?_⟩
  · rintro r h
    cases h
    decide
  · rintro r h
    cases h
  · rintro r - h
    cases h

/-- RefusalWritesMarksOnly: the refused request alone, and after an ended program with more to come. -/
theorem witness_RefusalWritesMarksOnly :
    (let s := ready configA [] ⟨0x00000008, []⟩;
      s.resetIn = [] ∧ portReady s = true ∧
      s.host = List.replicate 0 [] ++ (issue ⟨0x00000008, []⟩ :: []) :: [] ∧
      decodeRequest ⟨0x00000008, []⟩ = .error .illegalOp) ∧
    (let s : State := { idle configA [] with
        host := [[], [issue ⟨0x00004102, []⟩, .read .poll], [.read .busy]] };
      s.resetIn = [] ∧ portReady s = true ∧
      s.host = List.replicate 1 [] ++ (issue ⟨0x00004102, []⟩ :: [.read .poll]) :: [[.read .busy]] ∧
      decodeRequest ⟨0x00004102, []⟩ = .error .lengthTooLong) :=
  ⟨⟨rfl, rfl, rfl, rfl⟩, ⟨rfl, rfl, rfl, rfl⟩⟩

/-- IllFormedOperationRefused: its three clauses, each at the first value refused. -/
theorem witness_IllFormedOperationRefused :
    portReady (idle configA []) = true ∧ 64 < 1 + (zeros 64).length ∧
    64 < 1 + ((zeros 1).length + 1 + (zeros 62).length) ∧ 64 < (65 : Byte).toNat := by
  decide

/-- StepRunsDecoded, its four clauses: an operation in flight and a request issued, the reset line's
schedule empty and deasserted. -/
theorem witness_StepRunsDecoded (ins : List Bool) :
    (let s : State := { flight configA [] decodeAckWord .decodeAck with resetIn := ins };
      s.resetIn = ins ∧ s.busy = true ∧ isQuiescent s.seq = false ∧ s.req = some decodeAckWord ∧
      decodeRequest decodeAckWord = .ok .decodeAck) ∧
    (let s : State := { ready configA [] decodeAckWord with resetIn := ins };
      s.resetIn = ins ∧ portReady s = true ∧
      nextAction s.host = some (issue decodeAckWord, [[]]) ∧
      decode (.request decodeAckWord) = .ok .decodeAck) :=
  ⟨⟨rfl, rfl, rfl, rfl, rfl⟩, ⟨rfl, rfl, rfl, rfl⟩⟩

theorem witness_PlacedWordRuns :
    decodeTableWord 32 0x00004002 = some (.readResponse 64) ∧
    decodeTableWord 8 0x4A = some (.listPassiveTarget [] none 0) := by decide

/-- EncodeSteps: a prefix and none, the first and the last frame byte, the end. -/
theorem witness_EncodeSteps :
    InFlight (encodeWord 0x02 []) (.encode .select)
      (flight configA [] (encodeWord 0x02 []) (.encode .select)) ∧
    (InFlight (encodeWord 0x02 []) (.encode .lead)
        (flight configC [] (encodeWord 0x02 []) (.encode .lead)) ∧
      (flight configC [] (encodeWord 0x02 []) (.encode .lead)).config.dataWritePrefix
        = some 0x01) ∧
    (InFlight (encodeWord 0x02 []) (.encode .lead)
        (flight configA [] (encodeWord 0x02 []) (.encode .lead)) ∧
      (flight configA [] (encodeWord 0x02 []) (.encode .lead)).config.dataWritePrefix = none ∧
      (encodeFrame 0x02 [])[0]? = some 0x00) ∧
    (InFlight (encodeWord 0x02 []) (.encode (.byte 8))
        (flight configA [] (encodeWord 0x02 []) (.encode (.byte 8))) ∧
      (encodeFrame 0x02 [])[8]? = some 0x00 ∧ (encodeFrame 0x02 [])[0]? = some 0x00) ∧
    InFlight (encodeWord 0x02 []) (.encode (.byte 9))
      (flight configA [] (encodeWord 0x02 []) (.encode (.byte 9))) ∧
    InFlight (encodeWord 0x02 []) (.encode .sent)
      (flight configA [] (encodeWord 0x02 []) (.encode .sent)) :=
  ⟨flight_inFlight _ _ _ _, ⟨flight_inFlight _ _ _ _, rfl⟩, ⟨flight_inFlight _ _ _ _, rfl, rfl⟩,
    ⟨flight_inFlight _ _ _ _, rfl, rfl⟩, flight_inFlight _ _ _ _, flight_inFlight _ _ _ _⟩

theorem witness_EncodeSendsTheFrame :
    argsFit (zeros 63) = true ∧
    Issues (encodeWord 0x40 (zeros 63)) (ready configC [] (encodeWord 0x40 (zeros 63))) :=
  ⟨by decide, ready_issues _ _ _⟩

/-- ReadResponseSteps: every point, lengths 0, 1, 2 and 64, a prefix and none. -/
theorem witness_ReadResponseSteps (c : Config) (len : Byte) (p : ReadPos) :
    InFlight (readResponseWord len) (.readResponse p)
      (flight c [] (readResponseWord len) (.readResponse p)) ∧
    configC.dataReadPrefix = some 0x03 ∧ configA.dataReadPrefix = none ∧ (2 : Byte) ≠ 0 ∧
    0 + 1 < (2 : Byte).toNat ∧ 0 + 1 = (1 : Byte).toNat ∧ 63 + 1 = (64 : Byte).toNat :=
  ⟨flight_inFlight _ _ _ _, by decide⟩

theorem witness_ReadResponseReadsExactly :
    lengthFits 0 = true ∧ lengthFits 64 = true ∧
    Issues (readResponseWord 0) (ready configA [] (readResponseWord 0)) ∧
    Issues (readResponseWord 64) (ready configC [] (readResponseWord 64)) :=
  ⟨by decide, by decide, ready_issues _ _ _, ready_issues _ _ _⟩

/-- DecodeAckOutcome: five bytes, the ACK, the NACK. -/
theorem witness_DecodeAckOutcome :
    (loaded (zeros 5) (flight configA [] decodeAckWord .decodeAck)).rxLen < 6 ∧
    6 ≤ (loaded ackBytes (flight configA [] decodeAckWord .decodeAck)).rxLen ∧
    (List.range 6).map
      (readCell (loaded ackBytes (flight configA [] decodeAckWord .decodeAck)).rx)
        = ackBytes.map some ∧
    (List.range 6).map
      (readCell (loaded nackBytes (flight configA [] decodeAckWord .decodeAck)).rx)
        = nackBytes.map some ∧ nackBytes ≠ ackBytes := by decide

/-- A filled buffer in flight at a point with no registers to agree with. -/
theorem inv_checkFrame (bs : List Byte) (hb : bs.length ≤ 64) :
    (loaded bs (flight configA [] checkFrameWord .checkFrame)).Inv where
  cells := List.map_fst_zip (by simp)
  fits := hb
  select := rfl
  resting := by intro h; cases h
  working := by intro _ h; cases h
  quiet := fun _ => rfl
  latched := rfl
  produced := by intro v h; cases h

/-- CheckFrameReportsVerdict: an empty buffer and a full one. -/
theorem witness_CheckFrameReportsVerdict :
    ((loaded [] (flight configA [] checkFrameWord .checkFrame)).Inv ∧
      InFlight checkFrameWord .checkFrame
        (loaded [] (flight configA [] checkFrameWord .checkFrame))) ∧
    ((loaded (zeros 64) (flight configA [] checkFrameWord .checkFrame)).Inv ∧
      InFlight checkFrameWord .checkFrame
        (loaded (zeros 64) (flight configA [] checkFrameWord .checkFrame))) :=
  ⟨⟨inv_checkFrame _ (by decide), loaded_inFlight _ _ _ _ _⟩,
    ⟨inv_checkFrame _ (by decide), loaded_inFlight _ _ _ _ _⟩⟩

/-- CheckResponseOutcome: too few bytes for each S, exactly enough for each S, right and wrong. -/
theorem witness_CheckResponseOutcome (bs : List Byte) (status : Bool) :
    InFlight (checkResponseWord 0x41 status) .checkResponse
      (loaded bs (flight configA [] (checkResponseWord 0x41 status) .checkResponse)) ∧
    (zeros 6).length < 7 ∧ (zeros 7).length < 8 ∧
    (let f := loaded (zeros 6 ++ [0x41])
        (flight configA [] (checkResponseWord 0x41 false) .checkResponse);
      7 ≤ f.rxLen ∧ readCell f.rx 6 = some 0x41) ∧
    (let f := loaded (zeros 6 ++ [0x41, 0x00])
        (flight configA [] (checkResponseWord 0x41 true) .checkResponse);
      8 ≤ f.rxLen ∧ readCell f.rx 6 = some 0x41 ∧ readCell f.rx 7 = some 0x00) ∧
    (let f := loaded (zeros 6 ++ [0x41, 0x01])
        (flight configA [] (checkResponseWord 0x41 true) .checkResponse);
      8 ≤ f.rxLen ∧ readCell f.rx 6 = some 0x41 ∧ readCell f.rx 7 = some 0x01) :=
  ⟨loaded_inFlight _ _ _ _ _, by decide⟩

theorem witness_WaitReadyPollSteps (p : WaitPos) :
    InFlight (waitReadyWord 25) (.waitReady p)
      (flight configA [] (waitReadyWord 25) (.waitReady p)) := flight_inFlight _ _ _ _

/-- ReadyTestIsExact: READY, and the bytes of row W3 that are not. -/
theorem witness_ReadyTestIsExact (b : Byte) :
    InFlight (waitReadyWord 25) (.waitReady (.judge b))
      (flight configA [] (waitReadyWord 25) (.waitReady (.judge b))) ∧
    (0x03 : Byte) ≠ 0x01 ∧ (0xFF : Byte) ≠ 0x01 ∧ (0x81 : Byte) ≠ 0x01 :=
  ⟨flight_inFlight _ _ _ _, by decide⟩

/-- TimeoutTestAfterSleep: T = 9 and T = 10 after the first sleep, T = 0 at the saturated count. -/
theorem witness_TimeoutTestAfterSleep (t : Timeout) (e : Millis) :
    InFlight (waitReadyWord t) (.waitReady .slept)
      (polling e (flight configA [] (waitReadyWord t) (.waitReady .slept))) ∧
    ((9 : Timeout) ≠ 0 ∧ (9 : Timeout).toNat < min ((0 : Millis).toNat + 10) (2 ^ 32 - 1)) ∧
    ¬((10 : Timeout) ≠ 0 ∧ (10 : Timeout).toNat < min ((0 : Millis).toNat + 10) (2 ^ 32 - 1)) ∧
    min ((0xFFFFFFFF : Millis).toNat + 10) (2 ^ 32 - 1) = 2 ^ 32 - 1 :=
  ⟨polling_inFlight _ _ _ _ _, by decide⟩

/-- WaitBound: T = 10 has two polls; neither ready, the first ready, the last ready. -/
theorem witness_WaitBound :
    Issues (waitReadyWord 10) (ready configA [0x00, 0x00, 0x00, 0x00] (waitReadyWord 10)) ∧
    (10 : Timeout) ≠ 0 ∧ pollBound 10 = 2 ∧
    (∀ j, j < pollBound 10 →
      answerAt (ready configA [0x00, 0x00, 0x00, 0x00] (waitReadyWord 10)) (2 * j + 1) ≠ 0x01) ∧
    answerAt (ready configA [0x00, 0x01] (waitReadyWord 10)) 1 = 0x01 ∧
    (answerAt (ready configA [0x00, 0x00, 0x00, 0x01] (waitReadyWord 10)) 3 = 0x01 ∧
      ∀ m, m < 1 →
        answerAt (ready configA [0x00, 0x00, 0x00, 0x01] (waitReadyWord 10)) (2 * m + 1) ≠ 0x01) :=
  ⟨ready_issues _ _ _, by decide⟩

/-- UnboundedWaitEndsOnReady: ready at the first poll, and at the third. -/
theorem witness_UnboundedWaitEndsOnReady :
    Issues (waitReadyWord 0) (ready configA [0x00, 0x01] (waitReadyWord 0)) ∧
    answerAt (ready configA [0x00, 0x01] (waitReadyWord 0)) 1 = 0x01 ∧
    answerAt (ready configA [0x00, 0x00, 0x00, 0x00, 0x00, 0x01] (waitReadyWord 0)) 5 = 0x01 ∧
    (∀ m, m < 2 → answerAt (ready configA [0x00, 0x00, 0x00, 0x00, 0x00, 0x01] (waitReadyWord 0))
      (2 * m + 1) ≠ 0x01) :=
  ⟨ready_issues _ _ _, by decide⟩

/-- UnboundedWaitRunsOn: 14 steps, two polls over by then. -/
theorem witness_UnboundedWaitRunsOn :
    Issues (waitReadyWord 0) (ready configA (zeros 4) (waitReadyWord 0)) ∧
    ∀ j, 5 * (j + 1) ≤ 14 → answerAt (ready configA (zeros 4) (waitReadyWord 0)) (2 * j + 1) ≠ 0x01 := by
  refine ⟨ready_issues _ _ _, fun j h => ?_⟩
  have hj : j = 0 ∨ j = 1 := by omega
  rcases hj with rfl | rfl <;> decide

/-- HandshakeStepOrder: each point at which one step gives way to the next. -/
theorem witness_HandshakeStepOrder (p : HandshakePos) (e : Millis) (bs : List Byte) :
    InFlight (sendCommandAndAckWord 0x02 [] 30) (.handshake p)
      (loaded bs (polling e (flight configA [] (sendCommandAndAckWord 0x02 [] 30) (.handshake p)))) ∧
    (30 : Timeout) ≠ 0 ∧ (30 : Timeout).toNat < min ((30 : Millis).toNat + 10) (2 ^ 32 - 1) ∧
    (List.range 6).map (readCell (loaded ackBytes (idle configA [])).rx) = ackBytes.map some ∧
    (List.range 6).map (readCell (loaded nackBytes (idle configA [])).rx) = nackBytes.map some :=
  ⟨⟨rfl, rfl, rfl⟩, by decide⟩

/-- HandshakeRunsTheBodies: a point of each body, with the step of the operation it is compared to. -/
theorem witness_HandshakeRunsTheBodies :
    (∃ u, InFlight (sendCommandAndAckWord 0x02 [] 30) (.handshake (.send .select))
        (flight configA [] (sendCommandAndAckWord 0x02 [] 30) (.handshake (.send .select))) ∧
      exec (.encode 0x02 [])
        { flight configA [] (sendCommandAndAckWord 0x02 [] 30) (.handshake (.send .select)) with
          req := some (encodeWord 0x02 []), seq := .encode .select } = .next u ∧
      u.seq = .encode .lead) ∧
    (∃ u, InFlight (sendCommandAndAckWord 0x02 [] 30) (.handshake (.waitAck .command))
        (flight configA [] (sendCommandAndAckWord 0x02 [] 30) (.handshake (.waitAck .command))) ∧
      exec (.waitReady 30)
        { flight configA [] (sendCommandAndAckWord 0x02 [] 30) (.handshake (.waitAck .command)) with
          req := some (waitReadyWord 30), seq := .waitReady .command } = .next u ∧
      u.seq = .waitReady .status) ∧
    (∃ u, InFlight (sendCommandAndAckWord 0x02 [] 30) (.handshake (.waitResponse .command))
        (flight configA [] (sendCommandAndAckWord 0x02 [] 30)
          (.handshake (.waitResponse .command))) ∧
      exec (.waitReady 30)
        { flight configA [] (sendCommandAndAckWord 0x02 [] 30)
            (.handshake (.waitResponse .command)) with
          req := some (waitReadyWord 30), seq := .waitReady .command } = .next u ∧
      u.seq = .waitReady .status) ∧
    (∃ u, InFlight (sendCommandAndAckWord 0x02 [] 30) (.handshake (.readAck .settle))
        (flight configA [] (sendCommandAndAckWord 0x02 [] 30) (.handshake (.readAck .settle))) ∧
      exec (.readResponse 6)
        { flight configA [] (sendCommandAndAckWord 0x02 [] 30) (.handshake (.readAck .settle)) with
          req := some (readResponseWord 6), seq := .readResponse .settle } = .next u ∧
      u.seq = .readResponse .lead) :=
  ⟨⟨_, ⟨rfl, rfl, rfl⟩, rfl, rfl⟩, ⟨_, ⟨rfl, rfl, rfl⟩, rfl, rfl⟩, ⟨_, ⟨rfl, rfl, rfl⟩, rfl, rfl⟩,
    ⟨_, ⟨rfl, rfl, rfl⟩, rfl, rfl⟩⟩

/-- The answers of a chip that is ready at once and sends the ACK, after `n` frame bytes and with `r`
answers to the read prefix: those of the handshake in 95 rows H1 and P2. -/
def eager (n r : Nat) : List Byte :=
  zeros n ++ [0x00, 0x01] ++ zeros r ++ ackBytes ++ [0x00, 0x01]

/-- HandshakeSucceeds: configuration A with no argument, configuration C with three. -/
theorem witness_HandshakeSucceeds :
    (Issues (sendCommandAndAckWord 0x02 [] 30)
        (ready configA (eager 9 0) (sendCommandAndAckWord 0x02 [] 30)) ∧
      argsFit [] = true ∧
      answerAt (ready configA (eager 9 0) (sendCommandAndAckWord 0x02 [] 30)) 10 = 0x01 ∧
      (List.range 6).map (fun k =>
        answerAt (ready configA (eager 9 0) (sendCommandAndAckWord 0x02 [] 30)) (11 + k)) = ackBytes ∧
      answerAt (ready configA (eager 9 0) (sendCommandAndAckWord 0x02 [] 30)) 18 = 0x01) ∧
    (Issues (sendCommandAndAckWord 0x40 [0x01, 0x30, 0x04] 0)
        (ready configC (eager 13 1) (sendCommandAndAckWord 0x40 [0x01, 0x30, 0x04] 0)) ∧
      argsFit [0x01, 0x30, 0x04] = true ∧
      answerAt (ready configC (eager 13 1) (sendCommandAndAckWord 0x40 [0x01, 0x30, 0x04] 0)) 14
        = 0x01 ∧
      (List.range 6).map (fun k =>
        answerAt (ready configC (eager 13 1) (sendCommandAndAckWord 0x40 [0x01, 0x30, 0x04] 0))
          (16 + k)) = ackBytes ∧
      answerAt (ready configC (eager 13 1) (sendCommandAndAckWord 0x40 [0x01, 0x30, 0x04] 0)) 23
        = 0x01) :=
  ⟨⟨ready_issues _ _ _, by decide⟩, ⟨ready_issues _ _ _, by decide⟩⟩

theorem witness_NoCodeDependentBehaviour (p : HandshakePos) :
    InFlight (sendCommandAndAckWord 0x02 [0x01] 30) (.handshake p)
      (flight configA [] (sendCommandAndAckWord 0x02 [0x01] 30) (.handshake p)) ∧
    [(0x01 : Byte)].length = [(0x99 : Byte)].length := ⟨flight_inFlight _ _ _ _, rfl⟩

/-- UncheckedCommandsIssue, CheckedCommandsIssue, DataExchangeCommandsIssue: the longest payloads, 63
argument bytes and, with a sub-command, 62 beside its code; a program that goes on, and none. -/
theorem witness_CommandsIssue :
    portReady (idle configA []) = true ∧ argsFit (zeros 63) = true ∧
    argsFit (zeros 31 ++ 0x30 :: zeros 31) = true ∧ argsFit (zeros 62 ++ 0xA0 :: []) = true ∧
    argsFit ([] ++ 0x60 :: zeros 62) = true ∧ argsFit (zeros 1 ++ 0x61 :: zeros 61) = true ∧
    (idle configA []).host = [] ∧
    ({ idle configA [] with host := [[.read .poll], [.read .busy]] } : State).host =
      [.read .poll] :: [[.read .busy]] := by decide

/-- CommandRunsToItsCheck: configuration A, no argument, the shortest answers, with a status byte and
without. -/
theorem witness_CommandRunsToItsCheck :
    (let s : State := { flight configA (eager 9 0 ++ zeros 6 ++ [0x41, 0x00])
          (sendCommandAndAckWord 0x40 [] 1000) (.handshake (.send .select)) with
        host := [[issue (readResponseWord 8), issue (checkResponseWord 0x41 true)]] };
      s.resetIn = [] ∧ s.readFault = none ∧ lengthFits 8 = true ∧ 8 ≤ (8 : Byte).toNat ∧
      s.host = (issue (readResponseWord 8) :: issue (checkResponseWord 0x41 true) :: []) :: [] ∧
      answerAt s 10 = 0x01 ∧ (List.range 6).map (fun k => answerAt s (11 + k)) = ackBytes ∧
      answerAt s 18 = 0x01 ∧ answerAt s 25 = 0x41 ∧ answerAt s 26 = 0x00) ∧
    (let s : State := { flight configA (eager 9 0 ++ zeros 6 ++ [0x4B])
          (sendCommandAndAckWord 0x4A [] 1000) (.handshake (.send .select)) with
        host := [[issue (readResponseWord 7), issue (checkResponseWord 0x4B false)]] };
      s.readFault = none ∧ 7 ≤ (7 : Byte).toNat ∧ answerAt s 10 = 0x01 ∧
      (List.range 6).map (fun k => answerAt s (11 + k)) = ackBytes ∧ answerAt s 18 = 0x01 ∧
      answerAt s 25 = 0x4B) ∧
    InFlight (sendCommandAndAckWord 0x40 [] 1000) (.handshake (.send .select))
      (flight configA [] (sendCommandAndAckWord 0x40 [] 1000) (.handshake (.send .select))) :=
  ⟨by decide, by decide, flight_inFlight _ _ _ _⟩

/-- HostStopsAtFirstFailure: an operation's step that ends with an error code and one that faults, the
same as steps of the machine; a refused request, a faulting read, and an accepted request as the host's
next action. -/
theorem witness_HostStopsAtFirstFailure :
    (let s : State := { loaded nackBytes (flight configA [] decodeAckWord .decodeAck) with
        host := [[.read .poll], [.read .busy]] };
      s.busy = true ∧ s.resetIn.head? ≠ some true ∧
      ∃ u, exec .decodeAck s = .next u ∧ step s = .next u ∧ isOperation .decodeAck = true ∧
        Fails s u) ∧
    (let s := flight configA [] decodeAckWord .decodeAck;
      ∃ u, exec .decodeAck s = .next u ∧ Fails s u) ∧
    (let s : State := { idle configA [] with
        host := [[], [issue ⟨0x00000008, []⟩, .read .poll], [.read .busy]] };
      s.busy = false ∧ s.host =
        List.replicate 1 [] ++ (issue ⟨0x00000008, []⟩ :: [.read .poll]) :: [[.read .busy]] ∧
      ∃ u, step s = .next u ∧ Fails s u) ∧
    (let s : State := { idle configA [] with host := [[.read .result, .read .poll]] };
      ∃ u, step s = .next u ∧ Fails s u) ∧
    (let s := ready configA [] decodeAckWord;
      portReady s = true ∧ ∃ u, step s = .next u ∧ ¬Fails s u) :=
  ⟨⟨rfl, by decide, _, rfl, rfl, rfl, _, rfl, rfl⟩, ⟨_, rfl, _, rfl, rfl⟩,
    ⟨rfl, rfl, _, rfl, _, rfl, rfl⟩, ⟨_, rfl, _, rfl, rfl⟩,
    rfl, _, rfl, fun ⟨e, _, h⟩ => nomatch (show ([] : List Event) = [e] from h)⟩

/-- The next states that statements about a next state speak of: steps of each group of the frames, and one that stores. -/
theorem witness_frames_of_instructions :
    (∃ u, exec .decodeAck (loaded nackBytes (flight configA [] decodeAckWord .decodeAck)) = .next u ∧
      u.events = [] ++ [.finish .framingMismatch 0]) ∧
    (∃ u, exec .decodeAck (flight configA [] decodeAckWord .decodeAck) = .next u ∧
      u.events = [] ++ [.fault (.cell 0)]) ∧
    (∃ u, exec .decodeAck (loaded ackBytes (flight configA [] decodeAckWord .decodeAck)) = .next u ∧
      u.events = [] ++ [.finish .ok 1]) ∧
    (∃ u, exec (.encode 0x02 []) (flight configA [] (encodeWord 0x02 []) (.encode .sent)) = .next u) ∧
    (∃ u, exec (.waitReady 9) (polling 0 (flight configA [] (waitReadyWord 9) (.waitReady .slept)))
      = .next u) ∧
    (∃ u, exec (.readResponse 2)
        (flight configC [] (readResponseWord 2) (.readResponse (.got 0 0xCD))) = .next u ∧
      u.rxLen = 0 + 1 ∧ 0 < 64) ∧
    (∃ u, exec (.sendCommandAndAck 0x02 [] 30)
        (flight configC [] (sendCommandAndAckWord 0x02 [] 30) (.handshake (.readAck (.got 5 0x00))))
        = .next u ∧ u.rxLen = 5 + 1) ∧
    (∃ u, exec (.mifareReadPage [0x01] [0x04] none 26) (idle configA []) = .next u ∧
      isOperation (.mifareReadPage [0x01] [0x04] none 26) = false) :=
  ⟨⟨_, rfl, rfl⟩, ⟨_, rfl, rfl⟩, ⟨_, rfl, rfl⟩, ⟨_, rfl⟩, ⟨_, rfl⟩, ⟨_, rfl, rfl, by decide⟩,
    ⟨_, rfl, rfl⟩, ⟨_, rfl, rfl⟩⟩

/-- ReceiveBufferFrame: the end of the ACK read in a state with the invariant, and the two points where a
run's reads begin. -/
theorem witness_ReceiveBufferFrame :
    (loaded nackBytes
      (flight configA [] (sendCommandAndAckWord 0x02 [] 30) (.handshake (.readAck .done)))).Inv ∧
    (∃ u, exec (.sendCommandAndAck 0x02 [] 30) (loaded nackBytes
      (flight configA [] (sendCommandAndAckWord 0x02 [] 30) (.handshake (.readAck .done)))) = .next u) ∧
    (∃ u, exec (.readResponse 2)
        (loaded ackBytes (flight configA [] (readResponseWord 2) (.readResponse .select))) = .next u ∧
      u.rxLen = 0) ∧
    (∃ u, exec (.sendCommandAndAck 0x02 [] 30)
        (loaded ackBytes (flight configA [] (sendCommandAndAckWord 0x02 [] 30)
          (.handshake (.waitAck (.judge 0x01))))) = .next u ∧ u.rxLen = 0) := by
  refine ⟨⟨rfl, by decide, rfl, ?_, ?_, fun _ => rfl, ⟨0x02, [], 30, rfl, rfl, rfl⟩, ?_⟩, ⟨_, rfl⟩, ⟨_, rfl, rfl⟩,
    ⟨_, rfl, rfl⟩⟩
  · intro h; cases h
  · intro _ h; cases h
  · intro v h; cases h

theorem witness_CellReadAfterWrite :
    Memory.wf [] = true ∧ Memory.wf [(0, 0x11), (63, 0x22)] = true ∧ 63 < 64 ∧
    (0 : Nat) ≠ 63 := by decide

/-- The invariant holds in a wait under way, so the statements with it speak of more than reset. -/
theorem inv_polling (q : WaitPos) (h : q ≠ .first) :
    (polling 0 (flight configA [] (waitReadyWord 25) (.waitReady q))).Inv where
  cells := rfl
  fits := Nat.zero_le _
  select := rfl
  resting := by intro h; cases h
  working := by intro _ h; cases h
  quiet := fun _ => rfl
  latched := ⟨25, rfl, by cases q <;> first | exact absurd rfl h | exact ⟨rfl, fun _ => Nat.zero_le _⟩⟩
  produced := by intro v h; cases h

theorem witness_CellsHoldValuesBelowLength :
    (loaded (zeros 64) (flight configA [] checkFrameWord .checkFrame)).Inv :=
  inv_checkFrame _ (by decide)

/-- HostReads: each register, with a value and without, after an ended program and with more to come. -/
theorem witness_HostReads (r : HostReg) :
    (let s : State := { loaded ackBytes (idle configA []) with
        result := some ⟨.ok, 1⟩, host := [[], [.read r, .read .poll], [.read .busy]] };
      s.resetIn = [] ∧ s.busy = false ∧
      s.host = List.replicate 1 [] ++ (.read r :: [.read .poll]) :: [[.read .busy]] ∧
      s.result = some ⟨.ok, 1⟩ ∧ readCell s.rx 5 = some 0x00 ∧ readCell s.rx 6 = none) ∧
    (idle configA []).result = none :=
  ⟨⟨rfl, rfl, rfl, rfl, rfl, rfl⟩, rfl⟩

theorem witness_ResetInput :
    (∃ later, ({ flight configA [] (waitReadyWord 0) (.waitReady .status) with
        resetIn := [true, false] } : State).resetIn = true :: later) ∧
    (flight configA [] (waitReadyWord 0) (.waitReady .status)).cs = true :=
  ⟨⟨_, rfl⟩, rfl⟩

/-- QuiescentUntilReset: its three clauses while BUSY is true, and a block with BUSY false after a host
read that faulted, a request next and nothing next. -/
theorem witness_QuiescentUntilReset :
    (let s : State := { flight configA [] decodeAckWord (.faulted (.cell 0)) with
        resetIn := [false, true] };
      s.busy = true ∧ s.resetIn = false :: [true] ∧ true ∈ [true] ∧ isQuiescent s.seq = true) ∧
    (let s := flight configA [] decodeAckWord (.faulted (.cell 0));
      s.busy = true ∧ isQuiescent s.seq = true ∧ s.seq = .faulted (.cell 0) ∧ true ∉ s.resetIn) ∧
    (let s := flight configA [] decodeAckWord (.refused .illegalOp);
      s.busy = true ∧ isQuiescent s.seq = true ∧ s.seq = .refused .illegalOp ∧ true ∉ s.resetIn) ∧
    (let s : State := { ready configA [] decodeAckWord with readFault := some .result };
      s.busy = false ∧ isQuiescent s.seq = false ∧ s.readFault = some .result ∧
      s.host = List.replicate 0 [] ++ (.issue (.request decodeAckWord) :: []) :: [] ∧
      true ∉ s.resetIn) ∧
    (let s : State := { idle configA [] with
        host := [[], []], readFault := some (.cell 0), resetIn := [false, true] };
      s.busy = false ∧ s.readFault.isSome = true ∧ (∀ p ∈ s.host, p = []) ∧
      s.resetIn = false :: [true] ∧ true ∈ [true]) := by decide

/-- StepKeepsInv and TransfersWhileSelected: a step of a wait that transfers. -/
theorem witness_StepKeepsInv :
    ∃ u, (polling 0 (flight configA [0x77] (waitReadyWord 25) (.waitReady .command))).cs = true ∧
      (polling 0 (flight configA [] (waitReadyWord 25) (.waitReady .command))).Inv ∧
      step (polling 0 (flight configA [] (waitReadyWord 25) (.waitReady .command))) = .next u ∧
      u.events = [] ++ [.xfer 0x02 (answerAt
        (polling 0 (flight configA [] (waitReadyWord 25) (.waitReady .command))) 0)] :=
  ⟨_, rfl, inv_polling _ (by decide), rfl, rfl⟩

/-- OneEventAStep: a step that drives CS and one that consumes an input byte.
MarksAndConfigurationPersist: a step with both marks set. -/
theorem witness_whole_machine_steps :
    (∃ u, step (flight configA [] (encodeWord 0x02 []) (.encode .select)) = .next u ∧
      u.cs ≠ (flight configA [] (encodeWord 0x02 []) (.encode .select)).cs) ∧
    (∃ u, step (flight configA [0x77] (encodeWord 0x02 []) (.encode (.byte 0))) = .next u ∧
      u.chip ≠ (flight configA [0x77] (encodeWord 0x02 []) (.encode (.byte 0))).chip) ∧
    (∃ u, step { idle configA [] with faulted := true, refused := true } = .next u) :=
  ⟨⟨_, rfl, by decide⟩, ⟨_, rfl, by decide⟩, ⟨_, rfl⟩⟩

/-- ResultOnlyByFinish: RESULT changed by a finish and by reset. BufferWrittenOnlyByReads: RX changed by
a read. -/
theorem witness_registers_change :
    (∃ u, step (loaded ackBytes (flight configA [] decodeAckWord .decodeAck)) = .next u ∧
      u.result ≠ (loaded ackBytes (flight configA [] decodeAckWord .decodeAck)).result) ∧
    (∃ u, step { idle configA [] with result := some ⟨.ok, 0⟩, resetIn := [true] } = .next u ∧
      u.result ≠ some ⟨.ok, 0⟩) ∧
    (∃ u, step (flight configA [] (readResponseWord 2) (.readResponse (.got 0 0xAB))) = .next u ∧
      u.rxLen ≠ (flight configA [] (readResponseWord 2) (.readResponse (.got 0 0xAB))).rxLen) :=
  ⟨⟨_, rfl, by decide⟩, ⟨_, rfl, by decide⟩, ⟨_, rfl, by decide⟩⟩

theorem inv_first : (flight configA [] (waitReadyWord 25) (.waitReady .first)).Inv where
  cells := rfl
  fits := Nat.zero_le _
  select := rfl
  resting := by intro h; cases h
  working := by intro _ h; cases h
  quiet := fun _ => rfl
  latched := ⟨25, rfl, trivial⟩
  produced := by intro v h; cases h

/-- PollTransitions and ElapsedCountsPollSleeps: the start of a wait, READY, and a sleep counted. -/
theorem witness_poll_registers_change :
    ((flight configA [] (waitReadyWord 25) (.waitReady .first)).Inv ∧
      ∃ u, step (flight configA [] (waitReadyWord 25) (.waitReady .first)) = .next u ∧
        u.poll ≠ (flight configA [] (waitReadyWord 25) (.waitReady .first)).poll) ∧
    ((polling 0 (flight configA [] (waitReadyWord 25) (.waitReady (.judge 0x01)))).Inv ∧
      ∃ u, step (polling 0 (flight configA [] (waitReadyWord 25) (.waitReady (.judge 0x01))))
          = .next u ∧
        u.poll ≠ (polling 0 (flight configA [] (waitReadyWord 25)
          (.waitReady (.judge 0x01)))).poll) ∧
    (∃ u, step (polling 0 (flight configA [] (waitReadyWord 25) (.waitReady .slept))) = .next u ∧
      u.elapsed ≠ (polling 0 (flight configA [] (waitReadyWord 25) (.waitReady .slept))).elapsed) :=
  ⟨⟨inv_first, _, rfl, by decide⟩, ⟨inv_polling _ (by decide), _, rfl, by decide⟩, _, rfl, by decide⟩

/-- ElapsedCountsPollSleeps, its other clauses: a wait that starts with an old count, and reset. -/
theorem witness_elapsed_cleared :
    (∃ u, step (polling 30 (flight configA [] (waitReadyWord 25) (.waitReady .first))) = .next u ∧
      u.elapsed ≠ 30) ∧
    (∃ u, step { polling 30 (flight configA [] (waitReadyWord 25) (.waitReady .status)) with
        resetIn := [true] } = .next u ∧ u.elapsed ≠ 30) :=
  ⟨⟨_, rfl, by decide⟩, ⟨_, rfl, by decide⟩⟩

/-- HostCannotReachInFlight and InFlightAlwaysProceeds: a wait in flight. -/
theorem witness_in_flight :
    (flight configA [] (waitReadyWord 25) (.waitReady .first)).Inv ∧
    (flight configA [] (waitReadyWord 25) (.waitReady .first)).busy = true ∧
    isQuiescent (flight configA [] (waitReadyWord 25) (.waitReady .first)).seq = false ∧
    (flight configA [] (waitReadyWord 25) (.waitReady .first)).resetIn.head? ≠ some true ∧
    ∃ u, step (flight configA [] (waitReadyWord 25) (.waitReady .first)) = .next u :=
  ⟨inv_first, rfl, rfl, by decide, _, rfl⟩

end Sys2Proof.Tests
end

/-!
PROOF. The decoder of the command port, one lemma per refusal, and the refusal a request gets
(spec/30_encoding.md R72, R73, R74, R88).
-/

namespace Sys2Proof

theorem operationOf_eq_none_iff (op : BitVec 4) :
    operationOf op = none ↔ op.toNat = 0 ∨ 8 ≤ op.toNat := by
  revert op; decide

theorem takesPayload_eq_true_iff (o : Operation) :
    takesPayload o = true ↔ o = .encode ∨ o = .sendCommandAndAck := by
  cases o <;> decide

/-- Every mask of R71 covers the field OP. -/
theorem headerOp_and_operationMask (h : Header) (o : Operation) :
    headerOp (h &&& operationMask o) = headerOp h := by
  have hm : headerOp (operationMask o) = BitVec.allOnes 4 := by cases o <;> rfl
  calc headerOp (h &&& operationMask o)
      = headerOp h &&& headerOp (operationMask o) := BitVec.extractLsb'_and
    _ = headerOp h := by rw [hm, BitVec.and_allOnes]

/-- The row of R71 whose fixed bits a header has is the row its OP selects. -/
theorem operationOf_headerOp_of_fixed {h : Header} {o : Operation}
    (hm : h &&& operationMask o = operationMatch o) : operationOf (headerOp h) = some o := by
  rw [← headerOp_and_operationMask h o, hm]
  cases o <;> rfl

theorem decodeRequest_illegalOp {r : Request} (ho : operationOf (headerOp r.header) = none) :
    decodeRequest r = .error .illegalOp := by
  simp [decodeRequest, ho]

section
variable {r : Request} {o : Operation}

theorem decodeRequest_reservedField (ho : operationOf (headerOp r.header) = some o)
    (hm : r.header &&& operationMask o ≠ operationMatch o) :
    decodeRequest r = .error .reservedField := by
  simp [decodeRequest, ho, hm]

theorem decodeRequest_unexpectedPayload (hm : r.header &&& operationMask o = operationMatch o)
    (ht : takesPayload o = false) (hp : r.payload ≠ []) :
    decodeRequest r = .error .unexpectedPayload := by
  simp [decodeRequest, operationOf_headerOp_of_fixed hm, hm, ht, hp]

/-- The value checks come last: a request that passes the others is refused as R74 says. -/
theorem decodeRequest_valueRefusal {why : RequestRefusal}
    (hm : r.header &&& operationMask o = operationMatch o)
    (hp : takesPayload o = true ∨ r.payload = [])
    (hv : valueRefusal (operationInstr o r) = some why) :
    decodeRequest r = .error why := by
  have hpresence : ¬ (takesPayload o = false ∧ r.payload ≠ []) := by
    rintro ⟨ht, hne⟩
    exact hp.elim (by simp [ht]) hne
  simp only [decodeRequest, operationOf_headerOp_of_fixed hm, hm, ne_eq, not_true_eq_false,
    if_false, if_neg hpresence, hv]

theorem valueRefusal_operationInstr_payloadTooLong (ht : takesPayload o = true)
    (hp : scratchSize < 1 + r.payload.length) :
    valueRefusal (operationInstr o r) = some .payloadTooLong := by
  have hfit : argsFit r.payload = false := by simpa [argsFit] using hp
  rcases (takesPayload_eq_true_iff o).mp ht with rfl | rfl <;>
    simp [operationInstr, valueRefusal, hfit]

theorem valueRefusal_operationInstr_lengthTooLong
    (hl : scratchSize < (headerOperand r.header).toNat) :
    valueRefusal (operationInstr .readResponse r) = some .lengthTooLong := by
  have hfit : lengthFits (headerOperand r.header) = false := by simpa [lengthFits] using hl
  simp [operationInstr, valueRefusal, hfit]

end

/-- Settles O4: each clause is the decoder's lemma for that refusal. -/
theorem refusalReasonsInOrder : Obligations.RefusalReasonsInOrder := by
  unfold Obligations.RefusalReasonsInOrder
  intro h p
  refine ⟨fun hop => ?illegal, fun o ho hm => ?reserved, fun o _ hm he hs hp => ?presence,
    fun o _ hm htakes hlong => ?payload, fun hm hp hlong => ?length⟩
  case illegal => exact decodeRequest_illegalOp ((operationOf_eq_none_iff _).mpr hop)
  case reserved => exact decodeRequest_reservedField ho hm
  case presence =>
    have ht : takesPayload o = false := by
      rw [← Bool.not_eq_true, takesPayload_eq_true_iff]
      exact not_or.mpr ⟨he, hs⟩
    exact decodeRequest_unexpectedPayload hm ht hp
  case payload =>
    have ht : takesPayload o = true := (takesPayload_eq_true_iff o).mpr htakes
    exact decodeRequest_valueRefusal hm (.inl ht)
      (valueRefusal_operationInstr_payloadTooLong ht hlong)
  case length =>
    exact decodeRequest_valueRefusal (o := .readResponse) hm (.inr hp)
      (valueRefusal_operationInstr_lengthTooLong hlong)

end Sys2Proof

/-!
PROOF. The bytes of the command frame at their offsets (spec/30_encoding.md R75 to R78).
-/

namespace Sys2Proof.Machine

/-- From offset 7 on the frame is the payload, the checksum and the postamble. -/
theorem getElem?_encodeFrame_seven_add (op : Byte) (p : List Byte) (k : Nat) :
    (encodeFrame op p)[7 + k]? = (p ++ [neg8 (0xD4 + op + sum8 p), 0x00])[k]? := by
  rw [Nat.add_comm 7 k, encodeFrame_eq]; rfl

theorem getElem?_encodeFrame_payload (op : Byte) {p : List Byte} {k : Nat} (hk : k < p.length) :
    (encodeFrame op p)[7 + k]? = p[k]? := by
  rw [getElem?_encodeFrame_seven_add, List.getElem?_append_left hk]

theorem getElem?_encodeFrame_checksum (op : Byte) (p : List Byte) :
    (encodeFrame op p)[7 + p.length]? = some (neg8 (0xD4 + op + sum8 p)) := by
  rw [getElem?_encodeFrame_seven_add]; simp

theorem getElem?_encodeFrame_postamble (op : Byte) (p : List Byte) :
    (encodeFrame op p)[8 + p.length]? = some 0x00 := by
  rw [show 8 + p.length = 7 + (p.length + 1) by omega, getElem?_encodeFrame_seven_add]; simp

theorem take_seven_encodeFrame (op : Byte) (p : List Byte) :
    (encodeFrame op p).take 7 = [0x00, 0x00, 0xFF, BitVec.ofNat 8 (p.length + 2),
      neg8 (BitVec.ofNat 8 (p.length + 2)), 0xD4, op] := by
  rw [encodeFrame_eq]; rfl

/-- Settles O6: the layout offset by offset; only that LEN fits its byte needs the bound. -/
theorem commandFrameLayout : Obligations.CommandFrameLayout := by
  unfold Obligations.CommandFrameLayout
  intro op p hp
  have hlen : (BitVec.ofNat 8 (p.length + 2)).toNat = p.length + 2 := by
    rw [BitVec.toNat_ofNat, Nat.mod_eq_of_lt (by omega)]
  exact ⟨length_encodeFrame op p, take_seven_encodeFrame op p, hlen,
    fun _ hk => getElem?_encodeFrame_payload op hk,
    getElem?_encodeFrame_checksum op p, getElem?_encodeFrame_postamble op p⟩

end Sys2Proof.Machine

/-!
PROOF. The laws of the command frame (spec/40_codec.md R102), the ACK test (R103) and the checks of a
received frame (R106).
-/

namespace Sys2Proof.Machine

theorem neg8_eq_neg (v : Byte) : neg8 v = -v := (BitVec.neg_eq_not_add v).symm

@[simp] theorem add_neg8 (v : Byte) : v + neg8 v = 0 := by
  rw [neg8_eq_neg]; exact BitVec.add_right_neg v

theorem isAck_eq_true_iff (b : List Byte) : isAck b = true ↔ b = ackConst := by
  simp [isAck]

/-- Settles O9: two sequences of six bytes are equal iff they are so at each offset. -/
theorem ackIsExactMatch : Obligations.AckIsExactMatch := by
  unfold Obligations.AckIsExactMatch
  intro b hb
  rw [isAck_eq_true_iff]
  match b, hb with
  | [b0, b1, b2, b3, b4, b5], _ => simp [ackConst]

/-- The direction byte at offset 5 is not that of the ACK, whatever LEN is. -/
theorem isAck_take_six_encodeFrame (op : Byte) (p : List Byte) :
    isAck ((encodeFrame op p).take 6) = false := by
  have hne : (encodeFrame op p).take 6 ≠ ackConst := by simp [encodeFrame_eq, ackConst]
  rwa [← Bool.not_eq_true, isAck_eq_true_iff]

/-- Bytes that close with their own checksum and the postamble pass R106's tests. -/
theorem bodyCheck_append_checksum {d : List Byte} {c : Byte} (hc : sum8 d + c = 0) :
    bodyCheck d.length (d ++ [c, postamble]) = .valid := by
  simp [bodyCheck, hc]

theorem bodyCheck_append {len : Nat} {body : List Byte} (tail : List Byte)
    (h : len + 2 ≤ body.length) : bodyCheck len (body ++ tail) = bodyCheck len body := by
  have hlong : ¬ (body ++ tail).length < len + 2 := by rw [List.length_append]; omega
  rw [bodyCheck, bodyCheck, if_neg hlong, if_neg (Nat.not_lt.mpr h),
    List.take_append_of_le_length (by omega), List.getD_append _ _ _ _ (by omega),
    List.getD_append _ _ _ _ (by omega)]

theorem frameCheck_of_length_lt_five {s : List Byte} (h : s.length < 5) :
    frameCheck s = .short := by
  unfold frameCheck
  split
  · exact absurd h (by simp)
  · rfl

theorem frameCheck_of_five_le_length {s : List Byte} (h : 5 ≤ s.length) :
    frameCheck s =
      if s.take 3 ≠ startSeq then .badStart
      else if s.getD 3 0 + s.getD 4 0 ≠ 0 then .badLcs
      else bodyCheck (s.getD 3 0).toNat (s.drop 5) := by
  match s, h with
  | _ :: _ :: _ :: _ :: _ :: _, _ => rfl

theorem take_three_eq_startSeq_iff {s : List Byte} (h : 3 ≤ s.length) :
    s.take 3 = startSeq ↔ s.getD 0 0 = 0x00 ∧ s.getD 1 0 = 0x00 ∧ s.getD 2 0 = 0xFF := by
  match s, h with
  | _ :: _ :: _ :: _, _ => simp [startSeq]

/-- The tests of R106 after the length checksum, by the offsets of the whole sequence. -/
theorem bodyCheck_drop_five (len : Nat) {s : List Byte} (h : 5 ≤ s.length) :
    bodyCheck len (s.drop 5) =
      if s.length < len + 7 then .short
      else if sum8 ((s.drop 5).take len) + s.getD (5 + len) 0 ≠ 0 then .badDcs
      else if s.getD (6 + len) 0 ≠ 0x00 then .badPostamble
      else .valid := by
  match s, h with
  | _ :: _ :: _ :: _ :: _ :: _, _ => simp [bodyCheck, postamble, Nat.add_comm 5, Nat.add_comm 6]

/-- A frame whose header is right is judged by the bytes from offset 5 on. -/
theorem frameCheck_startSeq_append {len lcs : Byte} (h : len + lcs = 0) (body : List Byte) :
    frameCheck (startSeq ++ len :: lcs :: body) = bodyCheck len.toNat body := by
  simp [frameCheck, startSeq, h]

theorem frameCheck_encodeFrame (op : Byte) {p : List Byte} (hp : p.length ≤ 253) :
    frameCheck (encodeFrame op p) = .valid := by
  have hframe : encodeFrame op p = startSeq ++ frameLen op p :: neg8 (frameLen op p)
      :: (frameData op p ++ [neg8 (sum8 (frameData op p)), postamble]) := by simp [encodeFrame]
  have hlen : (frameLen op p).toNat = (frameData op p).length := by
    have hfits : (frameData op p).length < 2 ^ 8 := by
      simp only [frameData, List.length_cons]; omega
    rw [frameLen, BitVec.toNat_ofNat, Nat.mod_eq_of_lt hfits]
  rw [hframe, frameCheck_startSeq_append (add_neg8 _), hlen]
  exact bodyCheck_append_checksum (add_neg8 _)

/-- Settles O7: a byte and its `neg8` add to 0 in both checksums, hence the verdict VALID. -/
theorem encodeFrameLaws : Obligations.EncodeFrameLaws := by
  unfold Obligations.EncodeFrameLaws
  refine ⟨fun op p hp => ⟨?lcs, ?dcs, frameCheck_encodeFrame op hp,
    isAck_take_six_encodeFrame op p⟩, ?literal⟩
  case lcs => simp [encodeFrame_eq]
  case dcs =>
    rw [List.getD_eq_getElem?_getD, getElem?_encodeFrame_checksum, Option.getD_some, BitVec.add_comm,
      add_neg8]
  case literal => decide

/-- Settles O10: from five bytes on, the tests of the header come first and those of the bytes from
offset 5 on follow; bytes added after a whole frame change none of them. -/
theorem frameCheckSteps : Obligations.FrameCheckSteps := by
  unfold Obligations.FrameCheckSteps
  refine ⟨fun s => ?steps, fun s tail h5 hn => ?tail⟩
  case steps =>
    split
    next hshort => exact frameCheck_of_length_lt_five hshort
    next hlong =>
      have h5 : 5 ≤ s.length := Nat.not_lt.mp hlong
      simp only [frameCheck_of_five_le_length h5, ne_eq,
        take_three_eq_startSeq_iff (Nat.le_trans (by decide) h5), bodyCheck_drop_five _ h5]
  case tail =>
    have h5' : 5 ≤ (s ++ tail).length := by rw [List.length_append]; omega
    have hbody : (s.getD 3 0).toNat + 2 ≤ (s.drop 5).length := by rw [List.length_drop]; omega
    rw [frameCheck_of_five_le_length h5', frameCheck_of_five_le_length h5,
      List.take_append_of_le_length (by omega), List.getD_append _ _ _ _ (by omega),
      List.getD_append _ _ _ _ (by omega), List.drop_append_of_le_length h5,
      bodyCheck_append tail hbody]

end Sys2Proof.Machine

/-!
PROOF. Decoding and encoding are inverse to each other, and which requests the decoder admits
(spec/30_encoding.md R70 to R74, spec/43_pn532_commands.md R170 to R181).
-/

namespace Sys2Proof

/-! ## The decoder's answer in two halves -/

theorem decode_request_ok {r : Request} {i : Instr} (h : decodeRequest r = .ok i) :
    decode (.request r) = .ok i := by
  simp [decode, h]

theorem decodeRequest_of_decode {r : Request} {i : Instr} (h : decode (.request r) = .ok i) :
    decodeRequest r = .ok i := by
  cases hr : decodeRequest r with
  | ok j => simpa [decode, hr] using h
  | error why => simp [decode, hr] at h

theorem decodeCommand_of_decode {code : Byte} {ops : CommandOperands} {i : Instr}
    (h : decode (.command code ops) = .ok i) : decodeCommand code ops = .ok i := by
  cases hc : decodeCommand code ops with
  | ok j => simpa [decode, hc] using h
  | error why => simp [decode, hc] at h

/-- What the decoder of the command port tests: the fixed bits of one row, the payload's presence and
the value checks. -/
theorem decodeRequest_eq_ok_iff {r : Request} {i : Instr} :
    decodeRequest r = .ok i ↔
      ∃ o, r.header &&& operationMask o = operationMatch o ∧
        (takesPayload o = true ∨ r.payload = []) ∧
        valueRefusal (operationInstr o r) = none ∧ i = operationInstr o r := by
  constructor
  · intro h
    cases ho : operationOf (headerOp r.header) with
    | none => simp [decodeRequest, ho] at h
    | some o =>
      simp only [decodeRequest, ho] at h
      split at h
      · cases h
      next hm =>
        split at h
        · cases h
        next hp =>
          split at h
          · cases h
          next hv =>
            refine ⟨o, not_not.mp hm, ?_, hv, (Except.ok.inj h).symm⟩
            cases ht : takesPayload o with
            | true => exact .inl rfl
            | false => exact .inr (by simpa [ht] using hp)
  · rintro ⟨o, hm, hp, hv, rfl⟩
    have hpresence : ¬ (takesPayload o = false ∧ r.payload ≠ []) := by
      rintro ⟨ht, hne⟩
      exact hp.elim (by simp [ht]) hne
    simp only [decodeRequest, operationOf_headerOp_of_fixed hm, hm, ne_eq, not_true_eq_false,
      if_false, if_neg hpresence, hv]

/-! ## The header word from its fixed bits -/

/-- A field that the mask covers is fixed. -/
theorem extract_of_fixed {h m p : Header} {start len : Nat} {v : BitVec len} (hm : h &&& m = p)
    (hcover : m.extractLsb' start len = BitVec.allOnes len) (hv : p.extractLsb' start len = v) :
    h.extractLsb' start len = v := by
  rw [← hv, ← hm, BitVec.extractLsb'_and, hcover, BitVec.and_allOnes]

theorem headerStatus_of_fixed {h m p : Header} (hm : h &&& m = p) (hcover : m.getLsbD 4 = true) :
    headerStatus h = p.getLsbD 4 := by
  rw [← hm, BitVec.getLsbD_and, hcover, Bool.and_true, headerStatus]

theorem extractReserved_headerWord (op : BitVec 4) (s : Bool) (a : Byte) (t : Timeout) :
    (headerWord op s a t).extractLsb' 5 3 = 0#3 := by
  apply BitVec.eq_of_getLsbD_eq
  intro i hi
  rw [BitVec.getLsbD_extractLsb', getLsbD_headerWord _ _ _ _ (by omega)]
  simp [hi, show ¬ 5 + i < 4 by omega, show ¬ 5 + i = 4 by omega, show 5 + i < 8 by omega]

/-- A header with zero reserved bits is written from its other four fields. -/
theorem headerWord_of_fields {h : Header} {op : BitVec 4} {s : Bool} {a : Byte} {t : Timeout}
    (hop : headerOp h = op) (hs : headerStatus h = s) (hr : h.extractLsb' 5 3 = 0#3)
    (ha : headerOperand h = a) (ht : headerTimeout h = t) : headerWord op s a t = h :=
  header_ext (by rw [headerOp_headerWord, hop]) (by rw [headerStatus_headerWord, hs])
    (by rw [extractReserved_headerWord, hr]) (by rw [headerOperand_headerWord, ha])
    (by rw [headerTimeout_headerWord, ht])

/-- No bit of a request is ignored: fixed bits and operands make up the whole header. -/
theorem encode_operationInstr {o : Operation} {h : Header} {p : List Byte}
    (hm : h &&& operationMask o = operationMatch o) (hp : takesPayload o = true ∨ p = []) :
    encode (operationInstr o ⟨h, p⟩) = .request ⟨h, p⟩ := by
  have word : ∀ {op : BitVec 4} {s : Bool} {a : Byte} {t : Timeout}, headerWord op s a t = h →
      Coded.request ⟨headerWord op s a t, p⟩ = .request ⟨h, p⟩ := by rintro _ _ _ _ rfl; rfl
  cases o with
  | encode =>
    exact word (headerWord_of_fields (extract_of_fixed hm rfl rfl) (headerStatus_of_fixed hm rfl)
      (extract_of_fixed hm rfl rfl) rfl (extract_of_fixed hm rfl rfl))
  | readResponse =>
    obtain rfl : p = [] := hp.resolve_left (by decide)
    exact word (headerWord_of_fields (extract_of_fixed hm rfl rfl) (headerStatus_of_fixed hm rfl)
      (extract_of_fixed hm rfl rfl) rfl (extract_of_fixed hm rfl rfl))
  | decodeAck =>
    obtain rfl : p = [] := hp.resolve_left (by decide)
    exact word (headerWord_of_fields (extract_of_fixed hm rfl rfl) (headerStatus_of_fixed hm rfl)
      (extract_of_fixed hm rfl rfl) (extract_of_fixed hm rfl rfl) (extract_of_fixed hm rfl rfl))
  | waitReady =>
    obtain rfl : p = [] := hp.resolve_left (by decide)
    exact word (headerWord_of_fields (extract_of_fixed hm rfl rfl) (headerStatus_of_fixed hm rfl)
      (extract_of_fixed hm rfl rfl) (extract_of_fixed hm rfl rfl) rfl)
  | sendCommandAndAck =>
    exact word (headerWord_of_fields (extract_of_fixed hm rfl rfl) (headerStatus_of_fixed hm rfl)
      (extract_of_fixed hm rfl rfl) rfl rfl)
  | checkFrame =>
    obtain rfl : p = [] := hp.resolve_left (by decide)
    exact word (headerWord_of_fields (extract_of_fixed hm rfl rfl) (headerStatus_of_fixed hm rfl)
      (extract_of_fixed hm rfl rfl) (extract_of_fixed hm rfl rfl) (extract_of_fixed hm rfl rfl))
  | checkResponse =>
    obtain rfl : p = [] := hp.resolve_left (by decide)
    exact word (headerWord_of_fields (extract_of_fixed hm rfl rfl) rfl
      (extract_of_fixed hm rfl rfl) rfl (extract_of_fixed hm rfl rfl))

theorem encode_of_decodeRequest {r : Request} {i : Instr} (h : decodeRequest r = .ok i) :
    encode i = .request r := by
  obtain ⟨o, hm, hp, -, rfl⟩ := decodeRequest_eq_ok_iff.mp h
  exact encode_operationInstr hm hp

/-- No operand of a command is dropped: each code's constructor holds those its rule has, and the
others are tested to be absent. -/
theorem encode_of_decodeCommand {code : Byte} {ops : CommandOperands} {i : Instr}
    (h : decodeCommand code ops = .ok i) : encode i = .command code ops := by
  obtain ⟨lead, args, t, len, status⟩ := ops
  unfold decodeCommand at h
  split at h
  case h_13 => cases h
  all_goals
    rename_i hcode
    split at h
    · cases h
      simp_all [encode, ← BitVec.toNat_inj]
    · cases h

/-- Settles O1: a request by what its word decodes to, a command by evaluating its code. -/
theorem decodeEncodeRoundTrip : Obligations.DecodeEncodeRoundTrip := by
  unfold Obligations.DecodeEncodeRoundTrip
  intro i hw
  cases i with
  | encode op args => exact decode_request_ok (decodeRequest_encodeWord hw)
  | readResponse len => exact decode_request_ok (decodeRequest_readResponseWord hw)
  | decodeAck => exact decode_request_ok decodeRequest_decodeAckWord
  | waitReady t => exact decode_request_ok (decodeRequest_waitReadyWord t)
  | sendCommandAndAck op args t =>
    exact decode_request_ok (decodeRequest_sendCommandAndAckWord hw)
  | checkFrame => exact decode_request_ok decodeRequest_checkFrameWord
  | checkResponse code status =>
    exact decode_request_ok (decodeRequest_checkResponseWord code status)
  | firmwareVersion | samConfiguration | peerJumpForDep | targetInitAsTarget | targetGetData
  | targetSetData | listPassiveTarget | dataExchange | mifareReadPage | mifareWritePage
  | mifareAuthKeyA | mifareAuthKeyB => rfl

/-- Settles O2: the two halves of the decoder, each inverted. -/
theorem decodedIsTheEncoding : Obligations.DecodedIsTheEncoding := by
  unfold Obligations.DecodedIsTheEncoding
  intro c i h
  cases c with
  | request r => exact encode_of_decodeRequest (decodeRequest_of_decode h)
  | command code ops => exact encode_of_decodeCommand (decodeCommand_of_decode h)

theorem argsFit_iff {p : List Byte} : argsFit p = true ↔ 1 + p.length ≤ 64 := decide_eq_true_iff

theorem lengthFits_iff {len : Byte} : lengthFits len = true ↔ len.toNat ≤ 64 := decide_eq_true_iff

theorem valueRefusal_eq_none_iff_argsFit {o : Operation} (ht : takesPayload o = true)
    (r : Request) :
    valueRefusal (operationInstr o r) = none ↔ 1 + r.payload.length ≤ 64 := by
  rw [← argsFit_iff]
  rcases (takesPayload_eq_true_iff o).mp ht with rfl | rfl <;> simp [operationInstr, valueRefusal]

theorem valueRefusal_eq_none_iff_lengthFits (r : Request) :
    valueRefusal (operationInstr .readResponse r) = none ↔
      (headerOperand r.header).toNat ≤ 64 := by
  rw [← lengthFits_iff]
  simp [operationInstr, valueRefusal]

/-- A request is admitted iff it passes the tests of some row. -/
theorem exists_decodeRequest_eq_ok_iff (r : Request) :
    (∃ i, decodeRequest r = .ok i) ↔
      ∃ o, r.header &&& operationMask o = operationMatch o ∧
        (takesPayload o = true ∨ r.payload = []) ∧
        valueRefusal (operationInstr o r) = none := by
  simp only [decodeRequest_eq_ok_iff]
  constructor
  · rintro ⟨i, o, hm, hp, hv, -⟩
    exact ⟨o, hm, hp, hv⟩
  · rintro ⟨o, hm, hp, hv⟩
    exact ⟨_, o, hm, hp, hv, rfl⟩

/-- Settles O3: the decoder's tests, row by row. -/
theorem requestAdmission : Obligations.RequestAdmission := by
  unfold Obligations.RequestAdmission
  intro h p
  rw [exists_decodeRequest_eq_ok_iff]
  constructor
  · rintro ⟨o, hm, hp, hv⟩
    cases o with
    | encode => exact .inl ⟨hm, (valueRefusal_eq_none_iff_argsFit rfl _).mp hv⟩
    | readResponse =>
      exact .inr (.inl ⟨hm, hp.resolve_left (by decide),
        (valueRefusal_eq_none_iff_lengthFits ⟨h, p⟩).mp hv⟩)
    | decodeAck => exact .inr (.inr (.inl ⟨hm, hp.resolve_left (by decide)⟩))
    | waitReady => exact .inr (.inr (.inr (.inl ⟨hm, hp.resolve_left (by decide)⟩)))
    | sendCommandAndAck =>
      exact .inr (.inr (.inr (.inr (.inl ⟨hm, (valueRefusal_eq_none_iff_argsFit rfl _).mp hv⟩))))
    | checkFrame =>
      exact .inr (.inr (.inr (.inr (.inr (.inl ⟨hm, hp.resolve_left (by decide)⟩)))))
    | checkResponse =>
      exact .inr (.inr (.inr (.inr (.inr (.inr ⟨hm, hp.resolve_left (by decide)⟩)))))
  · rintro (⟨hm, hl⟩ | ⟨hm, hp, hl⟩ | ⟨hm, hp⟩ | ⟨hm, hp⟩ | ⟨hm, hl⟩ | ⟨hm, hp⟩ | ⟨hm, hp⟩)
    · exact ⟨.encode, hm, .inl rfl, (valueRefusal_eq_none_iff_argsFit rfl _).mpr hl⟩
    · exact ⟨.readResponse, hm, .inr hp, (valueRefusal_eq_none_iff_lengthFits ⟨h, p⟩).mpr hl⟩
    · exact ⟨.decodeAck, hm, .inr hp, rfl⟩
    · exact ⟨.waitReady, hm, .inr hp, rfl⟩
    · exact ⟨.sendCommandAndAck, hm, .inl rfl, (valueRefusal_eq_none_iff_argsFit rfl _).mpr hl⟩
    · exact ⟨.checkFrame, hm, .inr hp, rfl⟩
    · exact ⟨.checkResponse, hm, .inr hp, rfl⟩

/-- Settles O5: each word is evaluated. -/
theorem writtenWordsDecode : Obligations.WrittenWordsDecode := by
  unfold Obligations.WrittenWordsDecode
  exact ⟨rfl, rfl, rfl, rfl, rfl, rfl, rfl, rfl⟩

end Sys2Proof

/-!
PROOF. Every step keeps the invariant (spec/10_state.md section 2, spec/20_memory.md R59, spec/41_poller.md
R136): the bodies keep what they need at each of their points, and acceptance, `finish`, faults and
refusals establish what the next point of SEQ asks for.
-/

namespace Sys2Proof.Machine

/-! ## The operand of a request can be read back from it -/

theorem readResponseWord_inj {len len' : Byte} (h : readResponseWord len = readResponseWord len') :
    len = len' := by
  simpa [readResponseWord] using congrArg (fun r : Request => headerOperand r.header) h

theorem waitReadyWord_inj {t t' : Timeout} (h : waitReadyWord t = waitReadyWord t') : t = t' := by
  simpa [waitReadyWord] using congrArg (fun r : Request => headerTimeout r.header) h

theorem sendCommandAndAckWord_inj {op op' : Byte} {args args' : List Byte} {t t' : Timeout}
    (h : sendCommandAndAckWord op args t = sendCommandAndAckWord op' args' t') :
    op = op' ∧ args = args' ∧ t = t' :=
  ⟨by simpa [sendCommandAndAckWord] using congrArg (fun r : Request => headerOperand r.header) h,
    congrArg Request.payload h,
    by simpa [sendCommandAndAckWord] using congrArg (fun r : Request => headerTimeout r.header) h⟩

/-! ## What holds of a busy block wherever SEQ stands -/

/-- The part of the invariant of a busy block that does not speak of SEQ. -/
structure BusyInv (s : State) : Prop where
  cells : s.rx.map Prod.fst = List.range s.rxLen
  fits : s.rxLen ≤ scratchSize
  busy : s.busy = true
  quiet : s.readFault = none
  produced : ∀ v, s.result = some v → isProduced v.code = true

theorem State.Inv.busyInv {s : State} (h : s.Inv) (hb : s.busy = true) : BusyInv s :=
  ⟨h.cells, h.fits, hb, h.quiet hb, h.produced⟩

theorem BusyInv.inv_goto {s : State} {q : Seq} (h : BusyInv s) (hq : q ≠ .idle)
    (hcs : s.cs = selects q) (hl : latchedFits (goto q s)) : (goto q s).Inv where
  cells := h.cells
  fits := h.fits
  select := hcs
  resting hb := absurd (h.busy.symm.trans hb) (by decide)
  working _ := hq
  quiet _ := h.quiet
  latched := hl
  produced := h.produced

theorem BusyInv.inv_finish {s : State} {c : ResultCode} (h : BusyInv s) (hcs : s.cs = false)
    (hc : isProduced c = true) (v : Byte) : (finish c v s).Inv where
  cells := h.cells
  fits := h.fits
  select := hcs
  resting _ := rfl
  working hb := nomatch hb
  quiet hb := nomatch hb
  latched := trivial
  produced r hr := by
    rw [finish_result, Option.some.injEq] at hr
    exact hr ▸ hc

theorem BusyInv.inv_raiseFault {s : State} (h : BusyInv s) (hcs : s.cs = false) (w : ReadRef) :
    (raiseFault w s).Inv where
  cells := h.cells
  fits := h.fits
  select := hcs
  resting hb := absurd (h.busy.symm.trans hb) (by decide)
  working _ := by simp
  quiet _ := h.quiet
  latched := trivial
  produced := h.produced

theorem BusyInv.csPrim {s : State} (h : BusyInv s) (b : Bool) : BusyInv (csPrim b s) :=
  ⟨h.cells, h.fits, h.busy, h.quiet, h.produced⟩

theorem BusyInv.xferPrim {s : State} (h : BusyInv s) (o : Byte) : BusyInv (xferPrim o s) :=
  ⟨h.cells, h.fits, h.busy, h.quiet, h.produced⟩

theorem BusyInv.sleepPrim {s : State} (h : BusyInv s) (n : Nat) : BusyInv (sleepPrim n s) :=
  ⟨h.cells, h.fits, h.busy, h.quiet, h.produced⟩

theorem BusyInv.setPoller {s : State} (h : BusyInv s) (p : PollState) (e : Millis) :
    BusyInv { s with poll := p, elapsed := e } :=
  ⟨h.cells, h.fits, h.busy, h.quiet, h.produced⟩

theorem BusyInv.clearRx {s : State} (h : BusyInv s) : BusyInv (clearRx s) :=
  ⟨rfl, Nat.zero_le _, h.busy, h.quiet, h.produced⟩

theorem BusyInv.storeRx {s : State} (h : BusyInv s) {k : Nat} (hk : s.rxLen = k)
    (hlt : k < scratchSize) (b : Byte) : BusyInv (storeRx k b s) :=
  ⟨keys_writeCell_next (hk ▸ h.cells) hlt, hlt, h.busy, h.quiet, h.produced⟩

/-! ## The bodies -/

theorem sendBody_keeps (f : List Byte) {p : SendPos} {s : State} (h : BusyInv s)
    (hcs : s.cs = sendSelects p) :
    (∃ p' u, sendBody f p s = .more p' u ∧ BusyInv u ∧ u.cs = sendSelects p' ∧ u.req = s.req) ∨
    (p = .sent ∧ sendBody f p s = .ended s) := by
  have byte (k : Nat) (hcs : s.cs = true) : ∃ p' u, sendByte f k s = .more p' u ∧ BusyInv u ∧
      u.cs = sendSelects p' ∧ u.req = s.req := by
    unfold sendByte
    split
    · exact ⟨_, _, rfl, h.xferPrim _, hcs, rfl⟩
    · exact ⟨_, _, rfl, h.csPrim _, rfl, rfl⟩
  cases p with
  | select => exact .inl ⟨_, _, rfl, h.csPrim _, rfl, rfl⟩
  | lead =>
    simp only [sendBody]
    split
    · exact .inl ⟨_, _, rfl, h.xferPrim _, hcs, rfl⟩
    · exact .inl (byte 0 hcs)
  | byte k => exact .inl (byte k hcs)
  | sent => exact .inr ⟨rfl, rfl⟩

theorem readBody_keeps {len : Nat} {p : ReadPos} {s : State} (h : BusyInv s)
    (hcs : s.cs = readSelects p) (hlen : len ≤ scratchSize) (ha : readAgrees len s.rxLen p) :
    (∃ p' u, readBody len p s = .more p' u ∧ BusyInv u ∧ u.cs = readSelects p' ∧
      readAgrees len u.rxLen p' ∧ u.req = s.req) ∨
    (p = .done ∧ readBody len p s = .ended s) := by
  have loop {k : Nat} (j : Nat) {s₀ : State} (h₀ : BusyInv s₀) (hcs₀ : s₀.cs = true)
      (hr : s₀.req = s.req) (hk : s₀.rxLen = k) (hle : k ≤ len) :
      ∃ p' u, readLoop len k j s₀ = .more p' u ∧ BusyInv u ∧ u.cs = readSelects p' ∧
        readAgrees len u.rxLen p' ∧ u.req = s.req := by
    unfold readLoop
    split
    next hlt =>
      split
      · exact ⟨_, _, rfl, h₀.sleepPrim _, hcs₀, ⟨hk, hlt⟩, hr⟩
      · exact ⟨_, _, rfl, h₀.xferPrim _, hcs₀, ⟨hk, hlt⟩, hr⟩
    next hge =>
      exact ⟨_, _, rfl, h₀.csPrim _, rfl, hk.trans (Nat.le_antisymm hle (Nat.not_lt.mp hge)), hr⟩
  cases p with
  | select => exact .inl ⟨_, _, rfl, h.clearRx.csPrim _, rfl, rfl, rfl⟩
  | settle => exact .inl ⟨_, _, rfl, h.sleepPrim _, hcs, ha, rfl⟩
  | lead =>
    simp only [readBody]
    split
    · exact .inl ⟨_, _, rfl, h.xferPrim _, hcs, ha, rfl⟩
    · exact .inl (loop 0 h hcs rfl ha (Nat.zero_le _))
  | led => exact .inl (loop 1 h hcs rfl ha (Nat.zero_le _))
  | byte k => exact .inl ⟨_, _, rfl, h.xferPrim _, hcs, ha, rfl⟩
  | got k b =>
    obtain ⟨hk, hlt⟩ := ha
    exact .inl (loop (k + 1) (h.storeRx hk (Nat.lt_of_lt_of_le hlt hlen) b) hcs rfl rfl hlt)
  | done => exact .inr ⟨rfl, rfl⟩

theorem waitAgrees_of_polling {t : Timeout} {s : State} (hp : s.poll = .polling)
    (he : t ≠ 0 → s.elapsed.toNat ≤ t.toNat) (p : WaitPos) : waitAgrees t s p := by
  cases p with
  | first => trivial
  | command | status | release | judge | slept => exact ⟨hp, he⟩

/-- A wait that goes on has not exceeded its bound. -/
theorem not_hasTimedOut {t : Timeout} {e : Millis} (h : ¬ hasTimedOut t e = true) :
    t ≠ 0 → e.toNat ≤ t.toNat := by
  intro ht
  simp only [hasTimedOut, ne_eq, Bool.and_eq_true, decide_eq_true_eq, not_and, Nat.not_lt] at h
  exact h ht

theorem waitBody_keeps {t : Timeout} {p : WaitPos} {s : State} (h : BusyInv s)
    (hcs : s.cs = waitSelects p) (ha : waitAgrees t s p) :
    (∃ p' u, waitBody t p s = .more p' u ∧ BusyInv u ∧ u.cs = waitSelects p' ∧
      waitAgrees t u p' ∧ u.req = s.req) ∨
    (∃ c u, waitBody t p s = .ended c u ∧ BusyInv u ∧ u.cs = false ∧ isProduced c = true ∧
      u.req = s.req) := by
  cases p with
  | first =>
    exact .inl ⟨_, _, rfl, (h.setPoller _ _).csPrim _, rfl,
      waitAgrees_of_polling rfl (fun _ => Nat.zero_le _) _, rfl⟩
  | command => exact .inl ⟨_, _, rfl, h.xferPrim _, hcs, ha, rfl⟩
  | status => exact .inl ⟨_, _, rfl, h.xferPrim _, hcs, ha, rfl⟩
  | release b => exact .inl ⟨_, _, rfl, h.csPrim _, rfl, ha, rfl⟩
  | judge b =>
    simp only [waitBody]
    split
    · exact .inr ⟨_, _, rfl, h.setPoller _ _, hcs, rfl, rfl⟩
    · exact .inl ⟨_, _, rfl, h.sleepPrim _, hcs, ha, rfl⟩
  | slept =>
    simp only [waitBody]
    split
    · exact .inr ⟨_, _, rfl, h.setPoller _ _, hcs, rfl, rfl⟩
    next hgo =>
      exact .inl ⟨_, _, rfl, (h.setPoller s.poll _).csPrim _, rfl,
        ⟨ha.1, not_hasTimedOut hgo⟩, rfl⟩

/-! ## The operations in flight -/

section
variable {s : State}

theorem advanceEncode_keepsInv (h : s.Inv) (hb : s.busy = true) (op : Byte) (args : List Byte) :
    (advanceEncode op args s).Inv := by
  have hl := h.latched
  have hcs := h.select
  unfold advanceEncode
  unfold latchedFits at hl
  split
  next p hq =>
    rw [hq] at hl hcs
    obtain ⟨op', args', hfit, hreq⟩ := hl
    rcases sendBody_keeps (encodeFrame op args) (h.busyInv hb) hcs with
      ⟨p', u, e, hu, hcs', hr⟩ | ⟨rfl, e⟩ <;> rw [e]
    · exact hu.inv_goto (by simp) hcs' ⟨op', args', hfit, hr.trans hreq⟩
    · exact (h.busyInv hb).inv_finish hcs rfl _
  next => exact h

theorem advanceReadResponse_keepsInv (h : s.Inv) (hb : s.busy = true) {len : Byte}
    (hreq : s.req = some (readResponseWord len)) : (advanceReadResponse len s).Inv := by
  have hl := h.latched
  have hcs := h.select
  unfold advanceReadResponse
  unfold latchedFits at hl
  split
  next p hq =>
    rw [hq] at hl hcs
    obtain ⟨len', hfit, hreq', ha⟩ := hl
    obtain rfl := readResponseWord_inj (Option.some.inj (hreq.symm.trans hreq'))
    rcases readBody_keeps (h.busyInv hb) hcs (lengthFits_iff.mp hfit) ha with
      ⟨p', u, e, hu, hcs', ha', hr⟩ | ⟨rfl, e⟩ <;> rw [e]
    · exact hu.inv_goto (by simp) hcs' ⟨len, hfit, hr.trans hreq, ha'⟩
    · exact (h.busyInv hb).inv_finish hcs rfl _
  next => exact h

theorem advanceDecodeAck_keepsInv (h : s.Inv) (hb : s.busy = true) :
    (advanceDecodeAck s).Inv := by
  have hcs := h.select
  unfold advanceDecodeAck decodeAckStep
  split
  next hq =>
    rw [hq] at hcs
    split
    · exact (h.busyInv hb).inv_raiseFault hcs _
    split
    · exact (h.busyInv hb).inv_raiseFault hcs _
    split
    · exact (h.busyInv hb).inv_finish hcs rfl _
    · exact (h.busyInv hb).inv_finish hcs rfl _
  next => exact h

theorem advanceCheckFrame_keepsInv (h : s.Inv) (hb : s.busy = true) :
    (advanceCheckFrame s).Inv := by
  have hcs := h.select
  unfold advanceCheckFrame checkFrameStep
  split
  next hq =>
    rw [hq] at hcs
    split
    · exact (h.busyInv hb).inv_raiseFault hcs _
    · exact (h.busyInv hb).inv_finish hcs rfl _
  next => exact h

/-- CHECK_RESPONSE ends in a fault or with one of two codes. -/
theorem checkResponseStep_cases (code : Byte) (status : Bool) (s : State) :
    (∃ w, checkResponseStep code status s = raiseFault w s) ∨
    checkResponseStep code status s = finish .ok 0 s ∨
    checkResponseStep code status s = finish .protocolStatusError 0 s := by
  unfold checkResponseStep
  repeat' split
  all_goals first
    | exact .inl ⟨_, rfl⟩
    | exact .inr (.inl rfl)
    | exact .inr (.inr rfl)

theorem advanceCheckResponse_keepsInv (h : s.Inv) (hb : s.busy = true) (code : Byte)
    (status : Bool) : (advanceCheckResponse code status s).Inv := by
  have hcs := h.select
  unfold advanceCheckResponse
  split
  next hq =>
    rw [hq] at hcs
    rcases checkResponseStep_cases code status s with ⟨w, e⟩ | e | e <;> rw [e]
    · exact (h.busyInv hb).inv_raiseFault hcs _
    · exact (h.busyInv hb).inv_finish hcs rfl _
    · exact (h.busyInv hb).inv_finish hcs rfl _
  next => exact h

theorem advanceWaitReady_keepsInv (h : s.Inv) (hb : s.busy = true) {t : Timeout}
    (hreq : s.req = some (waitReadyWord t)) : (advanceWaitReady t s).Inv := by
  have hl := h.latched
  have hcs := h.select
  unfold advanceWaitReady
  unfold latchedFits at hl
  split
  next p hq =>
    rw [hq] at hl hcs
    obtain ⟨t', hreq', ha⟩ := hl
    obtain rfl := waitReadyWord_inj (Option.some.inj (hreq.symm.trans hreq'))
    rcases waitBody_keeps (h.busyInv hb) hcs ha with
      ⟨p', u, e, hu, hcs', ha', hr⟩ | ⟨c, u, e, hu, hcs', hc, -⟩ <;> rw [e]
    · exact hu.inv_goto (by simp) hcs'
        ⟨t, hr.trans hreq, by cases p' <;> exact ha'⟩
    · exact hu.inv_finish hcs' hc _
  next => exact h

/-- The start of either wait of the handshake. -/
theorem BusyInv.inv_handshakeWait (h : BusyInv s) {op : Byte} {args : List Byte} {t : Timeout}
    (hfit : argsFit args = true) (hreq : s.req = some (sendCommandAndAckWord op args t))
    {pos : WaitPos → HandshakePos} (hpos : pos = .waitAck ∨ pos = .waitResponse) :
    (handshakeWait pos s).Inv := by
  have hu : BusyInv (waitStart s) := (h.setPoller _ _).csPrim _
  rcases hpos with rfl | rfl <;>
    exact hu.inv_goto (by simp) rfl ⟨op, args, t, hfit, hreq, rfl, fun _ => Nat.zero_le _⟩

theorem advanceHandshake_keepsInv (h : s.Inv) (hb : s.busy = true) {op : Byte}
    {args : List Byte} {t : Timeout} (hreq : s.req = some (sendCommandAndAckWord op args t)) :
    (advanceHandshake op args t s).Inv := by
  have hbusy := h.busyInv hb
  have hl := h.latched
  have hcs := h.select
  unfold latchedFits at hl
  cases hq : s.seq with
  | handshake p =>
    rw [hq] at hl hcs
    obtain ⟨op', args', t', hfit, hreq', ha⟩ := hl
    obtain ⟨rfl, rfl, rfl⟩ :=
      sendCommandAndAckWord_inj (Option.some.inj (hreq.symm.trans hreq'))
    simp only [advanceHandshake, hq]
    cases p with
    | send p =>
      rcases sendBody_keeps (encodeFrame op args) hbusy hcs with
        ⟨p', u, e, hu, hcs', hr⟩ | ⟨rfl, e⟩ <;> simp only [e]
      · exact hu.inv_goto (by simp) hcs' ⟨op, args, t, hfit, hr.trans hreq, trivial⟩
      · exact hbusy.inv_handshakeWait hfit hreq (.inl rfl)
    | waitAck p =>
      rcases waitBody_keeps hbusy hcs ha with
        ⟨p', u, e, hu, hcs', ha', hr⟩ | ⟨c, u, e, hu, hcs', hc, hr⟩ <;> simp only [e]
      · exact hu.inv_goto (by simp) hcs'
          ⟨op, args, t, hfit, hr.trans hreq, by cases p' <;> exact ha'⟩
      · split
        · exact (hu.clearRx.csPrim _).inv_goto (by simp) rfl
            ⟨op, args, t, hfit, hr.trans hreq, rfl⟩
        · exact hu.inv_finish hcs' rfl _
    | readAck p =>
      rcases readBody_keeps hbusy hcs (by decide) ha with
        ⟨p', u, e, hu, hcs', ha', hr⟩ | ⟨rfl, e⟩ <;> simp only [e]
      · exact hu.inv_goto (by simp) hcs' ⟨op, args, t, hfit, hr.trans hreq, ha'⟩
      · unfold handshakeAck
        split
        · exact hbusy.inv_raiseFault hcs _
        split
        · exact hbusy.inv_handshakeWait hfit hreq (.inr rfl)
        · exact hbusy.inv_finish hcs rfl _
    | waitResponse p =>
      rcases waitBody_keeps hbusy hcs ha with
        ⟨p', u, e, hu, hcs', ha', hr⟩ | ⟨c, u, e, hu, hcs', hc, hr⟩ <;> simp only [e]
      · exact hu.inv_goto (by simp) hcs'
          ⟨op, args, t, hfit, hr.trans hreq, by cases p' <;> exact ha'⟩
      · split
        · exact hu.inv_finish hcs' rfl _
        · exact hu.inv_finish hcs' rfl _
  | _ => simpa only [advanceHandshake, hq] using h

/-! ## Acceptance, refusal, host reads and reset -/

theorem State.Inv.setInputs (h : s.Inv) (host : List (List HostAction)) (ins : List Bool) :
    { s with host := host, resetIn := ins }.Inv :=
  ⟨h.cells, h.fits, h.select, h.resting, h.working, h.quiet, h.latched, h.produced⟩

theorem State.Inv.setHost (h : s.Inv) (host : List (List HostAction)) :
    { s with host := host }.Inv := h.setInputs host s.resetIn

/-- Between operations CS is false. -/
theorem State.Inv.cs_of_idle (h : s.Inv) (hp : portReady s = true) : s.cs = false := by
  obtain ⟨hb, -, -⟩ := portReady_iff.mp hp
  rw [h.select, h.resting hb]; rfl

theorem State.Inv.accept (h : s.Inv) (hp : portReady s = true) {r : Request} {q : Seq}
    (hq : q ≠ .idle) (hsel : selects q = false) (hl : latchedFits (accept r q s)) :
    (accept r q s).Inv where
  cells := h.cells
  fits := h.fits
  select := (h.cs_of_idle hp).trans hsel.symm
  resting hb := nomatch hb
  working _ := hq
  quiet _ := (portReady_iff.mp hp).2.2
  latched := hl
  produced := h.produced

theorem State.Inv.raiseRefused (h : s.Inv) (hp : portReady s = true) (why : RequestRefusal) :
    (raiseRefused why s).Inv where
  cells := h.cells
  fits := h.fits
  select := h.cs_of_idle hp
  resting hb := nomatch hb
  working _ := by simp
  quiet _ := (portReady_iff.mp hp).2.2
  latched := trivial
  produced := h.produced

theorem State.Inv.hostRead (h : s.Inv) (hb : s.busy = false) (r : HostReg) :
    (hostRead r s).Inv := by
  rcases hostRead_cases r s with ⟨v, e⟩ | ⟨w, e⟩ <;> rw [e]
  · exact ⟨h.cells, h.fits, h.select, h.resting, h.working, h.quiet, h.latched, h.produced⟩
  · exact ⟨h.cells, h.fits, h.select, h.resting, h.working,
      fun hb' => absurd (hb.symm.trans hb') (by decide), h.latched, h.produced⟩

/-- Reset establishes the invariant, whatever the state. -/
theorem inv_applyReset (s : State) : (applyReset s).Inv where
  cells := rfl
  fits := Nat.zero_le _
  select := rfl
  resting _ := rfl
  working hb := nomatch hb
  quiet hb := nomatch hb
  latched := trivial
  produced _ hv := nomatch hv

/-! ## A step of an instruction -/

theorem operate_keepsInv (h : s.Inv) {i : Instr} {r : Request} {q : Seq} {f : State → State}
    (hq : q ≠ .idle) (hsel : selects q = false)
    (hacc : valueRefusal i = none → latchedFits (accept r q s))
    (hf : s.busy = true → s.req = some r → (f s).Inv) : (operate i r q f s).Inv := by
  rcases operate_cases i r q f s with ⟨hp, e, hv⟩ | ⟨hp, why, e, -⟩ | ⟨hb, hr, e⟩ | e <;> rw [e]
  · exact h.accept hp hq hsel (hacc hv)
  · exact h.raiseRefused hp why
  · exact hf hb hr
  · exact h

theorem carry_keepsInv (h : s.Inv) (op : Byte) (args : List Byte) (t : Option Timeout) (len : Byte)
    (check : Option (Byte × Bool)) : (carry op args t len check s).Inv := by
  have hs := h.setHost (continueWith (responseRequests len check) s.host)
  rcases carry_cases op args t len check s with ⟨hp, hfit, e⟩ | ⟨hp, -, e⟩ | ⟨-, e⟩ <;> rw [e]
  · exact hs.accept hp (by simp) rfl ⟨op, args, _, hfit, rfl, trivial⟩
  · exact hs.raiseRefused hp _
  · exact h

theorem argsFit_of_valueRefusal {args : List Byte}
    (h : (if argsFit args then none else some RequestRefusal.payloadTooLong) = none) :
    argsFit args = true := by simpa using h

theorem lengthFits_of_valueRefusal {len : Byte}
    (h : (if lengthFits len then none else some RequestRefusal.lengthTooLong) = none) :
    lengthFits len = true := by simpa using h

theorem exec_keepsInv {i : Instr} {u : State} (h : s.Inv) (hx : exec i s = .next u) : u.Inv := by
  cases i with
  | encode op args =>
    cases hx
    exact operate_keepsInv h (by simp) rfl
      (fun hv => ⟨op, args, argsFit_of_valueRefusal hv, rfl⟩)
      fun hb _ => advanceEncode_keepsInv h hb op args
  | readResponse len =>
    cases hx
    exact operate_keepsInv h (by simp) rfl
      (fun hv => ⟨len, lengthFits_of_valueRefusal hv, rfl, trivial⟩)
      fun hb hr => advanceReadResponse_keepsInv h hb hr
  | decodeAck =>
    cases hx
    exact operate_keepsInv h (by simp) rfl (fun _ => rfl) fun hb _ => advanceDecodeAck_keepsInv h hb
  | waitReady t =>
    cases hx
    exact operate_keepsInv h (by simp) rfl (fun _ => ⟨t, rfl, trivial⟩)
      fun hb hr => advanceWaitReady_keepsInv h hb hr
  | sendCommandAndAck op args t =>
    cases hx
    exact operate_keepsInv h (by simp) rfl
      (fun hv => ⟨op, args, t, argsFit_of_valueRefusal hv, rfl, trivial⟩)
      fun hb hr => advanceHandshake_keepsInv h hb hr
  | checkFrame =>
    cases hx
    exact operate_keepsInv h (by simp) rfl (fun _ => rfl)
      fun hb _ => advanceCheckFrame_keepsInv h hb
  | checkResponse code status =>
    cases hx
    exact operate_keepsInv h (by simp) rfl (fun _ => ⟨code, status, rfl⟩)
      fun hb _ => advanceCheckResponse_keepsInv h hb code status
  | firmwareVersion | samConfiguration | peerJumpForDep | targetInitAsTarget | targetGetData
  | targetSetData | listPassiveTarget | dataExchange | mifareReadPage | mifareWritePage
  | mifareAuthKeyA | mifareAuthKeyB =>
    cases hx
    exact carry_keepsInv h _ _ _ _ _

end

/-- Settles O51: reset establishes the invariant, and the host's actions and every instruction keep
it. -/
theorem stepKeepsInv : Obligations.StepKeepsInv := by
  unfold Obligations.StepKeepsInv
  intro s u h hstep
  rcases step_cases hstep with ⟨later, -, rfl⟩ | ⟨later, -, s₀, rfl, work⟩
  · exact inv_applyReset _
  have h₀ (host : List (List HostAction)) := h.setInputs host later
  rcases work with rfl | ⟨r, rest, hb, rfl⟩ | ⟨why, rest, hp, rfl⟩ | ⟨i, rest, -, hx⟩ |
    ⟨r, i, -, -, -, -, hx⟩
  · exact h₀ s.host
  · exact (h₀ rest).hostRead hb r
  · exact (h₀ rest).raiseRefused hp why
  · exact exec_keepsInv (h₀ rest) hx
  · exact exec_keepsInv (h₀ s.host) hx

/-- Settles O50: the state after reset is one that a reset leads to, but for inputs and history. -/
theorem invAtReset : Obligations.InvAtReset := by
  unfold Obligations.InvAtReset
  have h := inv_applyReset State.reset
  exact ⟨h.cells, h.fits, h.select, h.resting, h.working, h.quiet, h.latched, h.produced⟩

end Sys2Proof.Machine

/-!
PROOF. Rules of the whole machine, each read off `step_outcomes`: which registers the register writes
and the primitives of a step leave alone, and what follows for a step (spec/00_scope.md R12, R14,
spec/10_state.md section 2, spec/41_poller.md section 3).
-/

namespace Sys2Proof.Machine

/-! ## What a register write and a primitive leave alone -/

section
variable {s u : State}

theorem RegWrite.cs (h : RegWrite s u) : u.cs = s.cs := by cases h <;> rfl

theorem RegWrite.events (h : RegWrite s u) : u.events = s.events := by cases h <;> rfl

theorem RegWrite.result (h : RegWrite s u) : u.result = s.result := by cases h <;> rfl

theorem RegWrite.host (h : RegWrite s u) : u.host = s.host := by cases h <;> rfl

theorem Act.poll (h : Act s u) : u.poll = s.poll := by cases h <;> rfl

theorem Act.elapsed (h : Act s u) : u.elapsed = s.elapsed := by cases h <;> rfl

theorem Act.rx (h : Act s u) : u.rx = s.rx := by cases h <;> rfl

theorem Act.rxLen (h : Act s u) : u.rxLen = s.rxLen := by cases h <;> rfl

/-- RX and RXLEN change only at points of a read. -/
theorem RegWrite.rx_eq_or (h : RegWrite s u) :
    (u.rx = s.rx ∧ u.rxLen = s.rxLen) ∨ (∃ p, s.seq = .readResponse p) ∨
      ∃ p, s.seq = .handshake p := by
  cases h with
  | clear h =>
    rcases h with h | h
    · exact .inr (.inl ⟨_, h⟩)
    · exact .inr (.inr ⟨_, h⟩)
  | store k b h =>
    rcases h with h | h
    · exact .inr (.inl ⟨_, h⟩)
    · exact .inr (.inr ⟨_, h⟩)
  | readyClear b hb h => exact .inr (.inr ⟨_, h⟩)
  | none | startWait | ready | slept | timedOut => exact .inl ⟨rfl, rfl⟩

/-- A step in flight records exactly one event. -/
theorem FlightStep.events (h : FlightStep s u) : ∃ e, u.events = s.events ++ [e] := by
  obtain ⟨s₀, hw, ha⟩ := h
  rw [← hw.events]
  cases ha <;> exact ⟨_, rfl⟩

end

/-! ## Transfers, events, marks and the result -/

/-- What is recorded in a step that ends in `u`, and which changes it goes with. -/
def OneEvent (s u : State) : Prop :=
  ∃ es, u.events = s.events ++ es ∧ es.length ≤ 1 ∧
    (u.cs ≠ s.cs → es = [.cs u.cs]) ∧
    ((u.chip ≠ s.chip ∨ u.draws ≠ s.draws) →
      ∃ o, es = [.xfer o (answerAt s 0)] ∧ u.chip = chipAfter s 1 ∧ u.draws = drawsAfter s 1)

/-- A step that leaves CS and the environment alone. -/
theorem oneEvent_of_eq {s u : State} {es : List Event} (he : u.events = s.events ++ es)
    (hl : es.length ≤ 1) (hcs : u.cs = s.cs) (hchip : u.chip = s.chip)
    (hdraws : u.draws = s.draws) : OneEvent s u :=
  ⟨es, he, hl, fun h => absurd hcs h, fun h => h.elim (absurd hchip) (absurd hdraws)⟩

theorem Act.oneEvent {s u : State} (h : Act s u) : OneEvent s u := by
  cases h with
  | cs b q =>
    exact ⟨[.cs b], rfl, le_rfl, fun _ => rfl, fun h => h.elim (absurd rfl) (absurd rfl)⟩
  | xfer o q =>
    rw [xferPrim_eq]
    exact ⟨_, rfl, le_rfl, fun h => absurd rfl h, fun _ => ⟨o, rfl, rfl, rfl⟩⟩
  | sleep | finish | fault => exact oneEvent_of_eq rfl le_rfl rfl rfl rfl

/-- A register write changes nothing that `OneEvent` speaks of. -/
theorem FlightStep.oneEvent {s u : State} (h : FlightStep s u) : OneEvent s u := by
  obtain ⟨s₀, hw, ha⟩ := h
  have := ha.oneEvent
  cases hw <;> exact this

theorem oneEvent_hostRead (r : HostReg) (s : State) : OneEvent s (hostRead r s) := by
  rcases hostRead_cases r s with ⟨v, e⟩ | ⟨w, e⟩ <;> rw [e]
  · exact oneEvent_of_eq (es := []) (by simp) (by simp) rfl rfl rfl
  · exact oneEvent_of_eq rfl le_rfl rfl rfl rfl

theorem oneEvent_applyReset (s : State) : OneEvent s (applyReset s) := by
  cases hcs : s.cs with
  | true =>
    refine ⟨[.cs false], by simp [hcs], le_rfl, fun _ => rfl, fun h => ?_⟩
    exact h.elim (absurd (applyReset_chip s)) (absurd (applyReset_draws s))
  | false =>
    exact oneEvent_of_eq (es := []) (by simp [hcs]) (by simp) hcs.symm (applyReset_chip s)
      (applyReset_draws s)

/-- Settles O53: outcome by outcome; only a primitive in flight drives CS or consumes an answer, and
reset drives CS. -/
theorem oneEventAStep : Obligations.OneEventAStep := by
  unfold Obligations.OneEventAStep
  intro s u hstep
  rcases step_outcomes hstep with ⟨later, -, rfl⟩ | ⟨later, host, -, s₀, rfl, work⟩
  · exact oneEvent_applyReset { s with resetIn := later }
  rcases work with ⟨rfl, -⟩ | ⟨r, -, rfl⟩ | ⟨why, -, rfl⟩ | ⟨r, q, -, -, -, -, rfl⟩ |
    ⟨-, -, -, hf⟩
  · exact oneEvent_of_eq (es := []) (by simp) (by simp) rfl rfl rfl
  · exact oneEvent_hostRead r { s with resetIn := later, host := host }
  · exact oneEvent_of_eq (s := s) rfl le_rfl rfl rfl rfl
  · exact oneEvent_of_eq (es := []) (by simp) (by simp) rfl rfl rfl
  · exact hf.oneEvent

theorem FlightStep.selected_of_xfer {s u : State} {o b : Byte} (h : FlightStep s u)
    (he : u.events = s.events ++ [.xfer o b]) : u.cs = s.cs ∧ selects u.seq = true := by
  obtain ⟨s₀, hw, ha⟩ := h
  rw [← hw.events] at he
  rw [← hw.cs]
  cases ha with
  | xfer o q hq hn hs => exact ⟨rfl, hs⟩
  | cs | sleep | finish | fault => simp at he

/-- Settles O52: only a step in flight transfers, it leaves CS alone, and the invariant gives CS at
the point it leads to. -/
theorem transfersWhileSelected : Obligations.TransfersWhileSelected := by
  unfold Obligations.TransfersWhileSelected
  intro s u o b hinv hstep he
  have hu : u.Inv := stepKeepsInv s u hinv hstep
  rcases step_outcomes hstep with ⟨later, -, rfl⟩ | ⟨later, host, -, s₀, rfl, work⟩
  · exfalso
    rw [applyReset_events] at he
    split at he <;> simp at he
  rcases work with ⟨rfl, -⟩ | ⟨r, -, rfl⟩ | ⟨why, -, rfl⟩ | ⟨r, q, -, -, -, -, rfl⟩ |
    ⟨-, -, -, hf⟩
  · simp at he
  · rcases hostRead_cases r { s with resetIn := later, host := host } with ⟨v, e⟩ | ⟨w, e⟩ <;>
      rw [e] at he
    · simp at he
    · simp at he
  · simp at he
  · simp at he
  · obtain ⟨hcs, hsel⟩ := hf.selected_of_xfer he
    have hucs : u.cs = true := hu.select.trans hsel
    exact ⟨hcs.symm.trans hucs, hucs⟩

/-- The marks set in `s` are set in `u`, and the configuration is the same. -/
def MarksKept (s u : State) : Prop :=
  (s.faulted = true → u.faulted = true) ∧ (s.refused = true → u.refused = true) ∧
    u.config = s.config

theorem FlightStep.marksKept {s u : State} (h : FlightStep s u) : MarksKept s u := by
  obtain ⟨s₀, hw, ha⟩ := h
  have : MarksKept s₀ u := by
    cases ha with
    | fault => exact ⟨fun _ => rfl, id, rfl⟩
    | cs | xfer | sleep | finish => exact ⟨id, id, rfl⟩
  cases hw <;> exact this

/-- Settles O54: a fault and a refusal set their mark, and nothing writes the others. -/
theorem marksAndConfigurationPersist : Obligations.MarksAndConfigurationPersist := by
  unfold Obligations.MarksAndConfigurationPersist
  intro s u hstep
  rcases step_outcomes hstep with ⟨later, -, rfl⟩ | ⟨later, host, -, s₀, rfl, work⟩
  · exact ⟨by simp, by simp, by simp⟩
  rcases work with ⟨rfl, -⟩ | ⟨r, -, rfl⟩ | ⟨why, -, rfl⟩ | ⟨r, q, -, -, -, -, rfl⟩ |
    ⟨-, -, -, hf⟩
  · exact ⟨id, id, rfl⟩
  · rcases hostRead_cases r { s with resetIn := later, host := host } with ⟨v, e⟩ | ⟨w, e⟩ <;>
      rw [e]
    · exact ⟨id, id, rfl⟩
    · exact ⟨fun _ => rfl, id, rfl⟩
  · exact ⟨id, fun _ => rfl, rfl⟩
  · exact ⟨id, id, rfl⟩
  · exact hf.marksKept

theorem hostRead_result (r : HostReg) (s : State) : (hostRead r s).result = s.result := by
  rcases hostRead_cases r s with ⟨v, e⟩ | ⟨w, e⟩ <;> simp [e]

/-- Settles O55: of all outcomes only `finish` and reset write RESULT. -/
theorem resultOnlyByFinish : Obligations.ResultOnlyByFinish := by
  unfold Obligations.ResultOnlyByFinish
  intro s u hstep hne
  rcases step_outcomes hstep with ⟨later, hr, rfl⟩ | ⟨later, host, -, s₀, rfl, work⟩
  · exact .inr ⟨rfl, by rw [hr]; rfl⟩
  rcases work with ⟨rfl, -⟩ | ⟨r, -, rfl⟩ | ⟨why, -, rfl⟩ | ⟨r, q, -, -, -, -, rfl⟩ |
    ⟨-, -, -, s₁, hw, ha⟩
  · exact absurd rfl hne
  · exact absurd (hostRead_result _ _) hne
  · exact absurd rfl hne
  · exact absurd rfl hne
  · cases ha with
    | finish c v hc =>
      refine .inl ⟨⟨c, v⟩, rfl, rfl, rfl, ?_⟩
      rw [finish_events, hw.events]
    | cs | xfer | sleep | fault => exact absurd hw.result hne

/-! ## The receive buffer and the poller's registers -/

theorem hostRead_rx (r : HostReg) (s : State) :
    (hostRead r s).rx = s.rx ∧ (hostRead r s).rxLen = s.rxLen := by
  rcases hostRead_cases r s with ⟨v, e⟩ | ⟨w, e⟩ <;> rw [e] <;> exact ⟨rfl, rfl⟩

theorem hostRead_poller (r : HostReg) (s : State) :
    (hostRead r s).poll = s.poll ∧ (hostRead r s).elapsed = s.elapsed := by
  rcases hostRead_cases r s with ⟨v, e⟩ | ⟨w, e⟩ <;> rw [e] <;> exact ⟨rfl, rfl⟩

/-- Settles O56: of all outcomes only a register write at a point of a read, and reset, change RX. -/
theorem bufferWrittenOnlyByReads : Obligations.BufferWrittenOnlyByReads := by
  unfold Obligations.BufferWrittenOnlyByReads
  intro s u hstep hne
  have unchanged {p : Prop} (hrx : u.rx = s.rx) (hlen : u.rxLen = s.rxLen) : p :=
    hne.elim (absurd hrx) (absurd hlen)
  rcases step_outcomes hstep with ⟨later, hr, -⟩ | ⟨later, host, -, s₀, rfl, work⟩
  · exact .inl (by rw [hr]; rfl)
  rcases work with ⟨rfl, -⟩ | ⟨r, -, rfl⟩ | ⟨why, -, rfl⟩ | ⟨r, q, -, -, -, -, rfl⟩ |
    ⟨-, -, -, s₁, hw, ha⟩
  · exact unchanged rfl rfl
  · exact unchanged (hostRead_rx _ _).1 (hostRead_rx _ _).2
  · exact unchanged rfl rfl
  · exact unchanged rfl rfl
  · rcases hw.rx_eq_or with ⟨hrx, hlen⟩ | hread | hshake
    · exact unchanged (ha.rx.trans hrx) (ha.rxLen.trans hlen)
    · exact .inr (.inl hread)
    · exact .inr (.inr hshake)

/-- In a wait that has begun POLL is POLLING. -/
theorem State.Inv.polling {s : State} (h : s.Inv) {p : WaitPos} (hp : p ≠ .first)
    (hs : s.seq = .waitReady p ∨ s.seq = .handshake (.waitAck p) ∨
      s.seq = .handshake (.waitResponse p)) : s.poll = .polling := by
  have begun {t : Timeout} (ha : waitAgrees t s p) : s.poll = .polling := by
    cases p with
    | first => exact absurd rfl hp
    | command | status | release | judge | slept => exact ha.1
  have hl := h.latched
  unfold latchedFits at hl
  rcases hs with hs | hs | hs <;> rw [hs] at hl
  · obtain ⟨t, -, ha⟩ := hl
    exact begun ha
  · obtain ⟨op, args, t, -, -, ha⟩ := hl
    exact begun ha
  · obtain ⟨op, args, t, -, -, ha⟩ := hl
    exact begun ha

/-- Settles O57: the register writes that set POLL, each at its points of a wait. -/
theorem pollTransitions : Obligations.PollTransitions := by
  unfold Obligations.PollTransitions
  intro s u hinv hstep hne
  rcases step_outcomes hstep with ⟨later, hr, rfl⟩ | ⟨later, host, -, s₀, rfl, work⟩
  · exact .inr (.inr ⟨rfl, by rw [hr]; rfl⟩)
  rcases work with ⟨rfl, -⟩ | ⟨r, -, rfl⟩ | ⟨why, -, rfl⟩ | ⟨r, q, -, -, -, -, rfl⟩ |
    ⟨-, -, -, s₁, hw, ha⟩
  · exact absurd rfl hne
  · exact absurd (hostRead_poller _ _).1 hne
  · exact absurd rfl hne
  · exact absurd rfl hne
  · rw [ha.poll] at hne
    rw [ha.poll, ha.elapsed]
    cases hw with
    | startWait => exact .inl ⟨rfl, rfl⟩
    | ready b hb h =>
      exact .inr (.inl ⟨hinv.polling (by simp) (h.imp_right .inr), .inl rfl⟩)
    | readyClear b hb h => exact .inr (.inl ⟨hinv.polling (by simp) (.inr (.inl h)), .inl rfl⟩)
    | timedOut h => exact .inr (.inl ⟨hinv.polling (by simp) h, .inr rfl⟩)
    | none | clear | store | slept => exact absurd rfl hne

theorem toNat_addInterval (e : Millis) :
    (addInterval e).toNat = min (e.toNat + 10) (2 ^ 32 - 1) := by
  rw [addInterval, BitVec.toNat_ofNat, pollIntervalMs]
  omega

/-- Settles O58: the register writes that set ELAPSED, each at its points of a wait. -/
theorem elapsedCountsPollSleeps : Obligations.ElapsedCountsPollSleeps := by
  unfold Obligations.ElapsedCountsPollSleeps
  intro s u hstep hne
  rcases step_outcomes hstep with ⟨later, hr, rfl⟩ | ⟨later, host, -, s₀, rfl, work⟩
  · exact .inl ⟨rfl, by rw [hr]; rfl⟩
  rcases work with ⟨rfl, -⟩ | ⟨r, -, rfl⟩ | ⟨why, -, rfl⟩ | ⟨r, q, -, -, -, -, rfl⟩ |
    ⟨hb, -, -, s₁, hw, ha⟩
  · exact absurd rfl hne
  · exact absurd (hostRead_poller _ _).2 hne
  · exact absurd rfl hne
  · exact absurd rfl hne
  · rw [ha.elapsed] at hne
    rw [ha.poll, ha.elapsed]
    cases hw with
    | startWait h => exact .inr (.inl ⟨rfl, rfl, hb, h⟩)
    | slept h => exact .inr (.inr ⟨toNat_addInterval _, h⟩)
    | timedOut h => exact .inr (.inr ⟨toNat_addInterval _, h⟩)
    | none | clear | store | ready | readyClear => exact absurd rfl hne

/-! ## Progress -/

/-- With the invariant, REQ spells the operation that SEQ runs, and its step is one in flight. -/
theorem State.Inv.flight {s : State} (h : s.Inv) (hb : s.busy = true)
    (hq : isQuiescent s.seq = false) :
    ∃ r i u, s.req = some r ∧ decodeRequest r = .ok i ∧ exec i s = .next u ∧ FlightStep s u := by
  have hl := h.latched
  have hidle := h.working hb
  unfold latchedFits at hl
  cases hs : s.seq with
  | idle => exact absurd hs hidle
  | faulted w => rw [hs] at hq; cases hq
  | refused w => rw [hs] at hq; cases hq
  | encode p =>
    rw [hs] at hl
    obtain ⟨op, args, hfit, hr⟩ := hl
    exact ⟨_, _, _, hr, decodeRequest_encodeWord hfit, execEncode_flight ⟨hb, hr, rfl⟩,
      advanceEncode_flight _ _ hs⟩
  | readResponse p =>
    rw [hs] at hl
    obtain ⟨len, hfit, hr, -⟩ := hl
    exact ⟨_, _, _, hr, decodeRequest_readResponseWord hfit,
      execReadResponse_flight ⟨hb, hr, rfl⟩, advanceReadResponse_flight _ hs⟩
  | decodeAck =>
    rw [hs] at hl
    exact ⟨_, _, _, hl, decodeRequest_decodeAckWord, execDecodeAck_flight ⟨hb, hl, rfl⟩,
      advanceDecodeAck_flight hs⟩
  | waitReady p =>
    rw [hs] at hl
    obtain ⟨t, hr, -⟩ := hl
    exact ⟨_, _, _, hr, decodeRequest_waitReadyWord t, execWaitReady_flight ⟨hb, hr, rfl⟩,
      advanceWaitReady_flight _ hs⟩
  | handshake p =>
    rw [hs] at hl
    obtain ⟨op, args, t, hfit, hr, -⟩ := hl
    exact ⟨_, _, _, hr, decodeRequest_sendCommandAndAckWord hfit,
      execSendCommandAndAck_flight ⟨hb, hr, rfl⟩, advanceHandshake_flight _ _ _ hs⟩
  | checkFrame =>
    rw [hs] at hl
    exact ⟨_, _, _, hl, decodeRequest_checkFrameWord, execCheckFrame_flight ⟨hb, hl, rfl⟩,
      advanceCheckFrame_flight hs⟩
  | checkResponse =>
    rw [hs] at hl
    obtain ⟨code, status, hr⟩ := hl
    exact ⟨_, _, _, hr, decodeRequest_checkResponseWord code status,
      execCheckResponse_flight ⟨hb, hr, rfl⟩, advanceCheckResponse_flight _ _ hs⟩

theorem step_of_run {s t : State} {i : Instr} (hn : s.resetIn.head? ≠ some true)
    (hw : blockWork { s with resetIn := s.resetIn.tail } = .run i t) : step s = exec i t := by
  rw [step_unasserted hn, hw]

theorem step_of_settled {s : State} {o : Host.Outcome State Fault Refusal}
    (hn : s.resetIn.head? ≠ some true)
    (hw : blockWork { s with resetIn := s.resetIn.tail } = .settled o) : step s = o := by
  rw [step_unasserted hn, hw]

theorem blockWork_latched {s : State} {r : Request} {i : Instr} (hb : s.busy = true)
    (hq : isQuiescent s.seq = false) (hr : s.req = some r) (hd : decodeRequest r = .ok i) :
    blockWork s = .run i s := by
  simp [blockWork, hb, latchedWork, hq, hr, hd]

theorem blockWork_issue {s : State} {c : Coded} {rest : List (List HostAction)}
    (hp : portReady s = true) (ha : nextAction s.host = some (.issue c, rest)) :
    blockWork s = issueWork c { s with host := rest } := by
  have hb : ¬ s.busy = true := by simp [(portReady_iff.mp hp).1]
  simp [blockWork, if_neg hb, hostWork, ha, hp]

theorem issueWork_ok {c : Coded} {i : Instr} (s : State) (hd : decode c = .ok i) :
    issueWork c s = .run i s := by
  simp [issueWork, hd]

/-- A step of the operation in flight, reset not asserted. -/
theorem step_latched_unasserted {s : State} {r : Request} {i : Instr}
    (hn : s.resetIn.head? ≠ some true) (hb : s.busy = true) (hq : isQuiescent s.seq = false)
    (hr : s.req = some r) (hd : decodeRequest r = .ok i) :
    step s = exec i { s with resetIn := s.resetIn.tail } :=
  step_of_run hn (blockWork_latched hb hq hr hd)

/-- A step that takes what the host issues, reset not asserted. -/
theorem step_issued_unasserted {s : State} {c : Coded} {rest : List (List HostAction)} {i : Instr}
    (hn : s.resetIn.head? ≠ some true) (hp : portReady s = true)
    (ha : nextAction s.host = some (.issue c, rest)) (hd : decode c = .ok i) :
    step s = exec i { s with resetIn := s.resetIn.tail, host := rest } :=
  step_of_run hn
    ((blockWork_issue (s := { s with resetIn := s.resetIn.tail }) hp ha).trans (issueWork_ok _ hd))

/-- Settles O60: a reset shortens its schedule, and a step in flight records an event. -/
theorem inFlightAlwaysProceeds : Obligations.InFlightAlwaysProceeds := by
  unfold Obligations.InFlightAlwaysProceeds
  intro s h hb hq
  by_cases hn : s.resetIn.head? = some true
  · obtain ⟨later, hl⟩ := List.head?_eq_some_iff.mp hn
    refine ⟨_, step_reset hl, fun e => ?_⟩
    have := congrArg (fun u => u.resetIn.length) e
    simp [hl] at this
  · have h₀ := h.setInputs s.host s.resetIn.tail
    obtain ⟨r, i, u, hr, hd, hx, hf⟩ := h₀.flight hb hq
    refine ⟨u, (step_latched_unasserted hn hb hq hr hd).trans hx, fun e => ?_⟩
    obtain ⟨ev, he⟩ := hf.events
    rw [e] at he
    simp at he

end Sys2Proof.Machine

/-!
PROOF. The receive buffer, the byte arithmetic and the encodings of the status outputs; then what a step
runs, what acceptance, a refusal, a host read and reset write, and what a quiescent block does
(spec/00_scope.md R10, spec/10_state.md R24, R25, R35, R36, spec/60_exceptions.md R202, R209, R216,
spec/70_reset_and_hazards.md R240, R241).
-/

namespace Sys2Proof.Machine

/-! ## The receive buffer, bytes and encodings -/

/-- Settles O43: the laws of `writeCell`. -/
theorem cellReadAfterWrite : Obligations.CellReadAfterWrite := by
  unfold Obligations.CellReadAfterWrite
  intro m k a b h
  exact ⟨wf_writeCell h, fun hk => readCell_writeCell_same hk, fun ha => readCell_writeCell_other ha⟩

/-- Settles O44: the indices listed in RX are those below RXLEN. -/
theorem cellsHoldValuesBelowLength : Obligations.CellsHoldValuesBelowLength := by
  unfold Obligations.CellsHoldValuesBelowLength
  intro s h
  refine ⟨wf_of_keys h.cells h.fits, fun i => ?_⟩
  rw [readCell_isSome, h.cells, List.mem_range]

theorem toNat_sum8 (s : List Byte) : (sum8 s).toNat = (s.map BitVec.toNat).sum % 256 := by
  induction s with
  | nil => rfl
  | cons b s ih =>
    rw [sum8, BitVec.toNat_add, ih, List.map_cons, List.sum_cons, Nat.add_mod_mod]

/-- Settles O8: `neg8` is negation mod 256, `sum8` by induction on the bytes. -/
theorem byteArithmetic : Obligations.ByteArithmetic := by
  unfold Obligations.ByteArithmetic
  refine ⟨fun v => ⟨?_, add_neg8 v⟩, toNat_sum8⟩
  rw [neg8_eq_neg, BitVec.toNat_neg]

/-- Settles O46: each value is evaluated. -/
theorem statusEncodings : Obligations.StatusEncodings := by
  unfold Obligations.StatusEncodings
  exact ⟨rfl, rfl, rfl⟩

/-- Settles O47: each register of the reset state is read off. -/
theorem resetState : Obligations.ResetState := by
  unfold Obligations.ResetState
  exact ⟨rfl, rfl, rfl, fun _ => rfl, rfl, rfl, rfl, rfl, rfl, rfl, rfl⟩

/-! ## A step runs the decoded instruction -/

/-- Settles O15: the step lemmas for the latched request and for an issue, the reset line's schedule
empty or deasserted. -/
theorem stepRunsDecoded : Obligations.StepRunsDecoded := by
  unfold Obligations.StepRunsDecoded
  refine ⟨fun s r i => step_latched, fun s c rest i => step_issued, ?_, ?_⟩
  · intro s r i later hl hb hq hr hd
    have := step_latched_unasserted (by simp [hl]) hb hq hr hd
    rwa [hl] at this
  · intro s c rest i later hl hp ha hd
    have := step_issued_unasserted (by simp [hl]) hp ha hd
    rwa [hl] at this

theorem decode_of_decodeTableWord {nbits w : Nat} {i : Instr}
    (h : decodeTableWord nbits w = some i) :
    ∃ c, tableCoded nbits w = some c ∧ decode c = .ok i := by
  unfold decodeTableWord at h
  split at h
  · cases h
  next c hc =>
    split at h
    next j hd => exact ⟨c, hc, hd.trans (congrArg _ (Option.some.inj h))⟩
    · cases h

/-- Settles O16: the word's instruction stands as the host's next action, the port ready. -/
theorem placedWordRuns : Obligations.PlacedWordRuns := by
  unfold Obligations.PlacedWordRuns
  intro s nbits w i h
  obtain ⟨c, hc, hd⟩ := decode_of_decodeTableWord h
  have hplace : s.withFetchWord nbits w = placeCoded c s := by
    simp [State.withFetchWord, placeWord, hc]
  rw [hplace]
  exact step_issued rfl rfl rfl hd

/-! ## Acceptance, waiting and refusal -/

/-- An instruction that is one request is a step of `operate` on that request. -/
theorem exec_operation {i : Instr} {r : Request} (h : encode i = .request r) :
    ∃ q f, q ≠ .idle ∧ isQuiescent q = false ∧
      ∀ s, exec i s = .next (operate i r q f s) := by
  cases i with
  | encode | readResponse | decodeAck | waitReady | sendCommandAndAck | checkFrame
  | checkResponse =>
    cases h
    exact ⟨_, _, by simp, rfl, fun s => rfl⟩
  | _ => cases h

/-- A PN532 command is a step of `carry`, with its argument bytes checked as the host gives them. -/
theorem exec_command {i : Instr} (h : isOperation i = false) :
    ∃ op args t len check, (i.wellFormed = true → argsFit args = true) ∧
      ∀ s, exec i s = .next (carry op args t len check s) := by
  cases i with
  | encode | readResponse | decodeAck | waitReady | sendCommandAndAck | checkFrame
  | checkResponse => cases h
  | firmwareVersion => exact ⟨_, [], _, _, _, fun _ => rfl, fun s => rfl⟩
  | samConfiguration | peerJumpForDep | targetInitAsTarget | targetGetData | targetSetData
  | listPassiveTarget | dataExchange | mifareReadPage | mifareWritePage | mifareAuthKeyA
  | mifareAuthKeyB =>
    exact ⟨_, _, _, _, _, fun hw => (Bool.and_eq_true_iff.mp hw).1, fun s => rfl⟩

theorem isOperation_of_encode {i : Instr} {r : Request} (h : encode i = .request r) :
    isOperation i = true := by
  simp [isOperation, h]

theorem encode_of_isOperation {i : Instr} (h : isOperation i = true) :
    ∃ r, encode i = .request r := by
  cases e : encode i with
  | request r => exact ⟨r, rfl⟩
  | command code ops => simp [isOperation, e] at h

theorem valueRefusal_of_wellFormed {i : Instr} (h : i.wellFormed = true) :
    valueRefusal i = none := by
  cases i with
  | encode | readResponse | sendCommandAndAck => exact if_pos h
  | _ => rfl

section
variable {i : Instr} {r : Request} {q : Seq} {f : State → State} {s : State}

theorem operate_accepts (hp : portReady s = true) (hv : valueRefusal i = none) :
    operate i r q f s = accept r q s := by
  simp [operate_ready hp, takeRequest, hv]

theorem operate_refuses {why : RequestRefusal} (hp : portReady s = true)
    (hv : valueRefusal i = some why) : operate i r q f s = raiseRefused why s := by
  simp [operate_ready hp, takeRequest, hv]

/-- What a step of an operation that passes its value checks can do. -/
theorem operate_admitted (hv : valueRefusal i = none) :
    operate i r q f s = accept r q s ∨
    (s.busy = true ∧ s.req = some r ∧ operate i r q f s = f s) ∨ operate i r q f s = s := by
  rcases operate_cases i r q f s with ⟨-, e, -⟩ | ⟨-, why, -, hv'⟩ | h | e
  · exact .inl e
  · rw [hv] at hv'; cases hv'
  · exact .inr (.inl h)
  · exact .inr (.inr e)

end

/-- Settles O11: the operation's step is `accept`. -/
theorem acceptanceLatchesRequest : Obligations.AcceptanceLatchesRequest := by
  unfold Obligations.AcceptanceLatchesRequest
  intro i r s he hw hp
  obtain ⟨q, f, hq, hn, hx⟩ := exec_operation he
  refine ⟨q, hq, hn, ?_⟩
  rw [hx, operate_accepts hp (valueRefusal_of_wellFormed hw)]
  rfl

/-- Settles O12: neither `operate` of another request nor `carry` does anything. -/
theorem issueWaitsWhileBusy : Obligations.IssueWaitsWhileBusy := by
  unfold Obligations.IssueWaitsWhileBusy
  intro i s hp hr
  cases hi : isOperation i with
  | true =>
    obtain ⟨r, he⟩ := encode_of_isOperation hi
    obtain ⟨q, f, -, -, hx⟩ := exec_operation he
    rw [hx, operate_waits hp (hr r he)]
  | false =>
    obtain ⟨op, args, t, len, check, -, hx⟩ := exec_command hi
    rw [hx, carry, if_neg (by simp [hp])]

theorem issueWork_refused {r : Request} {why : RequestRefusal} (s : State)
    (hd : decodeRequest r = .error why) :
    issueWork (.request r) s = .settled (.next (raiseRefused why s)) := by
  simp [issueWork, decode, hd]

/-- Settles O13: the step is `raiseRefused` with the request taken off its program. -/
theorem refusalWritesMarksOnly : Obligations.RefusalWritesMarksOnly := by
  unfold Obligations.RefusalWritesMarksOnly
  intro r why s k cur later hn hp hh hd
  have ha : nextAction s.host = some (issue r, cur :: later) := hh ▸ nextAction_ended ..
  have work := (blockWork_issue hp ha).trans (issueWork_refused _ hd)
  rw [step, nextWork_empty hn, work]
  rfl

theorem refusedAs_operate {why : RequestRefusal} {i : Instr} {r : Request} {q : Seq}
    {f : State → State} {s : State} (hp : portReady s = true) (hv : valueRefusal i = some why)
    (hx : exec i s = .next (operate i r q f s)) : RefusedAs why i s := by
  refine ⟨stopProgram s.host, fun cur later h => by rw [h]; rfl, fun h => by simp [h, stopProgram],
    ?_⟩
  rw [hx, operate_refuses hp hv]
  rfl

theorem refusedAs_carry {i : Instr} {op len : Byte} {args : List Byte} {t : Option Timeout}
    {check : Option (Byte × Bool)} {s : State} (hp : portReady s = true)
    (hfit : argsFit args = false) (hx : exec i s = .next (carry op args t len check s)) :
    RefusedAs .payloadTooLong i s := by
  refine ⟨stopProgram (continueWith (responseRequests len check) s.host),
    fun cur later h => by rw [h]; rfl, fun h => by simp [h, continueWith, stopProgram], ?_⟩
  rcases carry_cases op args t len check s with ⟨-, hfit', -⟩ | ⟨-, -, e⟩ | ⟨hp', -⟩
  · rw [hfit] at hfit'; cases hfit'
  · rw [hx, e]; rfl
  · rw [hp] at hp'; cases hp'

theorem argsFit_eq_false {p : List Byte} (h : 64 < 1 + p.length) : argsFit p = false := by
  rw [← Bool.not_eq_true, argsFit_iff]
  exact Nat.not_le.mpr h

/-- Settles O14: operations by their value check, commands by that of their handshake. -/
theorem illFormedOperationRefused : Obligations.IllFormedOperationRefused := by
  unfold Obligations.IllFormedOperationRefused
  intro s op len lead args t t' status hp
  refine ⟨fun hlong => ?payload, fun hlong => ?subcommand, fun hlong => ?length⟩
  case payload =>
    have hfit := argsFit_eq_false hlong
    exact ⟨refusedAs_operate hp (by simp [valueRefusal, hfit]) rfl,
      refusedAs_operate hp (by simp [valueRefusal, hfit]) rfl, refusedAs_carry hp hfit rfl,
      refusedAs_carry hp hfit rfl, refusedAs_carry hp hfit rfl, refusedAs_carry hp hfit rfl,
      refusedAs_carry hp hfit rfl, refusedAs_carry hp hfit rfl, refusedAs_carry hp hfit rfl⟩
  case subcommand =>
    have hfit (sub : Byte) : argsFit (lead ++ sub :: args) = false :=
      argsFit_eq_false (by simp only [List.length_append, List.length_cons]; omega)
    exact ⟨refusedAs_carry hp (hfit _) rfl, refusedAs_carry hp (hfit _) rfl,
      refusedAs_carry hp (hfit _) rfl, refusedAs_carry hp (hfit _) rfl⟩
  case length =>
    have hfit : lengthFits len = false := by
      rw [← Bool.not_eq_true, lengthFits_iff]
      exact Nat.not_le.mpr hlong
    exact refusedAs_operate hp (by simp [valueRefusal, hfit]) rfl

/-! ## Host reads -/

theorem blockWork_read {s : State} {r : HostReg} {rest : List (List HostAction)}
    (hb : s.busy = false) (ha : nextAction s.host = some (.read r, rest)) :
    blockWork s = .settled (.next (hostRead r { s with host := rest })) := by
  have hb' : ¬ s.busy = true := by simp [hb]
  simp [blockWork, if_neg hb', hostWork, ha]

theorem hostRead_ok {r : HostReg} {s : State} {v : HostValue} (h : hostValue r s = .ok v) :
    hostRead r s = { s with readOut := some v } := by
  simp [hostRead, h]

theorem hostRead_error {r : HostReg} {s : State} {w : ReadRef} (h : hostValue r s = .error w) :
    hostRead r s = raiseReadFault w s := by
  simp [hostRead, h]

/-- Settles O45: a read with a value writes `readOut`, one without raises its fault. -/
theorem hostReads : Obligations.HostReads := by
  unfold Obligations.HostReads
  intro s r k cur later hn hb hh
  have ha : nextAction s.host = some (.read r, cur :: later) := hh ▸ nextAction_ended ..
  have reads : step s = .next (hostRead r { s with host := cur :: later }) := by
    rw [step, nextWork_empty hn, blockWork_read hb ha]
  have value {v : HostValue} (hv : hostValue r s = .ok v) :
      step s = .next { s with host := cur :: later, readOut := some v } :=
    reads.trans (congrArg _ (hostRead_ok (s := { s with host := cur :: later }) hv))
  have fault {w : ReadRef} (hv : hostValue r s = .error w) :
      step s = .next { s with
        host := [] :: later, faulted := true, readFault := some w,
        events := s.events ++ [.fault w] } :=
    reads.trans (congrArg _ (hostRead_error (s := { s with host := cur :: later }) hv))
  refine ⟨?_, ?_, ?_, ?_, ?_, ?_, ?_, ?_⟩
  · rintro v rfl hv
    exact value (by simp [hostValue, hv])
  · rintro rfl hv
    exact fault (by simp [hostValue, hv])
  · rintro i b rfl hv
    exact value (by simp [hostValue, hv])
  · rintro i rfl hv
    exact fault (by simp [hostValue, hv])
  · rintro rfl
    exact value rfl
  · rintro rfl
    exact value rfl
  · rintro rfl
    exact value rfl
  · rintro rfl
    exact value (by simp [hostValue, hb])

/-! ## Reset and quiescence -/

/-- Settles O48: the step is `applyReset`. -/
theorem resetInput : Obligations.ResetInput := by
  unfold Obligations.ResetInput
  intro s later hl
  refine ⟨if s.busy then stopProgram s.host else s.host, ?_⟩
  rw [step_reset hl, applyReset]
  cases hcs : s.cs <;> rfl

section
variable {s : State}

/-- A quiescent block waits for a reset that is scheduled. -/
theorem quiescentWork_scheduled (h : true ∈ s.resetIn) : quiescentWork s = .settled (.next s) :=
  if_pos h

theorem quiescentWork_faulted {w : ReadRef} (h : true ∉ s.resetIn) (hs : s.seq = .faulted w) :
    quiescentWork s = .settled (.fault (.unwrittenRead w)) := by
  simp [quiescentWork, h, hs]

theorem quiescentWork_refused {why : RequestRefusal} (h : true ∉ s.resetIn)
    (hs : s.seq = .refused why) : quiescentWork s = .settled (.refused (.request why)) := by
  simp [quiescentWork, h, hs]

theorem quiescentWork_readFault {w : ReadRef} (h : true ∉ s.resetIn)
    (hq : isQuiescent s.seq = false) (hf : s.readFault = some w) :
    quiescentWork s = .settled (.fault (.unwrittenRead w)) := by
  unfold quiescentWork
  rw [if_neg h]
  split
  next hs => rw [hs] at hq; cases hq
  next hs => rw [hs] at hq; cases hq
  next => simp [hf]

/-- While BUSY is true, with nothing next or with a request next, a block that has faulted or refused
does what a quiescent block does. -/
theorem blockWork_quiescent
    (hnext : s.busy = true ∨ (∀ p ∈ s.host, p = []) ∨
      ∃ k c cur later, s.host = List.replicate k [] ++ (.issue c :: cur) :: later)
    (hquiet : isQuiescent s.seq = true ∨ (s.busy = false ∧ s.readFault.isSome = true)) :
    blockWork s = quiescentWork s := by
  unfold blockWork
  cases hb : s.busy with
  | true =>
    have hq : isQuiescent s.seq = true := hquiet.resolve_right (by simp [hb])
    simp [latchedWork, hq]
  | false =>
    have hp : ¬ portReady s = true := by
      rw [portReady_iff]
      rintro ⟨-, hq, hf⟩
      exact hquiet.elim (by simp [hq]) (by simp [hf])
    rcases hnext with hb' | hnone | ⟨k, c, cur, later, hh⟩
    · rw [hb] at hb'; cases hb'
    · simp [hostWork, nextAction_none hnone, hp]
    · simp [hostWork, hh, nextAction_ended, hp]

end

/-- Settles O49: the work of a quiescent block, with the reset line's value for this step taken. -/
theorem quiescentUntilReset : Obligations.QuiescentUntilReset := by
  unfold Obligations.QuiescentUntilReset
  intro s hnext
  have notAsserted (hn : true ∉ s.resetIn) : s.resetIn.head? ≠ some true :=
    fun h => hn (List.mem_of_head? h)
  have notScheduled (hn : true ∉ s.resetIn) : true ∉ s.resetIn.tail :=
    fun h => hn (List.mem_of_mem_tail h)
  have work (later : List Bool)
      (hquiet : isQuiescent s.seq = true ∨ (s.busy = false ∧ s.readFault.isSome = true)) :
      blockWork { s with resetIn := later } = quiescentWork { s with resetIn := later } :=
    blockWork_quiescent (s := { s with resetIn := later }) hnext hquiet
  refine ⟨fun later hquiet hl hmem => ?waits, fun w hw hn => ?faults, fun why hs hn => ?refuses⟩
  case waits =>
    rw [step, nextWork_deasserted hl, work later hquiet, quiescentWork_scheduled hmem]
  case faults =>
    rcases hw with hs | ⟨hb, hq, hf⟩
    · exact step_of_settled (notAsserted hn) ((work _ (.inl (by rw [hs]; rfl))).trans
        (quiescentWork_faulted (notScheduled hn) hs))
    · exact step_of_settled (notAsserted hn) ((work _ (.inr ⟨hb, by rw [hf]; rfl⟩)).trans
        (quiescentWork_readFault (notScheduled hn) hq hf))
  case refuses =>
    exact step_of_settled (notAsserted hn) ((work _ (.inl (by rw [hs]; rfl))).trans
      (quiescentWork_refused (notScheduled hn) hs))

end Sys2Proof.Machine

/-!
PROOF. The PN532 commands, the host's stop rule and the frames of the instructions
(spec/30_encoding.md R87, spec/43_pn532_commands.md, spec/40_codec.md R101, R104, R105, R107,
spec/41_poller.md R138, spec/42_handshake.md R150, R153).
-/

namespace Sys2Proof.Machine

/-! ## The PN532 commands -/

theorem timeoutOrDefault_eq_getD (t : Option Timeout) : timeoutOrDefault t = t.getD 1000 := by
  cases t <;> rfl

/-- A command whose handshake is admitted: its first request is latched, the others stand before the
rest of the host's current program. -/
theorem carry_issues {s : State} {op len : Byte} {args : List Byte} (t : Option Timeout)
    (check : Option (Byte × Bool)) {cur : List HostAction} {later : List (List HostAction)}
    (hp : portReady s = true) (hh : s.host = cur :: later ∨ s.host = [] ∧ cur = [] ∧ later = [])
    (hfit : argsFit args = true) :
    carry op args t len check s = { s with
      req := some (sendCommandAndAckWord op args (t.getD 1000)), busy := true,
      seq := .handshake (.send .select),
      host := (responseRequests len check ++ cur) :: later } := by
  have hhost : continueWith (responseRequests len check) s.host =
      (responseRequests len check ++ cur) :: later := by
    rcases hh with hh | ⟨hh, rfl, rfl⟩ <;> simp [hh, continueWith]
  rcases carry_cases op args t len check s with ⟨-, -, e⟩ | ⟨-, hfit', -⟩ | ⟨hp', -⟩
  · rw [e, hhost, timeoutOrDefault_eq_getD]
    rfl
  · rw [hfit] at hfit'; cases hfit'
  · rw [hp] at hp'; cases hp'

/-- Settles O34: `carry` without a response check. -/
theorem uncheckedCommandsIssue : Obligations.UncheckedCommandsIssue := by
  unfold Obligations.UncheckedCommandsIssue
  intro s args t len cur later hp hh hfit
  exact ⟨congrArg _ (carry_issues t none hp hh rfl), congrArg _ (carry_issues t none hp hh hfit),
    congrArg _ (carry_issues t none hp hh hfit)⟩

/-- Settles O35: `carry` with the response code of each command. -/
theorem checkedCommandsIssue : Obligations.CheckedCommandsIssue := by
  unfold Obligations.CheckedCommandsIssue
  intro s args t len status cur later hp hh hfit
  exact ⟨congrArg _ (carry_issues t (some (0x15, false)) hp hh hfit),
    congrArg _ (carry_issues t (some (0x87, status)) hp hh hfit),
    congrArg _ (carry_issues t (some (0x8F, status)) hp hh hfit),
    congrArg _ (carry_issues t (some (0x4B, false)) hp hh hfit)⟩

/-- Settles O36: `carry` of code 0x40, the sub-code among the argument bytes. -/
theorem dataExchangeCommandsIssue : Obligations.DataExchangeCommandsIssue := by
  unfold Obligations.DataExchangeCommandsIssue
  intro s lead args t len cur later hp hh
  have issues {args : List Byte} (hfit : argsFit args = true) :=
    carry_issues (s := s) (op := 0x40) (len := len) t (some (0x41, true)) hp hh hfit
  exact ⟨fun hfit => congrArg _ (issues hfit), fun hfit => congrArg _ (issues hfit),
    fun hfit => congrArg _ (issues hfit), fun hfit => congrArg _ (issues hfit),
    fun hfit => congrArg _ (issues hfit)⟩

/-- Settles O42: `carry` accepts, refuses for the payload alone, or waits. -/
theorem commandsFrame : Obligations.CommandsFrame := by
  unfold Obligations.CommandsFrame
  intro i s u hi hx
  obtain ⟨op, args, t, len, check, hwf, he⟩ := exec_command hi
  obtain rfl : carry op args t len check s = u := Host.Outcome.next.inj ((he s).symm.trans hx)
  rcases carry_cases op args t len check s with ⟨-, -, e⟩ | ⟨-, hfit, e⟩ | ⟨-, e⟩ <;> rw [e]
  · exact ⟨rfl, fun _ => ⟨rfl, rfl⟩, fun _ => rfl⟩
  · exact ⟨rfl, fun hw => absurd ((hwf hw).symm.trans hfit) (by decide), fun _ => rfl⟩
  · exact ⟨rfl, fun _ => ⟨rfl, rfl⟩, fun _ => rfl⟩

/-! ## The host's stop rule -/

/-- The host stops its program in a step that fails, and in no other. -/
def ObeysStopRule (s u : State) : Prop :=
  (Fails s u → u.host = stopProgram s.host) ∧ (¬Fails s u → u.host = s.host)

theorem not_fails_of_events_eq {s u : State} (h : u.events = s.events) : ¬Fails s u := by
  rintro ⟨e, -, he⟩
  rw [h] at he
  simp at he

theorem fails_iff_of_event {s u : State} {e : Event} (h : u.events = s.events ++ [e]) :
    Fails s u ↔ isFailure e = true := by
  constructor
  · rintro ⟨e', hf, he⟩
    rw [h, List.append_cancel_left_eq, List.singleton_inj] at he
    exact he ▸ hf
  · exact fun hf => ⟨e, hf, h⟩

/-- A step without an event leaves the programs alone. -/
theorem obeysStopRule_of_silent {s u : State} (he : u.events = s.events) (hh : u.host = s.host) :
    ObeysStopRule s u :=
  ⟨fun hf => absurd hf (not_fails_of_events_eq he), fun _ => hh⟩

theorem obeysStopRule_of_failure {s u : State} {e : Event} (he : u.events = s.events ++ [e])
    (hf : isFailure e = true) (hh : u.host = stopProgram s.host) : ObeysStopRule s u :=
  ⟨fun _ => hh, fun hn => absurd ((fails_iff_of_event he).mpr hf) hn⟩

theorem obeysStopRule_of_success {s u : State} {e : Event} (he : u.events = s.events ++ [e])
    (hf : isFailure e = false) (hh : u.host = s.host) : ObeysStopRule s u :=
  ⟨fun hn => absurd (((fails_iff_of_event he).mp hn).symm.trans hf) (by decide), fun _ => hh⟩

theorem Act.obeysStopRule {s u : State} (h : Act s u) : ObeysStopRule s u := by
  cases h with
  | cs | xfer | sleep => exact obeysStopRule_of_success rfl rfl rfl
  | fault w => exact obeysStopRule_of_failure rfl rfl rfl
  | finish c v hc =>
    by_cases hok : c = .ok
    · subst hok
      exact obeysStopRule_of_success rfl rfl rfl
    · exact obeysStopRule_of_failure rfl (by simp [isFailure, hok]) (by simp [hok])

theorem FlightStep.obeysStopRule {s u : State} (h : FlightStep s u) : ObeysStopRule s u := by
  obtain ⟨s₀, hw, ha⟩ := h
  have := ha.obeysStopRule
  cases hw <;> exact this

theorem obeysStopRule_hostRead (r : HostReg) (s : State) : ObeysStopRule s (hostRead r s) := by
  rcases hostRead_cases r s with ⟨v, e⟩ | ⟨w, e⟩ <;> rw [e]
  · exact obeysStopRule_of_silent rfl rfl
  · exact obeysStopRule_of_failure rfl rfl rfl

theorem exec_obeysStopRule {i : Instr} {s u : State} (hi : isOperation i = true)
    (hx : exec i s = .next u) : ObeysStopRule s u := by
  rcases exec_cases hx with rfl | ⟨-, r, q, hs, -, -, -, hh, rfl⟩ | ⟨-, why, hs, hh, rfl⟩ |
    ⟨-, -, hf⟩
  · exact obeysStopRule_of_silent rfl rfl
  · exact obeysStopRule_of_silent rfl (hh hi)
  · exact obeysStopRule_of_failure rfl rfl (congrArg stopProgram (hh hi))
  · exact hf.obeysStopRule

theorem ObeysStopRule.clauses {s u : State} (h : ObeysStopRule s u) :
    (Fails s u → (∀ cur later, s.host = cur :: later → u.host = [] :: later) ∧
      (s.host = [] → u.host = [])) ∧ (¬Fails s u → u.host = s.host) :=
  ⟨fun hf => ⟨fun cur later hh => by rw [h.1 hf, hh]; rfl, fun hh => by rw [h.1 hf, hh]; rfl⟩, h.2⟩

/-- A command that is accepted records nothing, and one that is refused stops the program it stood
in. -/
theorem exec_command_host {i : Instr} {s u : State} {cur : List HostAction}
    {later : List (List HostAction)} (hi : isOperation i = false) (hh : s.host = cur :: later)
    (hx : exec i s = .next u) : Fails s u → u.host = [] :: later := by
  intro hf
  obtain ⟨op, args, t, len, check, -, he⟩ := exec_command hi
  obtain rfl : carry op args t len check s = u := Host.Outcome.next.inj ((he s).symm.trans hx)
  rcases carry_cases op args t len check s with ⟨-, -, e⟩ | ⟨-, -, e⟩ | ⟨-, e⟩
  · exact absurd hf (not_fails_of_events_eq (by rw [e]; rfl))
  · rw [e, raiseRefused_host, hh]; rfl
  · exact absurd hf (not_fails_of_events_eq (by rw [e]))

/-- A quiescent block stops or waits unchanged. -/
theorem quiescentWork_cases (s : State) :
    ∃ o, quiescentWork s = .settled o ∧ ∀ u, o = .next u → u = s := by
  unfold quiescentWork
  split
  · exact ⟨_, rfl, fun u h => (Host.Outcome.next.inj h).symm⟩
  split
  · exact ⟨_, rfl, fun u h => nomatch h⟩
  · exact ⟨_, rfl, fun u h => nomatch h⟩
  split
  · exact ⟨_, rfl, fun u h => nomatch h⟩
  · exact ⟨_, rfl, fun u h => (Host.Outcome.next.inj h).symm⟩

theorem blockWork_not_ready {s : State} {c : Coded} {rest : List (List HostAction)}
    (hb : s.busy = false) (hp : portReady s = false)
    (ha : nextAction s.host = some (.issue c, rest)) : blockWork s = quiescentWork s := by
  have hb' : ¬ s.busy = true := by simp [hb]
  simp [blockWork, if_neg hb', hostWork, ha, hp]

/-- What an idle block's step does with the host's next action, `s₀` being `s` with the action and the
reset line's value taken: a read, an instruction, a refusal; or nothing while the port is not ready. -/
theorem step_next_action {s u : State} {a : HostAction} {rest : List (List HostAction)}
    (hb : s.busy = false) (hn : s.resetIn.head? ≠ some true)
    (ha : nextAction s.host = some (a, rest)) (hstep : step s = .next u) :
    ∃ s₀, s₀ = { s with resetIn := s.resetIn.tail, host := rest } ∧
      ((∃ r, a = .read r ∧ u = hostRead r s₀) ∨
        (∃ c i, a = .issue c ∧ decode c = .ok i ∧ exec i s₀ = .next u) ∨
        (∃ why, u = raiseRefused why s₀) ∨
        (portReady s = false ∧ (∃ c, a = .issue c) ∧
          u = { s with resetIn := s.resetIn.tail })) := by
  refine ⟨_, rfl, ?_⟩
  have settled {o} (hw : blockWork { s with resetIn := s.resetIn.tail } = .settled o) :
      o = .next u := (step_of_settled hn hw).symm.trans hstep
  cases a with
  | read r =>
    have work := settled (blockWork_read (s := { s with resetIn := s.resetIn.tail }) hb ha)
    exact .inl ⟨r, rfl, (Host.Outcome.next.inj work).symm⟩
  | issue c =>
    cases hp : portReady s with
    | false =>
      obtain ⟨o, hq, ho⟩ := quiescentWork_cases { s with resetIn := s.resetIn.tail }
      have work := blockWork_not_ready (s := { s with resetIn := s.resetIn.tail }) hb hp ha
      exact .inr (.inr (.inr ⟨rfl, ⟨c, rfl⟩, ho u (settled (work.trans hq))⟩))
    | true =>
      have work := blockWork_issue (s := { s with resetIn := s.resetIn.tail }) hp ha
      cases hd : decode c with
      | ok i =>
        exact .inr (.inl ⟨c, i, rfl, hd,
          (step_of_run hn (work.trans (issueWork_ok _ hd))).symm.trans hstep⟩)
      | error e =>
        simp only [issueWork, hd] at work
        cases e with
        | request why =>
          exact .inr (.inr (.inl ⟨why, (Host.Outcome.next.inj (settled work)).symm⟩))
        | command why => cases settled work

/-- Settles O38: operations and steps in flight obey the stop rule; of an idle block's step the four
cases of the host's next action do. -/
theorem hostStopsAtFirstFailure : Obligations.HostStopsAtFirstFailure := by
  unfold Obligations.HostStopsAtFirstFailure
  refine ⟨fun i s u hi hx => (exec_obeysStopRule hi hx).clauses, ?busy, ?idle⟩
  case busy =>
    intro s u hb hn hstep
    have hp := portReady_busy hb
    rcases step_outcomes hstep with ⟨later, hl, -⟩ | ⟨later, host, -, s₀, rfl, work⟩
    · rw [hl] at hn; exact absurd rfl hn
    rcases work with ⟨rfl, hh⟩ | ⟨r, hb', -⟩ | ⟨why, hp', -⟩ | ⟨r, q, hp', -⟩ |
      ⟨-, -, rfl, hf⟩
    · obtain rfl := hh hb
      exact (obeysStopRule_of_silent (s := s) rfl rfl).clauses
    · rw [hb] at hb'; cases hb'
    · rw [hp] at hp'; cases hp'
    · rw [hp] at hp'; cases hp'
    · exact hf.obeysStopRule.clauses
  case idle =>
    intro s u k a cur later hb hn hh hstep
    have ha : nextAction s.host = some (a, cur :: later) := hh ▸ nextAction_ended ..
    obtain ⟨s₀, hs₀, work⟩ := step_next_action hb hn ha hstep
    have hevents : s₀.events = s.events := by rw [hs₀]
    have hhost : s₀.host = cur :: later := by rw [hs₀]
    have fails : Fails s u ↔ Fails s₀ u := by rw [Fails, Fails, hevents]
    have clauses (h : ObeysStopRule s₀ u) :
        (Fails s u → u.host = [] :: later) ∧ (¬Fails s u → u.host = cur :: later) := by
      rw [fails]
      rw [ObeysStopRule, hhost] at h
      exact h
    rcases work with ⟨r, rfl, rfl⟩ | ⟨c, i, rfl, hd, hx⟩ | ⟨why, rfl⟩ | ⟨hp, ⟨c, rfl⟩, rfl⟩
    · exact (clauses (obeysStopRule_hostRead r s₀)).imp_right fun h hf _ => h hf
    · cases hi : isOperation i with
      | true => exact (clauses (exec_obeysStopRule hi hx)).imp_right fun h hf _ => h hf
      | false =>
        refine ⟨fun hf => exec_command_host hi hhost hx (fails.mp hf), fun _ hact => ?_⟩
        obtain ⟨r, hr⟩ | ⟨-, r, hr⟩ := hact
        · cases hr
        · cases hr
          have := isOperation_of_encode (encode_of_decodeRequest (decodeRequest_of_decode hd))
          rw [hi] at this; cases this
    · exact (clauses (obeysStopRule_of_failure rfl rfl rfl)).imp_right fun h hf _ => h hf
    · refine ⟨fun hf => absurd hf (not_fails_of_events_eq rfl), fun _ hact => ?_⟩
      obtain ⟨r, hr⟩ | ⟨hp', -⟩ := hact
      · cases hr
      · rw [hp] at hp'; cases hp'

end Sys2Proof.Machine

/-!
PROOF. The frames of the operations: what a step of each leaves unchanged (spec/40_codec.md R101, R104,
R105, R107, spec/41_poller.md R138, spec/42_handshake.md R150, R153).
-/

namespace Sys2Proof.Machine

/-! ## The operations on the received bytes -/

/-- A step of an operation without a primitive: nothing, a fault or a finish. -/
def EndsOrFaults (s u : State) : Prop :=
  u = s ∨ (∃ w, u = raiseFault w s) ∨ ∃ c v, u = finish c v s

theorem decodeAckStep_ends (s : State) : EndsOrFaults s (decodeAckStep s) := by
  unfold decodeAckStep
  split
  · exact .inr (.inl ⟨_, rfl⟩)
  split
  · exact .inr (.inl ⟨_, rfl⟩)
  split
  · exact .inr (.inr ⟨_, _, rfl⟩)
  · exact .inr (.inr ⟨_, _, rfl⟩)

theorem advanceDecodeAck_ends (s : State) : EndsOrFaults s (advanceDecodeAck s) := by
  unfold advanceDecodeAck
  split
  · exact decodeAckStep_ends s
  · exact .inl rfl

theorem advanceCheckFrame_ends (s : State) : EndsOrFaults s (advanceCheckFrame s) := by
  unfold advanceCheckFrame checkFrameStep
  split
  · split
    · exact .inr (.inl ⟨_, rfl⟩)
    · exact .inr (.inr ⟨_, _, rfl⟩)
  · exact .inl rfl

theorem advanceCheckResponse_ends (code : Byte) (status : Bool) (s : State) :
    EndsOrFaults s (advanceCheckResponse code status s) := by
  unfold advanceCheckResponse
  split
  · rcases checkResponseStep_cases code status s with h | h | h
    · exact .inr (.inl h)
    · exact .inr (.inr ⟨_, _, h⟩)
    · exact .inr (.inr ⟨_, _, h⟩)
  · exact .inl rfl

/-- Settles O39: acceptance, `finish` and a fault write the registers named, and nothing else happens in
these operations. -/
theorem checkOperationsFrame : Obligations.CheckOperationsFrame := by
  unfold Obligations.CheckOperationsFrame
  intro i s u hi hx
  have frame {r : Request} {q : Seq} {f : State → State} (hv : valueRefusal i = none)
      (hf : EndsOrFaults s (f s)) (e : operate i r q f s = u) :
      u = { s with
        result := u.result, busy := u.busy, seq := u.seq, req := u.req, faulted := u.faulted,
        refused := s.refused, events := u.events, host := u.host } ∧
      ∀ a, readCell u.rx a = readCell s.rx a := by
    subst e
    rcases operate_admitted (r := r) (q := q) (f := f) (s := s) hv with e | ⟨-, -, e⟩ | e <;> rw [e]
    · exact ⟨rfl, fun _ => rfl⟩
    · rcases hf with h | ⟨w, h⟩ | ⟨c, v, h⟩ <;> rw [h] <;> exact ⟨rfl, fun _ => rfl⟩
    · exact ⟨rfl, fun _ => rfl⟩
  rcases hi with rfl | rfl | ⟨code, status, rfl⟩
  · exact frame rfl (advanceDecodeAck_ends s) (Host.Outcome.next.inj hx)
  · exact frame rfl (advanceCheckFrame_ends s) (Host.Outcome.next.inj hx)
  · exact frame rfl (advanceCheckResponse_ends code status s) (Host.Outcome.next.inj hx)

/-! ## ENCODE and WAIT_READY -/

/-- Only the registers that ENCODE writes differ. -/
def EncodeFrame (s u : State) : Prop :=
  u = { s with
    cs := u.cs, result := u.result, busy := u.busy, seq := u.seq, req := u.req,
    events := u.events, chip := u.chip, draws := u.draws, host := u.host }

theorem advanceEncode_frame (op : Byte) (args : List Byte) (s : State) :
    EncodeFrame s (advanceEncode op args s) := by
  unfold advanceEncode
  split
  next p hq =>
    rcases sendBody_cases (encodeFrame op args) p s with ⟨p', b, e⟩ | ⟨p', o, -, e⟩ | ⟨-, e⟩ <;>
      rw [e] <;> rfl
  next => rfl

/-- Only the registers that WAIT_READY writes differ. -/
def WaitFrame (s u : State) : Prop :=
  u = { s with
    cs := u.cs, poll := u.poll, elapsed := u.elapsed, result := u.result, busy := u.busy,
    seq := u.seq, req := u.req, events := u.events, chip := u.chip, draws := u.draws,
    host := u.host }

theorem advanceWaitReady_frame (t : Timeout) (s : State) :
    WaitFrame s (advanceWaitReady t s) := by
  unfold advanceWaitReady
  split
  next p hq =>
    rcases waitBody_cases t p s with ⟨-, e⟩ | ⟨p', o, -, e⟩ | ⟨p', e⟩ | ⟨p', n, e⟩ |
      ⟨b, -, -, e⟩ | ⟨-, e⟩ | ⟨-, e⟩ <;> rw [e] <;> rfl
  next => rfl

/-- Settles O40: every outcome of the two bodies writes the registers named. -/
theorem sendAndWaitFrame : Obligations.SendAndWaitFrame := by
  unfold Obligations.SendAndWaitFrame
  refine ⟨fun op args s u hfit hx => ?encode, fun t s u hx => ?wait⟩
  case encode =>
    have hframe : EncodeFrame s u := by
      obtain rfl := Host.Outcome.next.inj hx
      have hv : valueRefusal (.encode op args) = none := if_pos hfit
      rcases operate_admitted hv with e | ⟨-, -, e⟩ | e <;> rw [e]
      · rfl
      · exact advanceEncode_frame op args s
      · rfl
    exact ⟨hframe, fun _ => by rw [hframe]⟩
  case wait =>
    have hframe : WaitFrame s u := by
      obtain rfl := Host.Outcome.next.inj hx
      rcases operate_admitted (i := .waitReady t) rfl with e | ⟨-, -, e⟩ | e <;> rw [e]
      · rfl
      · exact advanceWaitReady_frame t s
      · rfl
    exact ⟨hframe, fun _ => by rw [hframe]⟩

/-! ## READ_RESPONSE and SEND_COMMAND_AND_ACK -/

/-- Only the registers that READ_RESPONSE writes differ. -/
def ReadFrame (s u : State) : Prop :=
  u = { s with
    cs := u.cs, rx := u.rx, rxLen := u.rxLen, result := u.result, busy := u.busy, seq := u.seq,
    req := u.req, events := u.events, chip := u.chip, draws := u.draws, host := u.host }

theorem advanceReadResponse_frame (len : Byte) (s : State) :
    ReadFrame s (advanceReadResponse len s) := by
  unfold advanceReadResponse
  split
  next p hq =>
    rcases readBody_cases len.toNat p s with ⟨-, e⟩ | ⟨s₀, hs₀, h⟩ | ⟨-, e⟩
    · rw [e]; rfl
    · rcases h with ⟨p', n, e⟩ | ⟨p', o, -, e⟩ | ⟨p', e⟩ <;> rw [e] <;>
        rcases hs₀ with rfl | ⟨k, b, -, rfl⟩ <;> rfl
    · rw [e]; rfl
  next => rfl

/-- Only the registers that SEND_COMMAND_AND_ACK writes differ. -/
def HandshakeFrame (s u : State) : Prop :=
  u = { s with
    cs := u.cs, poll := u.poll, elapsed := u.elapsed, rx := u.rx, rxLen := u.rxLen,
    result := u.result, busy := u.busy, seq := u.seq, req := u.req, faulted := u.faulted,
    events := u.events, chip := u.chip, draws := u.draws, host := u.host }

/-- That is the frame of every step in flight. -/
theorem FlightStep.frame {s u : State} (h : FlightStep s u) : HandshakeFrame s u := by
  obtain ⟨s₀, hw, ha⟩ := h
  cases hw <;> cases ha <;> rfl

theorem advanceHandshake_frame (op : Byte) (args : List Byte) (t : Timeout) (s : State) :
    HandshakeFrame s (advanceHandshake op args t s) := by
  rcases advanceHandshake_cases op args t s with e | h
  · rw [e]; rfl
  · exact h.frame

/-- With six bytes in RX the end of the ACK read does not fault. -/
theorem handshakeAck_faulted {s : State} (hcells : s.rx.map Prod.fst = List.range s.rxLen)
    (hlen : s.rxLen = ackConst.length) : (handshakeAck s).faulted = s.faulted := by
  rw [handshakeAck, ← hlen, memRead_filled hcells]
  simp only
  split <;> rfl

/-- A fault of the handshake can only come from the end of the ACK read, where the invariant has six
bytes in RX. -/
theorem advanceHandshake_faulted {op : Byte} {args : List Byte} {t : Timeout} {s : State}
    (h : s.Inv) : (advanceHandshake op args t s).faulted = s.faulted := by
  have hl := h.latched
  unfold latchedFits at hl
  unfold advanceHandshake
  split
  next p hq =>
    rcases sendBody_cases (encodeFrame op args) p s with ⟨p', b, e⟩ | ⟨p', o, -, e⟩ | ⟨-, e⟩ <;>
      rw [e] <;> rfl
  next p hq =>
    rcases waitBody_cases t p s with ⟨-, e⟩ | ⟨p', o, -, e⟩ | ⟨p', e⟩ | ⟨p', n, e⟩ |
      ⟨b, -, -, e⟩ | ⟨-, e⟩ | ⟨-, e⟩ <;> rw [e] <;> rfl
  next p hq =>
    rcases readBody_cases ackConst.length p s with ⟨-, e⟩ | ⟨s₀, hs₀, h⟩ | ⟨rfl, e⟩
    · rw [e]; rfl
    · rcases h with ⟨p', n, e⟩ | ⟨p', o, -, e⟩ | ⟨p', e⟩ <;> rw [e] <;>
        rcases hs₀ with rfl | ⟨k, b, -, rfl⟩ <;> rfl
    · rw [e]
      rw [hq] at hl
      obtain ⟨op', args', t', -, -, hlen⟩ := hl
      exact handshakeAck_faulted h.cells hlen
  next p hq =>
    rcases waitBody_cases t p s with ⟨-, e⟩ | ⟨p', o, -, e⟩ | ⟨p', e⟩ | ⟨p', n, e⟩ |
      ⟨b, -, -, e⟩ | ⟨-, e⟩ | ⟨-, e⟩ <;> rw [e] <;> rfl
  next => rfl

/-- What a step does to RX: nothing, a read begins, or the byte received last is stored. -/
def RxChange (s u : State) : Prop :=
  (u.rxLen = s.rxLen ∧ ∀ a, readCell u.rx a = readCell s.rx a) ∨
  (startsRead s.seq = true ∧ u.rxLen = 0 ∧ ∀ a, readCell u.rx a = none) ∨
  (∃ k b, (s.seq = .readResponse (.got k b) ∨ s.seq = .handshake (.readAck (.got k b))) ∧
    u.rxLen = k + 1 ∧ (k < 64 → readCell u.rx k = some b) ∧
    ∀ a, a ≠ k → readCell u.rx a = readCell s.rx a)

theorem rxChange_of_eq {s u : State} (hrx : u.rx = s.rx) (hlen : u.rxLen = s.rxLen) :
    RxChange s u :=
  .inl ⟨hlen, fun a => by rw [hrx]⟩

theorem RegWrite.rxChange {s u : State} (h : RegWrite s u) : RxChange s u := by
  cases h with
  | none | startWait | ready | slept | timedOut => exact rxChange_of_eq rfl rfl
  | clear h => exact .inr (.inl ⟨by rcases h with h | h <;> rw [h] <;> rfl, rfl, fun _ => rfl⟩)
  | readyClear b hb h => exact .inr (.inl ⟨by rw [h]; exact hb, rfl, fun _ => rfl⟩)
  | store k b h =>
    exact .inr (.inr ⟨k, b, h, rfl, fun hk => readCell_writeCell_same hk,
      fun a ha => readCell_writeCell_other ha⟩)

theorem FlightStep.rxChange {s u : State} (h : FlightStep s u) : RxChange s u := by
  obtain ⟨s₀, hw, ha⟩ := h
  have := hw.rxChange
  unfold RxChange at this ⊢
  rwa [ha.rx, ha.rxLen]

/-- Settles O41: the frames of the two operations, and the register writes of a step in flight for
RX. -/
theorem receiveBufferFrame : Obligations.ReceiveBufferFrame := by
  unfold Obligations.ReceiveBufferFrame
  refine ⟨fun len s u hfit hx => ?read, fun op args t s u hfit hx => ?handshake,
    fun i s u hi hx => ?buffer⟩
  case read =>
    change ReadFrame s u
    obtain rfl := Host.Outcome.next.inj hx
    have hv : valueRefusal (.readResponse len) = none := if_pos hfit
    rcases operate_admitted hv with e | ⟨-, -, e⟩ | e <;> rw [e]
    · rfl
    · exact advanceReadResponse_frame len s
    · rfl
  case handshake =>
    obtain rfl := Host.Outcome.next.inj hx
    have hv : valueRefusal (.sendCommandAndAck op args t) = none := if_pos hfit
    unfold sendCommandAndAckState
    rcases operate_admitted hv with e | ⟨-, -, e⟩ | e <;> rw [e]
    · exact ⟨rfl, fun _ => rfl⟩
    · exact ⟨advanceHandshake_frame op args t s, advanceHandshake_faulted⟩
    · exact ⟨rfl, fun _ => rfl⟩
  case buffer =>
    rcases exec_cases hx with rfl | ⟨-, r, q, hs, -, -, -, -, rfl⟩ | ⟨-, why, hs, -, rfl⟩ |
      ⟨-, -, hf⟩
    · exact rxChange_of_eq rfl rfl
    · exact rxChange_of_eq rfl rfl
    · exact rxChange_of_eq rfl rfl
    · exact hf.rxChange

end Sys2Proof.Machine

/-!
PROOF. The operations in flight, primitive by primitive: what each body does at each of its points, and how
a step of an operation follows its body (spec/40_codec.md R101, R104, R105, R107, spec/41_poller.md R130 to
R132, spec/42_handshake.md R150, R153).
-/

namespace Sys2Proof.Machine

/-! ## The bodies at each of their points -/

section
variable {s : State}

theorem goto_xferPrim (q : Seq) (o : Byte) (s : State) :
    goto q (xferPrim o s) = { s with
      events := s.events ++ [.xfer o (answerAt s 0)], seq := q,
      chip := chipAfter s 1, draws := drawsAfter s 1 } := by
  rw [xferPrim_eq]; rfl

theorem sendByte_some {f : List Byte} {k : Nat} {b : Byte} (h : f[k]? = some b) :
    sendByte f k s = .more (.byte (k + 1)) (xferPrim b s) := by
  simp [sendByte, h]

theorem sendByte_none {f : List Byte} {k : Nat} (h : f[k]? = none) :
    sendByte f k s = .more .sent (csPrim false s) := by
  simp [sendByte, h]

theorem sendBody_lead_some (f : List Byte) {b : Byte} (h : s.config.dataWritePrefix = some b) :
    sendBody f .lead s = .more (.byte 0) (xferPrim b s) := by
  simp [sendBody, h]

theorem sendBody_lead_none (f : List Byte) (h : s.config.dataWritePrefix = none) :
    sendBody f .lead s = sendByte f 0 s := by
  simp [sendBody, h]

theorem readLoop_first {len k : Nat} (h : k < len) :
    readLoop len k 0 s = .more (.got k (answer s)) (xferPrim fillByte s) := by
  simp [readLoop, h, readByte]

theorem readLoop_next {len k : Nat} (j : Nat) (h : k < len) :
    readLoop len k (j + 1) s = .more (.byte k) (sleepPrim s.config.settleBetweenMs s) := by
  simp [readLoop, h]

theorem readLoop_end {len k : Nat} (j : Nat) (h : len ≤ k) :
    readLoop len k j s = .more .done (csPrim false s) := by
  simp [readLoop, Nat.not_lt.mpr h]

theorem readBody_lead_some (len : Nat) {b : Byte} (h : s.config.dataReadPrefix = some b) :
    readBody len .lead s = .more .led (xferPrim b s) := by
  simp [readBody, h]

theorem readBody_lead_none (len : Nat) (h : s.config.dataReadPrefix = none) :
    readBody len .lead s = readLoop len 0 0 s := by
  simp [readBody, h]

theorem waitBody_judge_ready (t : Timeout) (s : State) :
    waitBody t (.judge 0x01) s = .ended .ok { s with poll := .ready } := rfl

theorem waitBody_judge_other (t : Timeout) {b : Byte} (h : b ≠ 0x01) (s : State) :
    waitBody t (.judge b) s = .more .slept (sleepPrim 10 s) :=
  if_neg fun hr : isReady b = true => h (eq_of_beq hr)

theorem hasTimedOut_iff {t : Timeout} {e : Millis} :
    hasTimedOut t e = true ↔ t ≠ 0 ∧ t.toNat < e.toNat := by
  rw [hasTimedOut, Bool.and_eq_true, decide_eq_true_iff, decide_eq_true_iff]

theorem waitBody_slept_timedOut {t : Timeout}
    (h : t ≠ 0 ∧ t.toNat < (addInterval s.elapsed).toNat) :
    waitBody t .slept s =
      .ended .transportTimeout { s with elapsed := addInterval s.elapsed, poll := .timedOut } :=
  if_pos (hasTimedOut_iff.mpr h)

theorem waitBody_slept_goesOn {t : Timeout}
    (h : ¬(t ≠ 0 ∧ t.toNat < (addInterval s.elapsed).toNat)) :
    waitBody t .slept s = .more .command (csPrim true { s with elapsed := addInterval s.elapsed }) :=
  if_neg (mt hasTimedOut_iff.mp h)

/-! ## An operation's step follows its body -/

variable {u : State}

theorem advanceEncode_more {op : Byte} {args : List Byte} {p p' : SendPos} (hs : s.seq = .encode p)
    (e : sendBody (encodeFrame op args) p s = .more p' u) :
    advanceEncode op args s = goto (.encode p') u := by
  simp [advanceEncode, hs, e]

theorem advanceEncode_ended {op : Byte} {args : List Byte} {p : SendPos} (hs : s.seq = .encode p)
    (e : sendBody (encodeFrame op args) p s = .ended u) :
    advanceEncode op args s = finish .ok 0 u := by
  simp [advanceEncode, hs, e]

theorem advanceReadResponse_more {len : Byte} {p p' : ReadPos} (hs : s.seq = .readResponse p)
    (e : readBody len.toNat p s = .more p' u) :
    advanceReadResponse len s = goto (.readResponse p') u := by
  simp [advanceReadResponse, hs, e]

theorem advanceReadResponse_ended {len : Byte} {p : ReadPos} (hs : s.seq = .readResponse p)
    (e : readBody len.toNat p s = .ended u) : advanceReadResponse len s = finish .ok 0 u := by
  simp [advanceReadResponse, hs, e]

theorem advanceWaitReady_more {t : Timeout} {p p' : WaitPos} (hs : s.seq = .waitReady p)
    (e : waitBody t p s = .more p' u) : advanceWaitReady t s = goto (.waitReady p') u := by
  simp [advanceWaitReady, hs, e]

theorem advanceWaitReady_ended {t : Timeout} {p : WaitPos} {c : ResultCode}
    (hs : s.seq = .waitReady p) (e : waitBody t p s = .ended c u) :
    advanceWaitReady t s = finish c 0 u := by
  simp [advanceWaitReady, hs, e]

section
variable {op : Byte} {args : List Byte} {t : Timeout}

theorem advanceHandshake_send_more {p p' : SendPos} (hs : s.seq = .handshake (.send p))
    (e : sendBody (encodeFrame op args) p s = .more p' u) :
    advanceHandshake op args t s = goto (.handshake (.send p')) u := by
  simp [advanceHandshake, hs, e]

theorem advanceHandshake_send_ended {p : SendPos} (hs : s.seq = .handshake (.send p))
    (e : sendBody (encodeFrame op args) p s = .ended u) :
    advanceHandshake op args t s = handshakeWait .waitAck u := by
  simp [advanceHandshake, hs, e]

theorem advanceHandshake_readAck_more {p p' : ReadPos} (hs : s.seq = .handshake (.readAck p))
    (e : readBody ackConst.length p s = .more p' u) :
    advanceHandshake op args t s = goto (.handshake (.readAck p')) u := by
  simp [advanceHandshake, hs, e]

theorem advanceHandshake_readAck_ended {p : ReadPos} (hs : s.seq = .handshake (.readAck p))
    (e : readBody ackConst.length p s = .ended u) :
    advanceHandshake op args t s = handshakeAck u := by
  simp [advanceHandshake, hs, e]

/-- Both waits of the handshake go on in the same way. -/
theorem advanceHandshake_wait_more {pos : WaitPos → HandshakePos}
    (hpos : pos = .waitAck ∨ pos = .waitResponse) {p p' : WaitPos}
    (hs : s.seq = .handshake (pos p)) (e : waitBody t p s = .more p' u) :
    advanceHandshake op args t s = goto (.handshake (pos p')) u := by
  rcases hpos with rfl | rfl <;> simp [advanceHandshake, hs, e]

theorem advanceHandshake_waitAck_ended {p : WaitPos} {c : ResultCode}
    (hs : s.seq = .handshake (.waitAck p)) (e : waitBody t p s = .ended c u) :
    advanceHandshake op args t s =
      if c = .ok then goto (.handshake (.readAck .settle)) (readStart u)
      else finish .transportTimeout 0 u := by
  simp [advanceHandshake, hs, e]

theorem advanceHandshake_waitResponse_ended {p : WaitPos} {c : ResultCode}
    (hs : s.seq = .handshake (.waitResponse p)) (e : waitBody t p s = .ended c u) :
    advanceHandshake op args t s =
      if c = .ok then finish .ok 0 u else finish .transportTimeout 0 u := by
  simp [advanceHandshake, hs, e]

/-- A wait of the handshake that times out ends it. -/
theorem advanceHandshake_wait_timedOut {pos : WaitPos → HandshakePos}
    (hpos : pos = .waitAck ∨ pos = .waitResponse) {p : WaitPos}
    (hs : s.seq = .handshake (pos p)) (e : waitBody t p s = .ended .transportTimeout u) :
    advanceHandshake op args t s = finish .transportTimeout 0 u := by
  rcases hpos with rfl | rfl
  · exact advanceHandshake_waitAck_ended hs e
  · exact advanceHandshake_waitResponse_ended hs e

end

theorem exec_encode_more {op : Byte} {args : List Byte} {p p' : SendPos}
    (h : InFlight (encodeWord op args) (.encode p) s)
    (e : sendBody (encodeFrame op args) p s = .more p' u) :
    exec (.encode op args) s = .next (goto (.encode p') u) :=
  (execEncode_flight h).trans (congrArg _ (advanceEncode_more h.2.2 e))

theorem exec_encode_ended {op : Byte} {args : List Byte} {p : SendPos}
    (h : InFlight (encodeWord op args) (.encode p) s)
    (e : sendBody (encodeFrame op args) p s = .ended u) :
    exec (.encode op args) s = .next (finish .ok 0 u) :=
  (execEncode_flight h).trans (congrArg _ (advanceEncode_ended h.2.2 e))

theorem exec_readResponse_more {len : Byte} {p p' : ReadPos}
    (h : InFlight (readResponseWord len) (.readResponse p) s)
    (e : readBody len.toNat p s = .more p' u) :
    exec (.readResponse len) s = .next (goto (.readResponse p') u) :=
  (execReadResponse_flight h).trans (congrArg _ (advanceReadResponse_more h.2.2 e))

theorem exec_readResponse_ended {len : Byte} {p : ReadPos}
    (h : InFlight (readResponseWord len) (.readResponse p) s)
    (e : readBody len.toNat p s = .ended u) :
    exec (.readResponse len) s = .next (finish .ok 0 u) :=
  (execReadResponse_flight h).trans (congrArg _ (advanceReadResponse_ended h.2.2 e))

theorem exec_waitReady_more {t : Timeout} {p p' : WaitPos}
    (h : InFlight (waitReadyWord t) (.waitReady p) s) (e : waitBody t p s = .more p' u) :
    exec (.waitReady t) s = .next (goto (.waitReady p') u) :=
  (execWaitReady_flight h).trans (congrArg _ (advanceWaitReady_more h.2.2 e))

theorem exec_waitReady_ended {t : Timeout} {p : WaitPos} {c : ResultCode}
    (h : InFlight (waitReadyWord t) (.waitReady p) s) (e : waitBody t p s = .ended c u) :
    exec (.waitReady t) s = .next (finish c 0 u) :=
  (execWaitReady_flight h).trans (congrArg _ (advanceWaitReady_ended h.2.2 e))

end

/-! ## ENCODE and READ_RESPONSE -/

/-- Settles O17: `sendBody` at each of its points. -/
theorem encodeSteps : Obligations.EncodeSteps := by
  unfold Obligations.EncodeSteps
  intro s op args
  refine ⟨fun h => exec_encode_more h rfl, fun b h hb => ?lead, fun b h hnone hb => ?first,
    fun k b h hb => ?byte, fun h => ?deselect, fun h => ⟨_, exec_encode_ended h rfl⟩⟩
  case lead => rw [exec_encode_more h (sendBody_lead_some _ hb), goto_xferPrim]
  case first =>
    rw [exec_encode_more h ((sendBody_lead_none _ hnone).trans (sendByte_some hb)), goto_xferPrim]
  case byte => rw [exec_encode_more h (sendByte_some hb), goto_xferPrim]
  case deselect => exact exec_encode_more h (sendByte_none (by simp))

/-- Settles O19: `readBody` at each of its points. -/
theorem readResponseSteps : Obligations.ReadResponseSteps := by
  unfold Obligations.ReadResponseSteps
  intro s len
  have positive (h : len ≠ 0) : 0 < len.toNat :=
    Nat.pos_of_ne_zero fun h0 => h (BitVec.eq_of_toNat_eq h0)
  refine ⟨fun h => exec_readResponse_more h rfl, fun h => exec_readResponse_more h rfl,
    fun b h hb => ?lead, fun k h => ?byte, fun h hlen => ?led, fun h hlen => ?empty,
    fun k b h hk => ?got, fun k b h hk => ?last, fun h => ⟨_, exec_readResponse_ended h rfl⟩⟩
  case lead => rw [exec_readResponse_more h (readBody_lead_some _ hb), goto_xferPrim]
  case byte =>
    rw [← answer_eq s]
    rcases h with h | ⟨h, hnone, rfl, hlen⟩
    · rw [exec_readResponse_more h rfl, goto_xferPrim, answer_eq]; rfl
    · rw [exec_readResponse_more h
        ((readBody_lead_none _ hnone).trans (readLoop_first (positive hlen))), goto_xferPrim,
        answer_eq]
      rfl
  case led => exact exec_readResponse_more h (readLoop_next 0 (positive hlen))
  case empty =>
    subst hlen
    rcases h with h | ⟨h, hnone⟩
    · exact exec_readResponse_more h (readLoop_end 1 (Nat.zero_le _))
    · exact exec_readResponse_more h
        ((readBody_lead_none _ hnone).trans (readLoop_end 0 (Nat.zero_le _)))
  case got => exact exec_readResponse_more h (readLoop_next k hk)
  case last => exact exec_readResponse_more h (readLoop_end (k + 1) hk.ge)

/-! ## DECODE_ACK, CHECK_FRAME and CHECK_RESPONSE -/

/-- `MemRead(0, 6)` of six cells that hold values. -/
theorem memRead_six {m : List Host.Cell} {b0 b1 b2 b3 b4 b5 : Byte}
    (h0 : readCell m 0 = some b0) (h1 : readCell m 1 = some b1) (h2 : readCell m 2 = some b2)
    (h3 : readCell m 3 = some b3) (h4 : readCell m 4 = some b4) (h5 : readCell m 5 = some b5) :
    memRead m 0 ackConst.length = .ok [b0, b1, b2, b3, b4, b5] := by
  simp [ackConst, memRead, h0, h1, h2, h3, h4, h5]

theorem exec_decodeAck_step {s : State} (h : InFlight decodeAckWord .decodeAck s) :
    exec .decodeAck s = .next (decodeAckStep s) := by
  rw [execDecodeAck_flight h]
  simp [advanceDecodeAck, h.2.2]

theorem decodeAckStep_ok {s : State} {b : List Byte} (hlen : ackConst.length ≤ s.rxLen)
    (hb : memRead s.rx 0 ackConst.length = .ok b) :
    decodeAckStep s = if isAck b then finish .ok 1 s else finish .framingMismatch 0 s := by
  rw [decodeAckStep, if_neg (Nat.not_lt.mpr hlen), hb]

/-- Settles O21: too few bytes fault, else the six bytes read are compared. -/
theorem decodeAckOutcome : Obligations.DecodeAckOutcome := by
  unfold Obligations.DecodeAckOutcome
  intro s h
  rw [exec_decodeAck_step h]
  refine ⟨fun hlen => ⟨_, congrArg _ (if_pos hlen)⟩, ?_⟩
  intro b0 b1 b2 b3 b4 b5 hlen h0 h1 h2 h3 h4 h5
  rw [decodeAckStep_ok hlen (memRead_six h0 h1 h2 h3 h4 h5)]
  refine ⟨fun hb => ?_, fun hb => ?_⟩
  · rw [if_pos ((isAck_eq_true_iff _).mpr hb)]
    exact ⟨_, rfl⟩
  · rw [if_neg (mt (isAck_eq_true_iff _).mp hb)]
    exact ⟨_, rfl⟩

/-- Settles O22: with the invariant `MemRead(0, RXLEN)` gives the bytes of RX. -/
theorem checkFrameReportsVerdict : Obligations.CheckFrameReportsVerdict := by
  unfold Obligations.CheckFrameReportsVerdict
  intro s hinv h
  have hstep : advanceCheckFrame s =
      finish .ok (verdictByte (frameCheck (s.rx.map Prod.snd))) s := by
    simp [advanceCheckFrame, h.2.2, checkFrameStep, memRead_filled hinv.cells]
  rw [execCheckFrame_flight h, hstep]
  exact ⟨_, rfl⟩

theorem exec_checkResponse_step {code : Byte} {status : Bool} {s : State}
    (h : InFlight (checkResponseWord code status) .checkResponse s) :
    exec (.checkResponse code status) s = .next (checkResponseStep code status s) := by
  rw [execCheckResponse_flight h]
  simp [advanceCheckResponse, h.2.2]

/-- CHECK_RESPONSE with enough bytes, its test written out. -/
theorem checkResponseStep_eq {code b6 b7 : Byte} {status : Bool} {s : State}
    (hlen : responseNeed status ≤ s.rxLen) (h6 : readCell s.rx 6 = some b6)
    (h7 : status = true → readCell s.rx 7 = some b7) :
    checkResponseStep code status s =
      if b6 = code ∧ (status = true → b7 = 0x00) then finish .ok 0 s
      else finish .protocolStatusError 0 s := by
  rw [checkResponseStep, if_neg (Nat.not_lt.mpr hlen), h6]
  cases status with
  | false => simp [responseOk]
  | true => simp [responseOk, h7 rfl, statusOk]

/-- Settles O23: too few bytes fault, else the test of R153 decides. -/
theorem checkResponseOutcome : Obligations.CheckResponseOutcome := by
  unfold Obligations.CheckResponseOutcome
  intro s code status h
  rw [exec_checkResponse_step h]
  refine ⟨fun hlen => ⟨_, congrArg _ (if_pos hlen)⟩, fun b6 b7 hlen h6 h7 => ?_⟩
  rw [checkResponseStep_eq hlen h6 h7]
  refine ⟨fun hb => ?_, fun hb => ?_⟩
  · rw [if_pos hb]
    exact ⟨_, rfl⟩
  · rw [if_neg hb]
    exact ⟨_, rfl⟩

/-! ## WAIT_READY -/

/-- Settles O24: `waitBody` at the points of a poll. -/
theorem waitReadyPollSteps : Obligations.WaitReadyPollSteps := by
  unfold Obligations.WaitReadyPollSteps
  intro s t
  refine ⟨fun h => exec_waitReady_more h rfl, fun h => ?command, fun h => ?status,
    fun b h => exec_waitReady_more h rfl⟩
  case command => rw [exec_waitReady_more h rfl, goto_xferPrim]
  case status => rw [exec_waitReady_more h rfl, goto_xferPrim, answer_eq]; rfl

/-- Settles O25: `waitBody` with a status byte to judge. -/
theorem readyTestIsExact : Obligations.ReadyTestIsExact := by
  unfold Obligations.ReadyTestIsExact
  intro s t b h
  refine ⟨?_, fun hb => exec_waitReady_more h (waitBody_judge_other t hb s)⟩
  rintro rfl
  exact ⟨_, exec_waitReady_ended h (waitBody_judge_ready t s)⟩

/-- Settles O26: `waitBody` after a sleep. -/
theorem timeoutTestAfterSleep : Obligations.TimeoutTestAfterSleep := by
  unfold Obligations.TimeoutTestAfterSleep
  intro s t h
  exact ⟨addInterval s.elapsed, toNat_addInterval _,
    fun ht => ⟨_, exec_waitReady_ended h (waitBody_slept_timedOut ht)⟩,
    fun ht => exec_waitReady_more h (waitBody_slept_goesOn ht)⟩

/-! ## SEND_COMMAND_AND_ACK -/

theorem handshakeAck_ok {s : State} {b : List Byte} (hb : memRead s.rx 0 ackConst.length = .ok b) :
    handshakeAck s =
      if isAck b then handshakeWait .waitResponse s else finish .framingMismatch 0 s := by
  rw [handshakeAck, hb]

theorem handshakeAck_error {s : State} {i : Nat}
    (hb : memRead s.rx 0 ackConst.length = .error i) :
    handshakeAck s = raiseFault (.cell i) s := by
  rw [handshakeAck, hb]

/-- Settles O30: the bodies at the points where they end. -/
theorem handshakeStepOrder : Obligations.HandshakeStepOrder := by
  unfold Obligations.HandshakeStepOrder
  intro s op args t
  have runs {q : Seq} {u : State} (h : InFlight (sendCommandAndAckWord op args t) q s)
      (e : advanceHandshake op args t s = u) : exec (.sendCommandAndAck op args t) s = .next u :=
    (execSendCommandAndAck_flight h).trans (congrArg _ e)
  refine ⟨fun h => runs h (advanceHandshake_send_ended h.2.2 rfl),
    fun h => runs h (advanceHandshake_waitAck_ended h.2.2 (waitBody_judge_ready t s)), ?timeout,
    ?ack, fun h => ⟨_, runs h
      (advanceHandshake_waitResponse_ended h.2.2 (waitBody_judge_ready t s))⟩⟩
  case timeout =>
    intro q hq h ht hlt
    rw [← toNat_addInterval] at hlt ⊢
    exact ⟨_, _, rfl,
      runs h (advanceHandshake_wait_timedOut hq h.2.2 (waitBody_slept_timedOut ⟨ht, hlt⟩))⟩
  case ack =>
    intro b0 b1 b2 b3 b4 b5 h h0 h1 h2 h3 h4 h5
    rw [runs h (advanceHandshake_readAck_ended h.2.2 rfl),
      handshakeAck_ok (memRead_six h0 h1 h2 h3 h4 h5)]
    refine ⟨fun hb => ?_, fun hb => ?_⟩
    · rw [if_pos ((isAck_eq_true_iff _).mpr hb)]
      rfl
    · rw [if_neg (mt (isAck_eq_true_iff _).mp hb)]
      exact ⟨_, rfl⟩

end Sys2Proof.Machine

/-!
PROOF. Nothing of the latched request, of SEQ, of the host's programs or of the history reaches a body: in
a state relabelled in these the same step is taken, with the same event or one that differs in the byte
sent (spec/10_state.md R29, spec/20_memory.md R61, spec/42_handshake.md R150, spec/43_pn532_commands.md
R182).
-/

namespace Sys2Proof.Machine

/-- `s` with another request, another point of SEQ, other programs and another history. -/
def relabel (r : Option Request) (q : Seq) (h : List (List HostAction)) (es : List Event)
    (s : State) : State :=
  { s with req := r, seq := q, host := h, events := es }

/-- `u` has one more event than `s`, and REQ and the host's programs as in `s`. -/
def Records (e : Event) (s u : State) : Prop :=
  u.events = s.events ++ [e] ∧ u.req = s.req ∧ u.host = s.host

section
variable {sh : Event → Event → Prop} (refl : ∀ e, sh e e)
variable (r : Option Request) (q : Seq) (h : List (List HostAction)) (es : List Event) (s : State)

/-- A body takes the same step in `s` and in `s` relabelled, with events related by `sh`. -/
def BodiesAgree {Pos : Type} (sh : Event → Event → Prop) (x x' : BodyStep Pos) : Prop :=
  (∃ p' u e e', x = .more p' u ∧ x' = .more p' (relabel r q h (es ++ [e']) u) ∧ Records e s u ∧
    sh e e') ∨
  (x = .ended s ∧ x' = .ended (relabel r q h es s))

include refl

theorem sendBody_relabel {f f' : List Byte} (hlen : f.length = f'.length)
    (hsent : ∀ (k : Nat) b b' a, f[k]? = some b → f'[k]? = some b' → sh (.xfer b a) (.xfer b' a))
    (p : SendPos) :
    BodiesAgree r q h es s sh (sendBody f p s) (sendBody f' p (relabel r q h es s)) := by
  have byte (k : Nat) :
      BodiesAgree r q h es s sh (sendByte f k s) (sendByte f' k (relabel r q h es s)) := by
    by_cases hk : k < f.length
    · have hb := List.getElem?_eq_getElem hk
      have hb' := List.getElem?_eq_getElem (hlen ▸ hk)
      rw [sendByte_some hb, sendByte_some hb']
      exact .inl ⟨_, _, _, _, rfl, rfl, ⟨rfl, rfl, rfl⟩, hsent k _ _ _ hb hb'⟩
    · rw [sendByte_none (List.getElem?_eq_none (Nat.not_lt.mp hk)),
        sendByte_none (List.getElem?_eq_none (hlen ▸ Nat.not_lt.mp hk))]
      exact .inl ⟨_, _, _, _, rfl, rfl, ⟨rfl, rfl, rfl⟩, refl _⟩
  cases p with
  | select => exact .inl ⟨_, _, _, _, rfl, rfl, ⟨rfl, rfl, rfl⟩, refl _⟩
  | lead =>
    cases hp : s.config.dataWritePrefix with
    | some b =>
      rw [sendBody_lead_some f hp, sendBody_lead_some f' (s := relabel r q h es s) hp]
      exact .inl ⟨_, _, _, _, rfl, rfl, ⟨rfl, rfl, rfl⟩, refl _⟩
    | none =>
      rw [sendBody_lead_none f hp, sendBody_lead_none f' (s := relabel r q h es s) hp]
      exact byte 0
  | byte k => exact byte k
  | sent => exact .inr ⟨rfl, rfl⟩

theorem readBody_relabel (len : Nat) (p : ReadPos) :
    BodiesAgree r q h es s sh (readBody len p s) (readBody len p (relabel r q h es s)) := by
  have loop {s₀ : State} (k j : Nat) (h₀ : s₀.events = s.events ∧ s₀.req = s.req ∧ s₀.host = s.host) :
      BodiesAgree r q h es s sh (readLoop len k j s₀) (readLoop len k j (relabel r q h es s₀)) := by
    obtain ⟨he, hr, hh⟩ := h₀
    unfold readLoop
    split
    · split
      · exact .inl ⟨_, _, _, _, rfl, rfl, ⟨congrArg (· ++ _) he, hr, hh⟩, refl _⟩
      · exact .inl ⟨_, _, _, _, rfl, rfl, ⟨congrArg (· ++ _) he, hr, hh⟩, refl _⟩
    · exact .inl ⟨_, _, _, _, rfl, rfl, ⟨congrArg (· ++ _) he, hr, hh⟩, refl _⟩
  cases p with
  | select | settle | byte => exact .inl ⟨_, _, _, _, rfl, rfl, ⟨rfl, rfl, rfl⟩, refl _⟩
  | lead =>
    cases hp : s.config.dataReadPrefix with
    | some b =>
      rw [readBody_lead_some len hp, readBody_lead_some len (s := relabel r q h es s) hp]
      exact .inl ⟨_, _, _, _, rfl, rfl, ⟨rfl, rfl, rfl⟩, refl _⟩
    | none =>
      rw [readBody_lead_none len hp, readBody_lead_none len (s := relabel r q h es s) hp]
      exact loop 0 0 ⟨rfl, rfl, rfl⟩
  | led => exact loop 0 1 ⟨rfl, rfl, rfl⟩
  | got k b => exact loop (s₀ := storeRx k b s) (k + 1) (k + 1) ⟨rfl, rfl, rfl⟩
  | done => exact .inr ⟨rfl, rfl⟩

/-- A wait takes the same step in `s` and in `s` relabelled. -/
theorem waitBody_relabel (t : Timeout) (p : WaitPos) :
    (∃ p' u e e', waitBody t p s = .more p' u ∧
      waitBody t p (relabel r q h es s) = .more p' (relabel r q h (es ++ [e']) u) ∧
      Records e s u ∧ sh e e') ∨
    (∃ c u, waitBody t p s = .ended c u ∧
      waitBody t p (relabel r q h es s) = .ended c (relabel r q h es u) ∧
      u.events = s.events ∧ u.req = s.req ∧ u.host = s.host) := by
  cases p with
  | first | command | status | release =>
    exact .inl ⟨_, _, _, _, rfl, rfl, ⟨rfl, rfl, rfl⟩, refl _⟩
  | judge b =>
    by_cases hb : isReady b = true
    · exact .inr ⟨_, _, if_pos hb, if_pos hb, rfl, rfl, rfl⟩
    · exact .inl ⟨_, _, _, _, if_neg hb, if_neg hb, ⟨rfl, rfl, rfl⟩, refl _⟩
  | slept =>
    by_cases ht : hasTimedOut t (addInterval s.elapsed) = true
    · exact .inr ⟨_, _, if_pos ht, if_pos ht, rfl, rfl, rfl⟩
    · exact .inl ⟨_, _, _, _, if_neg ht, if_neg ht, ⟨rfl, rfl, rfl⟩, refl _⟩

end

/-! ## The operations -/

/-- From `s` to `u` and from `s` relabelled to `u'` the same step is taken, with events related by `sh`. -/
def StepsAgree (sh : Event → Event → Prop) (r : Option Request) (h : List (List HostAction))
    (es : List Event) (s u u' : State) : Prop :=
  ∃ e e' h', u.events = s.events ++ [e] ∧ u.req = s.req ∧ u' = relabel r u.seq h' (es ++ [e']) u ∧
    (h = s.host → h' = u.host) ∧ sh e e'

section
variable {sh : Event → Event → Prop} (refl : ∀ e, sh e e)
variable {r : Option Request} {q : Seq} {h : List (List HostAction)} {es : List Event} {s : State}

theorem stepsAgree_goto {u : State} {e e' : Event} (hu : Records e s u) (hsh : sh e e') (q' : Seq) :
    StepsAgree sh r h es s (goto q' u) (goto q' (relabel r q h (es ++ [e']) u)) :=
  ⟨e, e', h, hu.1, hu.2.1, rfl, fun hh => hh.trans hu.2.2.symm, hsh⟩

include refl

/-- The handshake passes to a read whose first primitive it makes at once. -/
theorem stepsAgree_readStart {u : State}
    (hu : u.events = s.events ∧ u.req = s.req ∧ u.host = s.host) (q' : Seq) :
    StepsAgree sh r h es s (goto q' (readStart u)) (goto q' (readStart (relabel r q h es u))) :=
  ⟨_, _, h, congrArg (· ++ _) hu.1, hu.2.1, rfl, fun hh => hh.trans hu.2.2.symm, refl _⟩

theorem stepsAgree_handshakeWait (pos : WaitPos → HandshakePos) :
    StepsAgree sh r h es s (handshakeWait pos s) (handshakeWait pos (relabel r q h es s)) :=
  ⟨_, _, h, rfl, rfl, rfl, fun hh => hh, refl _⟩

theorem stepsAgree_finish {u : State} (hu : u.events = s.events ∧ u.req = s.req ∧ u.host = s.host)
    (c : ResultCode) (v : Byte) :
    StepsAgree sh r h es s (finish c v u) (finish c v (relabel r q h es u)) :=
  ⟨_, _, _, congrArg (· ++ _) hu.1, hu.2.1, rfl, fun hh => by rw [finish_host, hu.2.2, hh]; rfl,
    refl _⟩

theorem stepsAgree_raiseFault (w : ReadRef) :
    StepsAgree sh r h es s (raiseFault w s) (raiseFault w (relabel r q h es s)) :=
  ⟨_, _, _, rfl, rfl, rfl, fun hh => by rw [raiseFault_host, hh]; rfl, refl _⟩

theorem stepsAgree_handshakeAck :
    StepsAgree sh r h es s (handshakeAck s) (handshakeAck (relabel r q h es s)) := by
  cases hb : memRead s.rx 0 ackConst.length with
  | error i =>
    rw [handshakeAck_error hb, handshakeAck_error (s := relabel r q h es s) hb]
    exact stepsAgree_raiseFault refl _
  | ok b =>
    rw [handshakeAck_ok hb, handshakeAck_ok (s := relabel r q h es s) hb]
    split
    · exact stepsAgree_handshakeWait refl _
    · exact stepsAgree_finish refl ⟨rfl, rfl, rfl⟩ _ _

/-- One step of two handshakes with the same timeout and frames of the same length. -/
theorem advanceHandshake_agrees {op op' : Byte} {args args' : List Byte} (t : Timeout)
    {p : HandshakePos} (hs : s.seq = .handshake p) (hlen : args.length = args'.length)
    (hsent : ∀ (k : Nat) b b' a, (encodeFrame op args)[k]? = some b →
      (encodeFrame op' args')[k]? = some b' → sh (.xfer b a) (.xfer b' a)) :
    StepsAgree sh r h es s (advanceHandshake op args t s)
      (advanceHandshake op' args' t (relabel r (.handshake p) h es s)) := by
  cases p with
  | send p =>
    rcases sendBody_relabel refl r (.handshake (.send p)) h es s
        (f := encodeFrame op args) (f' := encodeFrame op' args') (by simp [hlen]) hsent p with
      ⟨p', u, e, e', hx, hx', hu, hsh⟩ | ⟨hx, hx'⟩
    · rw [advanceHandshake_send_more hs hx, advanceHandshake_send_more rfl hx']
      exact stepsAgree_goto hu hsh _
    · rw [advanceHandshake_send_ended hs hx, advanceHandshake_send_ended rfl hx']
      exact stepsAgree_handshakeWait refl _
  | waitAck p =>
    rcases waitBody_relabel refl r (.handshake (.waitAck p)) h es s t p with
      ⟨p', u, e, e', hx, hx', hu, hsh⟩ | ⟨c, u, hx, hx', hu⟩
    · rw [advanceHandshake_wait_more (.inl rfl) hs hx,
        advanceHandshake_wait_more (.inl rfl) rfl hx']
      exact stepsAgree_goto hu hsh _
    · rw [advanceHandshake_waitAck_ended hs hx, advanceHandshake_waitAck_ended rfl hx']
      split
      · exact stepsAgree_readStart refl hu _
      · exact stepsAgree_finish refl hu _ _
  | readAck p =>
    rcases readBody_relabel refl r (.handshake (.readAck p)) h es s ackConst.length p with
      ⟨p', u, e, e', hx, hx', hu, hsh⟩ | ⟨hx, hx'⟩
    · rw [advanceHandshake_readAck_more hs hx, advanceHandshake_readAck_more rfl hx']
      exact stepsAgree_goto hu hsh _
    · rw [advanceHandshake_readAck_ended hs hx, advanceHandshake_readAck_ended rfl hx']
      exact stepsAgree_handshakeAck refl
  | waitResponse p =>
    rcases waitBody_relabel refl r (.handshake (.waitResponse p)) h es s t p with
      ⟨p', u, e, e', hx, hx', hu, hsh⟩ | ⟨c, u, hx, hx', hu⟩
    · rw [advanceHandshake_wait_more (.inr rfl) hs hx,
        advanceHandshake_wait_more (.inr rfl) rfl hx']
      exact stepsAgree_goto hu hsh _
    · rw [advanceHandshake_waitResponse_ended hs hx, advanceHandshake_waitResponse_ended rfl hx']
      split
      · exact stepsAgree_finish refl hu _ _
      · exact stepsAgree_finish refl hu _ _

end

/-- Settles O33: the two handshakes' steps agree up to the byte sent. -/
theorem noCodeDependentBehaviour : Obligations.NoCodeDependentBehaviour := by
  unfold Obligations.NoCodeDependentBehaviour
  intro s op op' args args' t es p hlen hf
  have hf' : InFlight (sendCommandAndAckWord op' args' t) (.handshake p)
      (relabel (some (sendCommandAndAckWord op' args' t)) (.handshake p) s.host es s) :=
    ⟨hf.1, rfl, rfl⟩
  have hs : { s with req := some (sendCommandAndAckWord op' args' t), events := es } =
      relabel (some (sendCommandAndAckWord op' args' t)) (.handshake p) s.host es s := by
    rw [relabel, ← hf.2.2]
  have shape (e : Event) : sameShape e e := by cases e <;> rfl
  obtain ⟨e, e', h', he, -, hu', hh, hsh⟩ :=
    advanceHandshake_agrees shape (r := some (sendCommandAndAckWord op' args' t)) (h := s.host)
      (es := es) (op := op) (op' := op') t hf.2.2 hlen (fun _ _ _ _ _ _ => rfl)
  refine ⟨advanceHandshake op args t s, e, e', ?_, ?_, hsh⟩
  · rw [execSendCommandAndAck_flight hf, ← he]
  · rw [hs, execSendCommandAndAck_flight hf', hu', hh rfl]
    rfl

end Sys2Proof.Machine

/-!
PROOF. The handshake's bodies are those of ENCODE, WAIT_READY and READ_RESPONSE (spec/42_handshake.md
R150), and the host's programs do not reach an operation in flight (spec/10_state.md R29,
spec/20_memory.md R61).
-/

namespace Sys2Proof.Machine

/-! ## The bodies inside the handshake -/

/-- A state relabelled and labelled back, but for the history and the programs it was relabelled
with. -/
theorem goto_eq_labelled_back {s u : State} {e : Event} (hu : Records e s u) (r : Option Request)
    (q q' q'' : Seq) :
    goto q' u = { goto q'' (relabel r q s.host (s.events ++ [e]) u) with
      req := s.req, seq := q' } := by
  obtain ⟨he, hr, hh⟩ := hu
  rw [← he, ← hr, ← hh]
  rfl

/-- Settles O31: relabelled with the request and the point of the other operation, the state takes the
same step of the body. -/
theorem handshakeRunsTheBodies : Obligations.HandshakeRunsTheBodies := by
  unfold Obligations.HandshakeRunsTheBodies
  intro s u op args t
  have refl (e : Event) : e = e := rfl
  have runs {q : Seq} {v : State} (h : InFlight (sendCommandAndAckWord op args t) q s)
      (e : advanceHandshake op args t s = v) : exec (.sendCommandAndAck op args t) s = .next v :=
    (execSendCommandAndAck_flight h).trans (congrArg _ e)
  refine ⟨fun p p' hf hx hp => ?send, fun pos p p' hpos hf hx hp => ?wait,
    fun p p' hf hx hp => ?read⟩
  case send =>
    have hf' : InFlight (encodeWord op args) (.encode p)
        (relabel (some (encodeWord op args)) (.encode p) s.host s.events s) := ⟨hf.1, rfl, rfl⟩
    rcases sendBody_relabel refl (some (encodeWord op args)) (.encode p) s.host s.events s
        (f := encodeFrame op args) rfl (fun k b b' a h h' => by rw [h] at h'; cases h'; rfl) p with
      ⟨p₁, v, e, _, hv, hv', hu, rfl⟩ | ⟨-, hv'⟩
    · obtain rfl := Host.Outcome.next.inj ((exec_encode_more hf' hv').symm.trans hx)
      cases hp
      rw [runs hf (advanceHandshake_send_more hf.2.2 hv)]
      exact congrArg _ (goto_eq_labelled_back hu _ _ _ _)
    · obtain rfl := Host.Outcome.next.inj ((exec_encode_ended hf' hv').symm.trans hx)
      cases hp
  case wait =>
    have hf' : InFlight (waitReadyWord t) (.waitReady p)
        (relabel (some (waitReadyWord t)) (.waitReady p) s.host s.events s) := ⟨hf.1, rfl, rfl⟩
    rcases waitBody_relabel refl (some (waitReadyWord t)) (.waitReady p) s.host s.events s t p with
      ⟨p₁, v, e, _, hv, hv', hu, rfl⟩ | ⟨c, v, -, hv', -⟩
    · obtain rfl := Host.Outcome.next.inj ((exec_waitReady_more hf' hv').symm.trans hx)
      cases hp
      rw [runs hf (advanceHandshake_wait_more hpos hf.2.2 hv)]
      exact congrArg _ (goto_eq_labelled_back hu _ _ _ _)
    · obtain rfl := Host.Outcome.next.inj ((exec_waitReady_ended hf' hv').symm.trans hx)
      cases hp
  case read =>
    have hf' : InFlight (readResponseWord 6) (.readResponse p)
        (relabel (some (readResponseWord 6)) (.readResponse p) s.host s.events s) := ⟨hf.1, rfl, rfl⟩
    rcases readBody_relabel refl (some (readResponseWord 6)) (.readResponse p) s.host s.events s
        ackConst.length p with ⟨p₁, v, e, _, hv, hv', hu, rfl⟩ | ⟨-, hv'⟩
    · obtain rfl := Host.Outcome.next.inj ((exec_readResponse_more hf' hv').symm.trans hx)
      cases hp
      rw [runs hf (advanceHandshake_readAck_more hf.2.2 hv)]
      exact congrArg _ (goto_eq_labelled_back hu _ _ _ _)
    · obtain rfl := Host.Outcome.next.inj ((exec_readResponse_ended hf' hv').symm.trans hx)
      cases hp

/-! ## The host's programs -/

/-- `s` with other host programs. -/
def setHost (h : List (List HostAction)) (s : State) : State := { s with host := h }

/-- With other host programs `f` leads to the same state but for the programs. -/
def HostBlind (f : State → State) : Prop :=
  ∀ s h, ∃ h', f (setHost h s) = setHost h' (f s)

/-- Steps that agree in a state relabelled in its programs alone differ in the programs alone. -/
theorem StepsAgree.host_only {h : List (List HostAction)} {s u u' : State}
    (a : StepsAgree Eq s.req h s.events s u u') : ∃ h', u' = setHost h' u := by
  obtain ⟨e, _, h', he, hr, rfl, -, rfl⟩ := a
  refine ⟨h', ?_⟩
  rw [relabel, ← he, ← hr]
  rfl

/-- Frames that are the same send the same bytes. -/
theorem xfer_eq_of_getElem? (f : List Byte) (k : Nat) (b b' a : Byte) (h : f[k]? = some b)
    (h' : f[k]? = some b') : Event.xfer b a = .xfer b' a := by
  rw [Option.some.inj (h.symm.trans h')]

theorem hostBlind_advanceEncode (op : Byte) (args : List Byte) :
    HostBlind (advanceEncode op args) := by
  intro s h
  cases hs : s.seq with
  | encode p =>
    apply StepsAgree.host_only (h := h)
    rcases sendBody_relabel (fun _ => rfl) s.req s.seq h s.events s rfl
        (xfer_eq_of_getElem? (encodeFrame op args)) p with
      ⟨p', u, e, e', hx, hx', hu, hsh⟩ | ⟨hx, hx'⟩
    · rw [advanceEncode_more hs hx, advanceEncode_more (s := setHost h s) hs hx']
      exact stepsAgree_goto hu hsh _
    · rw [advanceEncode_ended hs hx, advanceEncode_ended (s := setHost h s) hs hx']
      exact stepsAgree_finish (fun _ => rfl) ⟨rfl, rfl, rfl⟩ _ _
  | _ => exact ⟨h, by simp [advanceEncode, setHost, hs]⟩

theorem hostBlind_advanceReadResponse (len : Byte) : HostBlind (advanceReadResponse len) := by
  intro s h
  cases hs : s.seq with
  | readResponse p =>
    apply StepsAgree.host_only (h := h)
    rcases readBody_relabel (fun _ => rfl) s.req s.seq h s.events s len.toNat p with
      ⟨p', u, e, e', hx, hx', hu, hsh⟩ | ⟨hx, hx'⟩
    · rw [advanceReadResponse_more hs hx, advanceReadResponse_more (s := setHost h s) hs hx']
      exact stepsAgree_goto hu hsh _
    · rw [advanceReadResponse_ended hs hx, advanceReadResponse_ended (s := setHost h s) hs hx']
      exact stepsAgree_finish (fun _ => rfl) ⟨rfl, rfl, rfl⟩ _ _
  | _ => exact ⟨h, by simp [advanceReadResponse, setHost, hs]⟩

theorem hostBlind_advanceWaitReady (t : Timeout) : HostBlind (advanceWaitReady t) := by
  intro s h
  cases hs : s.seq with
  | waitReady p =>
    apply StepsAgree.host_only (h := h)
    rcases waitBody_relabel (fun _ => rfl) s.req s.seq h s.events s t p with
      ⟨p', u, e, e', hx, hx', hu, hsh⟩ | ⟨c, u, hx, hx', hu⟩
    · rw [advanceWaitReady_more hs hx, advanceWaitReady_more (s := setHost h s) hs hx']
      exact stepsAgree_goto hu hsh _
    · rw [advanceWaitReady_ended hs hx, advanceWaitReady_ended (s := setHost h s) hs hx']
      exact stepsAgree_finish (fun _ => rfl) hu _ _
  | _ => exact ⟨h, by simp [advanceWaitReady, setHost, hs]⟩

theorem hostBlind_advanceHandshake (op : Byte) (args : List Byte) (t : Timeout) :
    HostBlind (advanceHandshake op args t) := by
  intro s h
  cases hs : s.seq with
  | handshake p =>
    have agree := advanceHandshake_agrees (sh := Eq) (r := s.req) (h := h) (es := s.events)
      (fun _ => rfl) t hs rfl (xfer_eq_of_getElem? (encodeFrame op args))
    rw [← hs] at agree
    exact agree.host_only
  | _ => exact ⟨h, by simp [advanceHandshake, setHost, hs]⟩

theorem raiseFault_setHost (w : ReadRef) (s : State) (h : List (List HostAction)) :
    ∃ h', raiseFault w (setHost h s) = setHost h' (raiseFault w s) := ⟨_, rfl⟩

theorem finish_setHost (c : ResultCode) (v : Byte) (s : State) (h : List (List HostAction)) :
    ∃ h', finish c v (setHost h s) = setHost h' (finish c v s) := ⟨_, rfl⟩

@[simp] theorem setHost_rx (h : List (List HostAction)) (s : State) : (setHost h s).rx = s.rx := rfl
@[simp] theorem setHost_rxLen (h : List (List HostAction)) (s : State) :
    (setHost h s).rxLen = s.rxLen := rfl
@[simp] theorem setHost_seq (h : List (List HostAction)) (s : State) : (setHost h s).seq = s.seq := rfl

theorem hostBlind_decodeAckStep : HostBlind decodeAckStep := by
  intro s h
  by_cases hlen : s.rxLen < ackConst.length
  · simp [decodeAckStep, hlen, raiseFault_setHost]
  cases hm : memRead s.rx 0 ackConst.length with
  | error i =>
    simp [decodeAckStep, hlen, hm, raiseFault_setHost]
  | ok b =>
    cases ha : isAck b <;>
      simp [decodeAckStep, hlen, hm, ha, finish_setHost]

theorem hostBlind_advanceDecodeAck : HostBlind advanceDecodeAck := by
  intro s h
  cases hs : s.seq with
  | decodeAck => simpa [advanceDecodeAck, hs] using hostBlind_decodeAckStep s h
  | _ => exact ⟨h, by simp [advanceDecodeAck, hs]⟩

theorem hostBlind_checkFrameStep : HostBlind checkFrameStep := by
  intro s h
  cases hm : memRead s.rx 0 s.rxLen with
  | error i => simp only [checkFrameStep, setHost_rxLen, setHost_rx, hm, raiseFault_setHost]
  | ok b => simp only [checkFrameStep, setHost_rxLen, setHost_rx, hm, finish_setHost]

theorem hostBlind_advanceCheckFrame : HostBlind advanceCheckFrame := by
  intro s h
  cases hs : s.seq with
  | checkFrame => simpa [advanceCheckFrame, hs] using hostBlind_checkFrameStep s h
  | _ => exact ⟨h, by simp [advanceCheckFrame, hs]⟩

theorem hostBlind_checkResponseStep (code : Byte) (status : Bool) :
    HostBlind (checkResponseStep code status) := by
  intro s h
  by_cases hlen : s.rxLen < responseNeed status
  · simp [checkResponseStep, hlen, raiseFault_setHost]
  cases h6 : readCell s.rx 6 with
  | none => simp [checkResponseStep, hlen, h6, raiseFault_setHost]
  | some b =>
    cases status with
    | false =>
      cases ho : responseOk code b none <;> simp [checkResponseStep, hlen, h6, ho, finish_setHost]
    | true =>
      cases h7 : readCell s.rx 7 with
      | none => simp [checkResponseStep, hlen, h6, h7, raiseFault_setHost]
      | some b' =>
        cases ho : responseOk code b (some b') <;>
          simp [checkResponseStep, hlen, h6, h7, ho, finish_setHost]

theorem hostBlind_advanceCheckResponse (code : Byte) (status : Bool) :
    HostBlind (advanceCheckResponse code status) := by
  intro s h
  cases hs : s.seq with
  | checkResponse =>
    simpa [advanceCheckResponse, hs] using hostBlind_checkResponseStep code status s h
  | _ => exact ⟨h, by simp [advanceCheckResponse, hs]⟩

/-- An operation in flight is stepped by a function that does not look at the host's programs. -/
theorem exec_hostBlind {i : Instr} {r : Request} {s : State} (hi : encode i = .request r)
    (hb : s.busy = true) (hr : s.req = some r) (h : List (List HostAction)) :
    ∃ u h', exec i s = .next u ∧ exec i (setHost h s) = .next (setHost h' u) := by
  have blind {f : State → State} (hf : HostBlind f)
      (hx : ∀ h, exec i (setHost h s) = .next (f (setHost h s))) :
      ∃ u h', exec i s = .next u ∧ exec i (setHost h s) = .next (setHost h' u) := by
    obtain ⟨h', e⟩ := hf s h
    exact ⟨_, h', hx s.host, (hx h).trans (congrArg _ e)⟩
  cases i with
  | encode op args =>
    cases hi
    exact blind (hostBlind_advanceEncode op args) fun h => execEncode_flight ⟨hb, hr, rfl⟩
  | readResponse len =>
    cases hi
    exact blind (hostBlind_advanceReadResponse len) fun h =>
      execReadResponse_flight ⟨hb, hr, rfl⟩
  | decodeAck =>
    cases hi
    exact blind hostBlind_advanceDecodeAck fun h => execDecodeAck_flight ⟨hb, hr, rfl⟩
  | waitReady t =>
    cases hi
    exact blind (hostBlind_advanceWaitReady t) fun h => execWaitReady_flight ⟨hb, hr, rfl⟩
  | sendCommandAndAck op args t =>
    cases hi
    exact blind (hostBlind_advanceHandshake op args t) fun h =>
      execSendCommandAndAck_flight ⟨hb, hr, rfl⟩
  | checkFrame =>
    cases hi
    exact blind hostBlind_advanceCheckFrame fun h => execCheckFrame_flight ⟨hb, hr, rfl⟩
  | checkResponse code status =>
    cases hi
    exact blind (hostBlind_advanceCheckResponse code status) fun h =>
      execCheckResponse_flight ⟨hb, hr, rfl⟩
  | _ => cases hi

theorem quiescentWork_setHost_next {s u : State} (h : List (List HostAction))
    (hw : quiescentWork s = .settled (.next u)) :
    u = s ∧ quiescentWork (setHost h s) = .settled (.next (setHost h s)) := by
  by_cases hr : true ∈ s.resetIn
  · simp_all [quiescentWork, setHost]
  · cases hq : s.seq <;> cases hf : s.readFault <;> simp_all [quiescentWork, setHost]

/-- A busy block that is not quiescent stays as it is if its request spells no operation. -/
theorem blockWork_resting {s : State} (hb : s.busy = true) (hq : ¬ isQuiescent s.seq = true)
    (hd : ∀ r i, s.req = some r → decodeRequest r ≠ .ok i) : blockWork s = .settled (.next s) := by
  rw [blockWork, if_pos hb, latchedWork, if_neg hq]
  cases hr : s.req with
  | none => rfl
  | some r =>
    cases hd' : decodeRequest r with
    | ok i => exact absurd hd' (hd r i hr)
    | error e => simp only [hd']

/-- A busy block's work: the latched operation's step, or the block stops or stays as it is, whatever
the host's programs. -/
theorem blockWork_busy_cases {s : State} (hb : s.busy = true) (h : List (List HostAction)) :
    (∃ r i, s.req = some r ∧ decodeRequest r = .ok i ∧ blockWork s = .run i s ∧
      blockWork (setHost h s) = .run i (setHost h s)) ∨
    (∃ o, blockWork s = .settled o ∧ ∀ u, o = .next u →
      u = s ∧ blockWork (setHost h s) = .settled (.next (setHost h s))) := by
  by_cases hq : isQuiescent s.seq = true
  · have quiet (h) : blockWork (setHost h s) = quiescentWork (setHost h s) :=
      (if_pos hb).trans (if_pos hq)
    obtain ⟨o, e, -⟩ := quiescentWork_cases s
    exact .inr ⟨o, (quiet s.host).trans e, fun u hu => (quiet h).symm ▸
      quiescentWork_setHost_next h (e.trans (congrArg _ hu))⟩
  by_cases hd : ∃ r i, s.req = some r ∧ decodeRequest r = .ok i
  · obtain ⟨r, i, hr, hd⟩ := hd
    have hq : isQuiescent s.seq = false := eq_false_of_ne_true hq
    exact .inl ⟨r, i, hr, hd, blockWork_latched hb hq hr hd,
      blockWork_latched (s := setHost h s) hb hq hr hd⟩
  · have hd (r i) (hr : s.req = some r) : decodeRequest r ≠ .ok i := fun e => hd ⟨r, i, hr, e⟩
    exact .inr ⟨.next s, blockWork_resting hb hq hd, fun u hu =>
      ⟨(Host.Outcome.next.inj hu).symm, blockWork_resting (s := setHost h s) hb hq hd⟩⟩

/-- Settles O59: the operation in flight is stepped by a function that does not look at the host's
programs, and a quiescent block does not look at them either. -/
theorem hostCannotReachInFlight : Obligations.HostCannotReachInFlight := by
  unfold Obligations.HostCannotReachInFlight
  intro s u h hb hn hstep
  rcases blockWork_busy_cases (s := { s with resetIn := s.resetIn.tail }) hb h with
    ⟨r, i, hr, hd, hw, hw'⟩ | ⟨o, hw, ho⟩
  · obtain ⟨v, h', hx, hx'⟩ := exec_hostBlind (s := { s with resetIn := s.resetIn.tail })
      (encode_of_decodeRequest hd) hb hr h
    obtain rfl := Host.Outcome.next.inj (((step_of_run hn hw).trans hx).symm.trans hstep)
    exact ⟨h', (step_of_run (s := setHost h s) hn hw').trans hx'⟩
  · obtain ⟨rfl, hw'⟩ := ho u ((step_of_settled hn hw).symm.trans hstep)
    exact ⟨h, step_of_settled (s := setHost h s) hn hw'⟩

end Sys2Proof.Machine

/-!
PROOF. Whole runs: the state after some traffic on the port, how an operation's step carries the bodies it
shares, and whole transmissions and response reads (spec/40_codec.md R101, R104).
-/

namespace Sys2Proof.Machine

/-! ## Runs with their number of steps -/

/-- `n` steps lead from `s` to `u`. -/
def RunsFor (n : Nat) (s u : State) : Prop := Host.Core.run Sys2Proof.core n s = .next u

theorem RunsFor.reaches {n : Nat} {s u : State} (h : RunsFor n s u) : Reaches s u := ⟨n, h⟩

theorem runsFor_zero (s : State) : RunsFor 0 s s := rfl

theorem runsFor_head {n : Nat} {s t u : State} (h : step s = .next t) (r : RunsFor n t u) :
    RunsFor (n + 1) s u := by
  have h' : Sys2Proof.core.step s = .next t := h
  simp only [RunsFor, Host.Core.run, h']
  exact r

theorem runsFor_one {s t : State} (h : step s = .next t) : RunsFor 1 s t :=
  runsFor_head h (runsFor_zero t)

theorem runsFor_trans {m n : Nat} {s t u : State} (h : RunsFor m s t) (r : RunsFor n t u) :
    RunsFor (m + n) s u := by
  induction m generalizing s with
  | zero =>
    obtain rfl : s = t := Host.Outcome.next.inj h
    rwa [Nat.zero_add]
  | succ m ih =>
    simp only [RunsFor, Host.Core.run] at h
    split at h
    · rw [Nat.add_right_comm]
      exact runsFor_head ‹_› (ih h)
    · cases h
    · cases h

/-! ## The state after some traffic -/

/-- `s` after `n` transfers and the events `es`, with the sequencer at `q` and CS at `c`. -/
def afterTraffic (q : Seq) (c : Bool) (n : Nat) (es : List Event) (s : State) : State :=
  { s with
    seq := q
    cs := c
    events := s.events ++ es
    chip := chipAfter s n
    draws := drawsAfter s n }

section
variable (q q' : Seq) (c c' : Bool) (n : Nat) (es : List Event) (s : State)

theorem goto_csPrim : goto q (csPrim c s) = afterTraffic q c 0 [.cs c] s := by
  simp [goto, csPrim, record, afterTraffic, chipAfter, drawsAfter]

@[simp] theorem config_afterTraffic : (afterTraffic q c n es s).config = s.config := rfl

@[simp] theorem answerAt_afterTraffic (j : Nat) :
    answerAt (afterTraffic q c n es s) j = answerAt s (n + j) := by
  simp only [answerAt, afterTraffic, chipAfter, drawsAfter, List.getElem?_drop, List.length_drop]
  cases h : s.chip[n + j]? with
  | some b => rfl
  | none =>
    have := List.getElem?_eq_none_iff.mp h
    simp only
    congr 1
    omega

@[simp] theorem answer_afterTraffic : answer (afterTraffic q c n es s) = answerAt s n := by
  rw [answer_eq, answerAt_afterTraffic, Nat.add_zero]

@[simp] theorem goto_afterTraffic :
    goto q' (afterTraffic q c n es s) = afterTraffic q' c n es s := rfl

@[simp] theorem csPrim_afterTraffic :
    csPrim c' (afterTraffic q c n es s) = afterTraffic q c' n (es ++ [.cs c']) s := by
  simp [csPrim, record, afterTraffic]

@[simp] theorem sleepPrim_afterTraffic (ms : Nat) :
    sleepPrim ms (afterTraffic q c n es s) = afterTraffic q c n (es ++ [.sleep ms]) s := by
  simp [sleepPrim, record, afterTraffic]

@[simp] theorem xferPrim_afterTraffic (o : Byte) :
    xferPrim o (afterTraffic q c n es s) =
      afterTraffic q c (n + 1) (es ++ [.xfer o (answerAt s n)]) s := by
  rw [xferPrim_eq, answerAt_afterTraffic]
  simp only [afterTraffic, chipAfter, drawsAfter, List.append_assoc, List.drop_drop,
    List.length_drop, Nat.add_zero]
  congr 1
  omega

end

/-! ## An operation's step carries its body -/

/-- The operation whose request is `r` is in flight and no reset comes. -/
def Underway (r : Request) (s : State) : Prop := s.busy = true ∧ s.req = some r ∧ s.resetIn = []

/-- A step of the operation with the request `r` is the step of the frame transmission that its point
names. -/
def CarriesSend (r : Request) (f : List Byte) (pos : SendPos → Seq) : Prop :=
  ∀ s p p' u, Underway r s → s.seq = pos p → sendBody f p s = .more p' u →
    step s = .next (goto (pos p') u)

/-- As `CarriesSend`, for a response read. -/
def CarriesRead (r : Request) (len : Nat) (pos : ReadPos → Seq) : Prop :=
  ∀ s p p' u, Underway r s → s.seq = pos p → readBody len p s = .more p' u →
    step s = .next (goto (pos p') u)

/-- As `CarriesSend`, for a wait. -/
def CarriesWait (r : Request) (t : Timeout) (pos : WaitPos → Seq) : Prop :=
  ∀ s p p' u, Underway r s → s.seq = pos p → waitBody t p s = .more p' u →
    step s = .next (goto (pos p') u)

/-- A step of an operation in flight is `exec` of what its request spells. -/
theorem Underway.step {r : Request} {i : Instr} {q : Seq} {s u : State} (h : Underway r s)
    (hs : s.seq = q) (hq : isQuiescent q = false) (hd : decodeRequest r = .ok i)
    (hx : InFlight r q s → exec i s = .next u) : Machine.step s = .next u := by
  obtain ⟨hb, hr, hn⟩ := h
  exact (step_latched hn hb (hs ▸ hq) hr hd).trans (hx ⟨hb, hr, hs⟩)

section
variable {op : Byte} {args : List Byte} (h : argsFit args = true)
include h

theorem carriesSend_encode : CarriesSend (encodeWord op args) (encodeFrame op args) .encode :=
  fun _ _ _ _ hu hs e =>
    hu.step hs rfl (decodeRequest_encodeWord h) fun hf => exec_encode_more hf e

variable {t : Timeout} {s u : State}

/-- A step of the handshake in flight. -/
theorem Underway.step_handshake {p : HandshakePos} (hu : Underway (sendCommandAndAckWord op args t) s)
    (hs : s.seq = .handshake p) (e : advanceHandshake op args t s = u) :
    Machine.step s = .next u :=
  hu.step hs rfl (decodeRequest_sendCommandAndAckWord h) fun hf =>
    (execSendCommandAndAck_flight hf).trans (congrArg _ e)

theorem carriesSend_handshake : CarriesSend (sendCommandAndAckWord op args t)
    (encodeFrame op args) fun p => .handshake (.send p) :=
  fun _ _ _ _ hu hs e => hu.step_handshake h hs (advanceHandshake_send_more hs e)

theorem carriesRead_handshake : CarriesRead (sendCommandAndAckWord op args t)
    ackConst.length fun p => .handshake (.readAck p) :=
  fun _ _ _ _ hu hs e => hu.step_handshake h hs (advanceHandshake_readAck_more hs e)

theorem carriesWait_handshake {pos : WaitPos → HandshakePos}
    (hpos : pos = .waitAck ∨ pos = .waitResponse) : CarriesWait (sendCommandAndAckWord op args t)
      t fun p => .handshake (pos p) :=
  fun _ _ _ _ hu hs e => hu.step_handshake h hs (advanceHandshake_wait_more hpos hs e)

end

theorem carriesRead_readResponse {len : Byte} (h : lengthFits len = true) :
    CarriesRead (readResponseWord len) len.toNat .readResponse :=
  fun _ _ _ _ hu hs e =>
    hu.step hs rfl (decodeRequest_readResponseWord h) fun hf => exec_readResponse_more hf e

theorem carriesWait_waitReady (t : Timeout) : CarriesWait (waitReadyWord t) t .waitReady :=
  fun _ _ _ _ hu hs e =>
    hu.step hs rfl (decodeRequest_waitReadyWord t) fun hf => exec_waitReady_more hf e

section
variable {r : Request} {i : Instr} {q : Seq} {f : State → State} {s : State}

/-- The host's issue of an operation is taken in one step. -/
theorem step_issue_accepts {rest : List (List HostAction)} (hn : s.resetIn = [])
    (hp : portReady s = true) (ha : nextAction s.host = some (issue r, rest))
    (hd : decodeRequest r = .ok i) (hv : valueRefusal i = none)
    (hx : ∀ s, exec i s = .next (operate i r q f s)) :
    step s = .next (accept r q { s with host := rest }) := by
  rw [step_issued hn hp ha (decode_request_ok hd), hx,
    operate_accepts (s := { s with host := rest }) hp hv]

theorem Issues.accepted (h : Issues r s) (hd : decodeRequest r = .ok i) (hv : valueRefusal i = none)
    (hx : ∀ s, exec i s = .next (operate i r q f s)) :
    ∃ rest, step s = .next (accept r q { s with host := rest }) := by
  obtain ⟨hn, hp, ha⟩ := h
  obtain ⟨⟨a, rest⟩, ha, rfl : a = _⟩ := Option.map_eq_some_iff.mp ha
  exact ⟨rest, step_issue_accepts hn hp ha hd hv hx⟩

end

/-! ## A whole frame transmission (R101) -/

/-- The answers to `k` transfers after the next `n`. -/
def answersFrom (s : State) (n k : Nat) : List Byte :=
  (List.range k).map fun j => answerAt s (n + j)

theorem answersFrom_succ (s : State) (n k : Nat) :
    answersFrom s n (k + 1) = answerAt s n :: answersFrom s (n + 1) k := by
  simp [answersFrom, List.range_succ_eq_map, Function.comp_def, Nat.add_assoc, Nat.add_comm 1]

theorem answersFrom_zero (s : State) (k : Nat) : answersFrom s 0 k = answers s k := by
  simp [answersFrom, answers]

section
variable {r : Request} {f : List Byte} {pos : SendPos → Seq} {s : State}

/-- From a point where the transmission is at byte `pre.length` of the frame `pre ++ rest`, it sends
`rest`. -/
theorem sendBytes_reaches (hc : CarriesSend r f pos) (hu : Underway r s) (rest : List Byte) :
    ∀ (pre : List Byte) (p : SendPos) (n : Nat) (es : List Event), f = pre ++ rest →
      (∀ u : State, u.config = s.config → sendBody f p u = sendByte f pre.length u) →
      Reaches (afterTraffic (pos p) true n es s) (afterTraffic (pos .sent) false (n + rest.length)
        (es ++ xferEvents rest (answersFrom s n rest.length) ++ [.cs false]) s) := by
  induction rest with
  | nil =>
    intro pre p n es hf hp
    have e := (hp (afterTraffic (pos p) true n es s) rfl).trans
      (sendByte_none (by simp [hf]))
    have hstep := hc (afterTraffic (pos p) true n es s) _ _ _ hu rfl e
    simp only [csPrim_afterTraffic, goto_afterTraffic] at hstep
    simpa [xferEvents] using reaches_head hstep (reaches_refl _)
  | cons b rest ih =>
    intro pre p n es hf hp
    have e := (hp (afterTraffic (pos p) true n es s) rfl).trans
      (sendByte_some (b := b) (by simp [hf]))
    have hstep := hc (afterTraffic (pos p) true n es s) _ _ _ hu rfl e
    simp only [xferPrim_afterTraffic, goto_afterTraffic] at hstep
    have run := reaches_head hstep
      (ih (pre ++ [b]) (.byte (pre.length + 1)) _ _ (by simp [hf]) fun u _ => by simp [sendBody])
    simpa [xferEvents, answersFrom_succ, Nat.add_assoc, Nat.add_comm 1] using run

/-- The whole transmission: CS(true), the optional lead byte, the frame, CS(false). -/
theorem send_reaches (hc : CarriesSend r f pos) (hu : Underway r s) (hs : s.seq = pos .select) :
    Reaches s (afterTraffic (pos .sent) false ((optBytes s.config.dataWritePrefix).length + f.length)
      ([.cs true] ++ xferEvents (optBytes s.config.dataWritePrefix ++ f)
        (answers s ((optBytes s.config.dataWritePrefix).length + f.length)) ++ [.cs false]) s) := by
  have first := hc s _ _ _ hu hs rfl
  rw [goto_csPrim] at first
  refine reaches_head first ?_
  rw [← answersFrom_zero]
  cases hl : s.config.dataWritePrefix with
  | none =>
    simpa [optBytes] using sendBytes_reaches hc hu f [] .lead 0 [.cs true] rfl fun u huc =>
      sendBody_lead_none f (huc ▸ hl)
  | some b =>
    have lead := hc (afterTraffic (pos .lead) true 0 [.cs true] s) _ _ _ hu rfl
      (sendBody_lead_some f hl)
    simp only [xferPrim_afterTraffic, goto_afterTraffic] at lead
    have run := reaches_head lead (sendBytes_reaches hc hu f [] (.byte 0) _ _ rfl fun u _ => rfl)
    simpa [optBytes, xferEvents, answersFrom_succ, Nat.add_comm 1] using run

end

/-- ENCODE in flight: the transmission, then `finish(OK, 0)`. -/
theorem encode_reaches {op : Byte} {args : List Byte} {s : State} (h : argsFit args = true)
    (hu : Underway (encodeWord op args) s) (hs : s.seq = .encode .select) :
    ∃ n es, n = (optBytes s.config.dataWritePrefix).length + args.length + 9 ∧
      es = [.cs true] ++ xferEvents (optBytes s.config.dataWritePrefix ++ encodeFrame op args)
        (answers s n) ++ [.cs false] ∧
      Reaches s (finish .ok 0 (afterTraffic (.encode .sent) false n es s)) := by
  refine ⟨_, _, rfl, rfl, ?_⟩
  have run := send_reaches (carriesSend_encode h) hu hs
  rw [length_encodeFrame, ← Nat.add_assoc] at run
  have last (n es) : step (afterTraffic (.encode .sent) false n es s) =
      .next (finish .ok 0 (afterTraffic (.encode .sent) false n es s)) :=
    Underway.step hu rfl rfl (decodeRequest_encodeWord h) fun hf => exec_encode_ended hf rfl
  exact reaches_trans run (reaches_head (last _ _) (reaches_refl _))

/-- Settles O18: acceptance, then ENCODE in flight. -/
theorem encodeSendsTheFrame : Obligations.EncodeSendsTheFrame := by
  unfold Obligations.EncodeSendsTheFrame
  intro s op args hfit hiss
  obtain ⟨rest, haccept⟩ := hiss.accepted (decodeRequest_encodeWord hfit) (if_pos hfit)
    fun _ => rfl
  obtain ⟨n, es, rfl, rfl, run⟩ := encode_reaches hfit (s := accept (encodeWord op args)
    (.encode .select) { s with host := rest }) ⟨rfl, rfl, hiss.1⟩ rfl
  refine ⟨_, reaches_head haccept run, ?_⟩
  simp only [finish, record, afterTraffic, List.append_assoc]
  rfl

/-! ## A whole response read (R104) -/

/-- `s` with the first `k` cells of RX filled with the answers after the next `p`. -/
def received (p k : Nat) (s : State) : State :=
  { s with rx := (List.range k).map fun j => (j, answerAt s (p + j)), rxLen := k }

theorem keys_received (p k : Nat) (s : State) :
    (received p k s).rx.map Prod.fst = List.range k := by
  simp [received, Function.comp_def]

theorem received_zero (p : Nat) (s : State) : received p 0 s = clearRx s := rfl

theorem values_received (p k : Nat) (s : State) :
    (received p k s).rx.map Prod.snd = answersFrom s p k := by
  simp [received, answersFrom, Function.comp_def]

theorem readCell_received {p k j : Nat} {s : State} (h : j < k) :
    readCell (received p k s).rx j = some (answerAt s (p + j)) := by
  rw [readCell_filled (keys_received p k s) h, values_received]
  simp [answersFrom, h]

theorem readCell_received_none {p k j : Nat} {s : State} (h : k ≤ j) :
    readCell (received p k s).rx j = none := by
  rw [← Option.not_isSome_iff_eq_none, readCell_isSome, keys_received, List.mem_range]
  omega

@[simp] theorem answerAt_received (p k j : Nat) (s : State) :
    answerAt (received p k s) j = answerAt s j := rfl

@[simp] theorem config_received (p k : Nat) (s : State) : (received p k s).config = s.config := rfl

theorem storeRx_received {p k : Nat} (q : Seq) (c : Bool) (n : Nat) (es : List Event) {s : State}
    (h : k < scratchSize) :
    storeRx k (answerAt s (p + k)) (afterTraffic q c n es (received p k s)) =
      afterTraffic q c n es (received p (k + 1) s) := by
  have e : writeCell (received p k s).rx k (answerAt s (p + k)) = (received p (k + 1) s).rx := by
    rw [writeCell_next (keys_received p k s) h]
    simp [received, List.range_succ]
  simp only [storeRx, afterTraffic, e]
  rfl

/-- The events from cell `k` on, for `m` more cells, each after a settle sleep. -/
def cellEvents (ms : Nat) (s : State) (p k m : Nat) : List Event :=
  (List.range m).flatMap fun j => [.sleep ms, .xfer fillByte (answerAt s (p + (k + j)))]

theorem cellEvents_succ (ms : Nat) (s : State) (p k m : Nat) :
    cellEvents ms s p k (m + 1) =
      [.sleep ms, .xfer fillByte (answerAt s (p + k))] ++ cellEvents ms s p (k + 1) m := by
  simp [cellEvents, List.range_succ_eq_map, List.flatMap_map, Nat.add_assoc, Nat.add_comm 1]

/-- The events of the read loop for `len` cells, with `transfers` transfers done before it. -/
def loopEvents (s : State) (p transfers len : Nat) : List Event :=
  match len with
  | 0 => []
  | m + 1 =>
    (if 0 < transfers then [.sleep s.config.settleBetweenMs] else []) ++
      [.xfer fillByte (answerAt s p)] ++ cellEvents s.config.settleBetweenMs s p 1 m

/-- The events of a response read of `len` bytes after `n` transfers, from its lead byte on (R104). -/
def readEvents (s : State) (n len : Nat) : List Event :=
  xferEvents (optBytes s.config.dataReadPrefix) [answerAt s n] ++
    loopEvents s (n + (optBytes s.config.dataReadPrefix).length)
      (optBytes s.config.dataReadPrefix).length len

section
variable {r : Request} {len : Nat} {pos : ReadPos → Seq} {s : State}

/-- From the answer for cell `k`, the rest of the read's loop. -/
theorem readCells_reaches (hc : CarriesRead r len pos) (hu : Underway r s) (hlen : len ≤ scratchSize)
    (p m : Nat) : ∀ (k : Nat) (es : List Event), k + 1 + m = len →
      Reaches (afterTraffic (pos (.got k (answerAt s (p + k)))) true (p + k + 1) es (received p k s))
        (afterTraffic (pos .done) false (p + len)
          (es ++ cellEvents s.config.settleBetweenMs s p (k + 1) m ++ [.cs false])
          (received p len s)) := by
  induction m with
  | zero =>
    intro k es hk
    have last := hc (afterTraffic (pos (.got k (answerAt s (p + k)))) true (p + k + 1) es
      (received p k s)) _ _ _ hu rfl (readLoop_end _ hk.ge)
    rw [storeRx_received _ _ _ _ (by omega), csPrim_afterTraffic, goto_afterTraffic] at last
    subst hk
    simpa [cellEvents, Nat.add_assoc] using reaches_head last (reaches_refl _)
  | succ m ih =>
    intro k es hk
    have sleep := hc (afterTraffic (pos (.got k (answerAt s (p + k)))) true (p + k + 1) es
      (received p k s)) _ _ _ hu rfl (readLoop_next k (by omega))
    rw [storeRx_received _ _ _ _ (by omega), sleepPrim_afterTraffic, goto_afterTraffic] at sleep
    have xfer := hc (afterTraffic (pos (.byte (k + 1))) true (p + k + 1)
      (es ++ [.sleep s.config.settleBetweenMs]) (received p (k + 1) s)) _ _ _ hu rfl rfl
    rw [answer_afterTraffic, xferPrim_afterTraffic, goto_afterTraffic] at xfer
    have run := reaches_head sleep (reaches_head xfer (ih (k + 1) _ (by omega)))
    simpa [cellEvents_succ, Nat.add_assoc] using run

/-- From a point where the read loop begins, the whole loop. -/
theorem readLoop_reaches (hc : CarriesRead r len pos) (hu : Underway r s) (hlen : len ≤ scratchSize)
    (pt : ReadPos) (transfers n : Nat) (es : List Event)
    (hp : ∀ u : State, u.config = s.config → readBody len pt u = readLoop len 0 transfers u) :
    Reaches (afterTraffic (pos pt) true n es (received n 0 s))
      (afterTraffic (pos .done) false (n + len) (es ++ loopEvents s n transfers len ++ [.cs false])
        (received n len s)) := by
  have next := hc (afterTraffic (pos pt) true n es (received n 0 s)) pt
  rw [hp (afterTraffic (pos pt) true n es (received n 0 s)) rfl] at next
  cases len with
  | zero =>
    have last := next _ _ hu rfl (readLoop_end transfers (Nat.zero_le _))
    rw [csPrim_afterTraffic, goto_afterTraffic] at last
    simpa [loopEvents] using reaches_head last (reaches_refl _)
  | succ m =>
    have cells (fs) := readCells_reaches hc hu hlen n m 0 fs (by omega)
    cases transfers with
    | zero =>
      have xfer := next _ _ hu rfl (readLoop_first (Nat.succ_pos m))
      rw [answer_afterTraffic, xferPrim_afterTraffic, goto_afterTraffic] at xfer
      simpa [loopEvents] using reaches_head xfer (cells _)
    | succ j =>
      have sleep := next _ _ hu rfl (readLoop_next j (Nat.succ_pos m))
      rw [sleepPrim_afterTraffic, goto_afterTraffic] at sleep
      have xfer := hc (afterTraffic (pos (.byte 0)) true n (es ++ [.sleep s.config.settleBetweenMs])
        (received n 0 s)) _ _ _ hu rfl rfl
      rw [answer_afterTraffic, xferPrim_afterTraffic, goto_afterTraffic] at xfer
      simpa [loopEvents] using reaches_head sleep (reaches_head xfer (cells _))

/-- From the settle sleep on: the sleep, the optional lead byte and the loop (R104). -/
theorem read_reaches (hc : CarriesRead r len pos) (hu : Underway r s) (hlen : len ≤ scratchSize)
    {n p : Nat} (hp : p = n + (optBytes s.config.dataReadPrefix).length) (es : List Event) :
    Reaches (afterTraffic (pos .settle) true n es (clearRx s))
      (afterTraffic (pos .done) false (p + len)
        (es ++ [.sleep s.config.settlePreMs] ++ readEvents s n len ++ [.cs false])
        (received p len s)) := by
  have settle := hc (afterTraffic (pos .settle) true n es (received p 0 s)) _ _ _ hu rfl rfl
  rw [sleepPrim_afterTraffic, goto_afterTraffic] at settle
  refine reaches_head settle ?_
  cases hl : s.config.dataReadPrefix with
  | none =>
    obtain rfl : p = n := by simp [hp, hl, optBytes]
    have run := readLoop_reaches hc hu hlen .lead 0 p (es ++ [.sleep s.config.settlePreMs])
      fun u huc => readBody_lead_none len (huc ▸ hl)
    simpa [readEvents, hl, optBytes, xferEvents] using run
  | some b =>
    obtain rfl : p = n + 1 := by simp [hp, hl, optBytes]
    have lead := hc (afterTraffic (pos .lead) true n (es ++ [.sleep s.config.settlePreMs])
      (received (n + 1) 0 s)) _ _ _ hu rfl (readBody_lead_some len hl)
    rw [xferPrim_afterTraffic, goto_afterTraffic] at lead
    simpa [readEvents, hl, optBytes, xferEvents] using
      reaches_head lead (readLoop_reaches hc hu hlen .led 1 (n + 1) _ fun u _ => rfl)

end

theorem toNat_le_of_lengthFits {len : Byte} (h : lengthFits len = true) : len.toNat ≤ scratchSize :=
  of_decide_eq_true h

/-- READ_RESPONSE in flight: the read, then `finish(OK, 0)`. -/
theorem readResponse_reaches {len : Byte} {s : State} (h : lengthFits len = true)
    (hu : Underway (readResponseWord len) s) (hs : s.seq = .readResponse .select) :
    ∃ p es, p = (optBytes s.config.dataReadPrefix).length ∧
      Reaches s (finish .ok 0 (afterTraffic (.readResponse .done) false (p + len.toNat) es
        (received p len.toNat s))) := by
  have hc := carriesRead_readResponse h
  have start := hc s _ _ _ hu hs rfl
  rw [readStart, goto_csPrim] at start
  have run := read_reaches hc hu (toNat_le_of_lengthFits h) (Nat.zero_add _).symm [.cs true]
  have last (n p es) : step (afterTraffic (.readResponse .done) false n es
      (received p len.toNat s)) = .next (finish .ok 0 (afterTraffic (.readResponse .done) false n es
      (received p len.toNat s))) :=
    Underway.step hu rfl rfl (decodeRequest_readResponseWord h) fun hf =>
      exec_readResponse_ended hf rfl
  exact ⟨_, _, rfl, reaches_head start (reaches_trans run (reaches_head (last _ _ _) (reaches_refl _)))⟩

/-- Settles O20: acceptance, then READ_RESPONSE in flight. -/
theorem readResponseReadsExactly : Obligations.ReadResponseReadsExactly := by
  unfold Obligations.ReadResponseReadsExactly
  intro s len hlen hiss
  obtain ⟨rest, haccept⟩ := hiss.accepted (decodeRequest_readResponseWord hlen)
    (if_pos hlen) fun _ => rfl
  obtain ⟨p, es, rfl, run⟩ := readResponse_reaches hlen (s := accept (readResponseWord len)
    (.readResponse .select) { s with host := rest }) ⟨rfl, rfl, hiss.1⟩ rfl
  exact ⟨_, reaches_head haccept run, rfl, rfl, rfl, rfl, rfl, rfl,
    fun k hk => readCell_received hk, fun k hk => readCell_received_none hk⟩

end Sys2Proof.Machine

/-!
PROOF. Whole waits (spec/41_poller.md R130, R131, R133, R134): the polls of a wait, how long it lasts and how it
ends.
-/

namespace Sys2Proof.Machine

/-! ## ELAPSED after a number of poll sleeps -/

/-- ELAPSED after `j` poll sleeps of a wait. -/
def elapsedAfter : Nat → Millis
  | 0 => 0
  | j + 1 => addInterval (elapsedAfter j)

theorem toNat_elapsedAfter (j : Nat) : (elapsedAfter j).toNat = min (10 * j) (2 ^ 32 - 1) := by
  induction j with
  | zero => rfl
  | succ j ih =>
    rw [elapsedAfter, toNat_addInterval, ih]
    omega

/-! ## The steps of a poll -/

section
variable {r : Request} {t : Timeout} {pos : WaitPos → Seq} {s : State}

section
variable (hc : CarriesWait r t pos) (hu : Underway r s) (n : Nat) (es : List Event)
include hc hu

theorem step_poll_command : step (afterTraffic (pos .command) true n es s) =
    .next (afterTraffic (pos .status) true (n + 1)
      (es ++ [.xfer s.config.statusReadCmd (answerAt s n)]) s) := by
  rw [hc (afterTraffic (pos .command) true n es s) _ _ _ hu rfl rfl, xferPrim_afterTraffic,
    goto_afterTraffic, config_afterTraffic]

theorem step_poll_status : step (afterTraffic (pos .status) true n es s) =
    .next (afterTraffic (pos (.release (answerAt s n))) true (n + 1)
      (es ++ [.xfer fillByte (answerAt s n)]) s) := by
  rw [hc (afterTraffic (pos .status) true n es s) _ _ _ hu rfl rfl, xferPrim_afterTraffic,
    goto_afterTraffic, answer_afterTraffic]

theorem step_poll_release (b : Byte) : step (afterTraffic (pos (.release b)) true n es s) =
    .next (afterTraffic (pos (.judge b)) false n (es ++ [.cs false]) s) := by
  rw [hc (afterTraffic (pos (.release b)) true n es s) _ _ _ hu rfl rfl, csPrim_afterTraffic,
    goto_afterTraffic]

theorem step_poll_judge_other {b : Byte} (hb : b ≠ 0x01) :
    step (afterTraffic (pos (.judge b)) false n es s) =
      .next (afterTraffic (pos .slept) false n (es ++ [.sleep pollIntervalMs]) s) := by
  rw [hc (afterTraffic (pos (.judge b)) false n es s) _ _ _ hu rfl (waitBody_judge_other t hb _),
    sleepPrim_afterTraffic, goto_afterTraffic]
  rfl

theorem step_poll_slept (ht : ¬(t ≠ 0 ∧ t.toNat < (addInterval s.elapsed).toNat)) :
    step (afterTraffic (pos .slept) false n es s) =
      .next (afterTraffic (pos .command) true n (es ++ [.cs true])
        { s with elapsed := addInterval s.elapsed }) := by
  rw [hc (afterTraffic (pos .slept) false n es s) _ _ _ hu rfl (waitBody_slept_goesOn ht)]
  exact congrArg (fun u => Host.Outcome.next (goto (pos .command) u))
    (csPrim_afterTraffic (pos .slept) false true n es { s with elapsed := addInterval s.elapsed })

/-- A poll, from its chip-select to its status byte. -/
theorem poll_runsFor : RunsFor 3 (afterTraffic (pos .command) true n es s)
    (afterTraffic (pos (.judge (answerAt s (n + 1)))) false (n + 2)
      (es ++ [.xfer s.config.statusReadCmd (answerAt s n), .xfer fillByte (answerAt s (n + 1)),
        .cs false]) s) := by
  have run := runsFor_head (step_poll_command hc hu n es) (runsFor_head (step_poll_status hc hu _ _)
    (runsFor_one (step_poll_release hc hu _ _ _)))
  simpa using run

end

/-! ## The polls of a wait -/

/-- `s` in a wait, with ELAPSED at `e`. -/
def polling (e : Millis) (s : State) : State := { s with elapsed := e, poll := .polling }

/-- The wait's poll after `j` that were not ready, its chip-select asserted. -/
def pollStart (pos : WaitPos → Seq) (s : State) (j : Nat) : State :=
  afterTraffic (pos .command) true (2 * j) (idlePolls s j ++ [.cs true]) (polling (elapsedAfter j) s)

/-- The wait's poll after `j` that were not ready, its status byte to be judged. -/
def pollJudge (pos : WaitPos → Seq) (s : State) (j : Nat) : State :=
  afterTraffic (pos (.judge (answerAt s (2 * j + 1)))) false (2 * j + 2)
    (idlePolls s j ++ pollEvents s.config.statusReadCmd (answerAt s (2 * j)) (answerAt s (2 * j + 1)))
    (polling (elapsedAfter j) s)

/-- The wait after its sleep number `j + 1`. -/
def pollSlept (pos : WaitPos → Seq) (s : State) (j : Nat) : State :=
  afterTraffic (pos .slept) false (2 * (j + 1)) (idlePolls s (j + 1)) (polling (elapsedAfter j) s)

theorem idlePolls_succ (s : State) (j : Nat) :
    idlePolls s (j + 1) = idlePolls s j ++
      (pollEvents s.config.statusReadCmd (answerAt s (2 * j)) (answerAt s (2 * j + 1)) ++
        [.sleep pollIntervalMs]) := by
  simp [idlePolls, List.range_succ]

section
variable (hc : CarriesWait r t pos) (hu : Underway r s) (j : Nat)
include hc hu

theorem wait_starts (hs : s.seq = pos .first) : step s = .next (pollStart pos s 0) := by
  rw [hc s _ _ _ hu hs rfl]
  exact congrArg _ (goto_csPrim _ _ (polling 0 s))

theorem pollJudge_runsFor : RunsFor 3 (pollStart pos s j) (pollJudge pos s j) := by
  have run := poll_runsFor hc (s := polling (elapsedAfter j) s) hu (2 * j) (idlePolls s j ++ [.cs true])
  rw [List.append_assoc] at run
  exact run

theorem step_pollJudge (hb : answerAt s (2 * j + 1) ≠ 0x01) :
    step (pollJudge pos s j) = .next (pollSlept pos s j) := by
  rw [pollJudge, step_poll_judge_other hc (s := polling (elapsedAfter j) s) hu _ _ hb,
    List.append_assoc, ← idlePolls_succ]
  rfl

theorem step_pollSlept (ht : ¬(t ≠ 0 ∧ t.toNat < (elapsedAfter (j + 1)).toNat)) :
    step (pollSlept pos s j) = .next (pollStart pos s (j + 1)) :=
  step_poll_slept hc (s := polling (elapsedAfter j) s) hu _ _ ht

theorem pollSlept_runsFor (hb : answerAt s (2 * j + 1) ≠ 0x01) :
    RunsFor 4 (pollStart pos s j) (pollSlept pos s j) :=
  runsFor_trans (pollJudge_runsFor hc hu j) (runsFor_one (step_pollJudge hc hu j hb))

/-- `j` polls in a row that are not ready, none of which ends the wait. -/
theorem pollStart_runsFor (hb : ∀ i, i < j → answerAt s (2 * i + 1) ≠ 0x01)
    (ht : ∀ i, i < j → ¬(t ≠ 0 ∧ t.toNat < (elapsedAfter (i + 1)).toNat)) :
    RunsFor (5 * j) (pollStart pos s 0) (pollStart pos s j) := by
  induction j with
  | zero => exact runsFor_zero _
  | succ j ih =>
    have before := ih (fun i hi => hb i (by omega)) fun i hi => ht i (by omega)
    exact runsFor_trans before (runsFor_trans (pollSlept_runsFor hc hu j (hb j (by omega)))
      (runsFor_one (step_pollSlept hc hu j (ht j (by omega)))))

end

end

/-! ## WAIT_READY as a whole -/

section
variable {t : Timeout} {s : State}

/-- The acceptance of WAIT_READY, and the state that polls next. -/
theorem waitReady_accepted (h : Issues (waitReadyWord t) s) : ∃ v : State,
    step s = .next v ∧ Underway (waitReadyWord t) v ∧ v.seq = .waitReady .first ∧
      v.events = s.events ∧ v.result = s.result ∧ v.config = s.config ∧
      (∀ j, answerAt v j = answerAt s j) ∧ ∀ j, idlePolls v j = idlePolls s j := by
  obtain ⟨rest, haccept⟩ := h.accepted (decodeRequest_waitReadyWord t) rfl fun _ => rfl
  exact ⟨_, haccept, ⟨rfl, rfl, h.1⟩, rfl, rfl, rfl, rfl, fun _ => rfl, fun _ => rfl⟩

/-- A wait one of whose polls is ready before it times out. -/
theorem waitReady_ready (h : Issues (waitReadyWord t) s) {j : Nat} (hj : answerAt s (2 * j + 1) = 0x01)
    (hb : ∀ i, i < j → answerAt s (2 * i + 1) ≠ 0x01)
    (ht : ∀ i, i < j → ¬(t ≠ 0 ∧ t.toNat < (elapsedAfter (i + 1)).toNat)) :
    ∃ u, Reaches s u ∧ u.busy = false ∧ u.poll = .ready ∧ u.elapsed = elapsedAfter j ∧
      u.result = some { code := .ok, value := 0 } ∧
      u.events = s.events ++ idlePolls s j
        ++ pollEvents s.config.statusReadCmd (answerAt s (2 * j)) 0x01 ++ [.finish .ok 0] := by
  obtain ⟨v, haccept, hu, hs, hev, -, hcfg, hans, hidle⟩ := waitReady_accepted h
  have hc := carriesWait_waitReady t
  have polls := pollStart_runsFor hc hu j (fun i hi => hans _ ▸ hb i hi) ht
  have hjv : answerAt v (2 * j + 1) = 0x01 := (hans _).trans hj
  have last : step (pollJudge .waitReady v j) =
      .next (finish .ok 0 { pollJudge .waitReady v j with poll := .ready }) := by
    refine Underway.step (r := waitReadyWord t) hu rfl rfl (decodeRequest_waitReadyWord t) fun hf =>
      exec_waitReady_ended hf ?_
    rw [hjv]
    rfl
  have run := reaches_head haccept (reaches_head (wait_starts hc hu hs)
    (reaches_trans polls.reaches (reaches_trans (pollJudge_runsFor hc hu j).reaches
      (reaches_head last (reaches_refl _)))))
  refine ⟨_, run, rfl, rfl, rfl, rfl, ?_⟩
  simp only [finish, record, pollJudge, afterTraffic, hev, hcfg, hjv, hans, hidle, polling,
    List.append_assoc]

/-- A wait none of whose polls is ready before it times out. -/
theorem waitReady_timedOut (h : Issues (waitReadyWord t) s) {j : Nat}
    (hb : ∀ i, i < j + 1 → answerAt s (2 * i + 1) ≠ 0x01)
    (ht : ∀ i, i < j → ¬(t ≠ 0 ∧ t.toNat < (elapsedAfter (i + 1)).toNat))
    (hj : t ≠ 0 ∧ t.toNat < (elapsedAfter (j + 1)).toNat) :
    ∃ u, Reaches s u ∧ u.busy = false ∧ u.poll = .timedOut ∧ u.elapsed = elapsedAfter (j + 1) ∧
      u.result = some { code := .transportTimeout, value := 0 } ∧
      u.events = s.events ++ idlePolls s (j + 1) ++ [.finish .transportTimeout 0] := by
  obtain ⟨v, haccept, hu, hs, hev, -, hcfg, hans, hidle⟩ := waitReady_accepted h
  have hc := carriesWait_waitReady t
  have polls := pollStart_runsFor hc hu j (fun i hi => hans _ ▸ hb i (by omega)) ht
  have last : step (pollSlept .waitReady v j) =
      .next (finish .transportTimeout 0 { pollSlept .waitReady v j with
        elapsed := elapsedAfter (j + 1), poll := .timedOut }) :=
    Underway.step (r := waitReadyWord t) hu rfl rfl (decodeRequest_waitReadyWord t) fun hf =>
      exec_waitReady_ended hf (waitBody_slept_timedOut hj)
  have run := reaches_head haccept (reaches_head (wait_starts hc hu hs)
    (reaches_trans polls.reaches (reaches_trans
      (pollSlept_runsFor hc hu j (hans _ ▸ hb j (by omega))).reaches
      (reaches_head last (reaches_refl _)))))
  refine ⟨_, run, rfl, rfl, rfl, rfl, ?_⟩
  simp only [finish, record, pollSlept, afterTraffic, hev, hidle, polling]

end

/-- Settles O27: `floor(T / 10)` sleeps do not time out, one more does. -/
theorem waitBound : Obligations.WaitBound := by
  unfold Obligations.WaitBound
  intro s t ht h
  have small := t.isLt
  have elapsed {j : Nat} (hj : j ≤ pollBound t) : (elapsedAfter j).toNat = 10 * j := by
    rw [toNat_elapsedAfter]
    unfold pollBound at hj
    omega
  have early (i : Nat) (hi : i < t.toNat / 10) : ¬(t ≠ 0 ∧ t.toNat < (elapsedAfter (i + 1)).toNat) := by
    rw [elapsed (by unfold pollBound; omega)]
    omega
  refine ⟨by unfold pollBound; omega, fun hb => ?_, fun j hj hjb hb => ?_⟩
  · have late : t.toNat < (elapsedAfter (pollBound t)).toNat := by
      rw [elapsed (Nat.le_refl _)]
      unfold pollBound
      omega
    obtain ⟨u, run, hbusy, hpoll, he, hres, hev⟩ := waitReady_timedOut h hb early ⟨ht, late⟩
    exact ⟨u, run, hbusy, hpoll, he ▸ elapsed (Nat.le_refl _), hres, hev⟩
  · obtain ⟨u, run, hbusy, hpoll, he, hres, hev⟩ := waitReady_ready h hjb hb fun i hi =>
      early i (by unfold pollBound at hj; omega)
    exact ⟨u, run, hbusy, hpoll, he ▸ elapsed hj.le, hres, hev⟩

/-- Settles O28: with T = 0 no number of sleeps times out. -/
theorem unboundedWaitEndsOnReady : Obligations.UnboundedWaitEndsOnReady := by
  unfold Obligations.UnboundedWaitEndsOnReady
  intro s j h hj hb
  obtain ⟨u, run, hbusy, hpoll, he, hres, hev⟩ := waitReady_ready h hj hb fun i _ ht => ht.1 rfl
  exact ⟨u, run, hbusy, hpoll, hres, he ▸ toNat_elapsedAfter j, hev⟩

/-- Settles O29: after the first chip-select the wait is within some poll, or after its sleep. -/
theorem unboundedWaitRunsOn : Obligations.UnboundedWaitRunsOn := by
  unfold Obligations.UnboundedWaitRunsOn
  intro s n h hb
  obtain ⟨v, haccept, hu, hs, -, hres, -, hans, -⟩ := waitReady_accepted h
  have hc := carriesWait_waitReady 0
  suffices ∃ u, RunsFor n v u ∧ u.busy = true ∧ u.result = v.result by
    obtain ⟨u, run, hbusy, hu⟩ := this
    exact ⟨u, runsFor_head haccept run, hbusy, hu.trans hres⟩
  cases n with
  | zero => exact ⟨v, runsFor_zero v, hu.1, rfl⟩
  | succ n =>
    have polls := runsFor_head (wait_starts hc hu hs)
      (pollStart_runsFor hc hu (n / 5) (fun i hi => hans _ ▸ hb i (by omega)) fun i _ ht => ht.1 rfl)
    have within {k : Nat} {u : State} (hk : n = 5 * (n / 5) + k)
        (run : RunsFor k (pollStart .waitReady v (n / 5)) u) : RunsFor (n + 1) v u := by
      have run := runsFor_trans polls run
      rwa [Nat.add_right_comm, ← hk] at run
    have command := step_poll_command hc (s := polling (elapsedAfter (n / 5)) v) hu (2 * (n / 5))
      (idlePolls v (n / 5) ++ [.cs true])
    obtain hk | hk | hk | hk | hk : n % 5 = 0 ∨ n % 5 = 1 ∨ n % 5 = 2 ∨ n % 5 = 3 ∨ n % 5 = 4 := by
      omega
    · exact ⟨_, within (by omega) (runsFor_zero _), hu.1, rfl⟩
    · exact ⟨_, within (by omega) (runsFor_one command), hu.1, rfl⟩
    · exact ⟨_, within (by omega) (runsFor_head command (runsFor_one (step_poll_status hc
        (s := polling (elapsedAfter (n / 5)) v) hu _ _))), hu.1, rfl⟩
    · exact ⟨_, within (by omega) (pollJudge_runsFor hc hu _), hu.1, rfl⟩
    · have hlast : answerAt v (2 * (n / 5) + 1) ≠ 0x01 := hans _ ▸ hb (n / 5) (by omega)
      exact ⟨_, within (by omega) (pollSlept_runsFor hc hu _ hlast), hu.1, rfl⟩

end Sys2Proof.Machine

/-!
PROOF. Whole handshakes and commands (spec/42_handshake.md R150, R153, spec/43_pn532_commands.md).
-/

namespace Sys2Proof.Machine

theorem handshakeWait_afterTraffic (pos : WaitPos → HandshakePos) (q : Seq) (c : Bool) (n : Nat)
    (es : List Event) (s : State) :
    handshakeWait pos (afterTraffic q c n es s) =
      afterTraffic (.handshake (pos .command)) true n (es ++ [.cs true]) (polling 0 s) :=
  congrArg (goto _) (csPrim_afterTraffic q c true n es (polling 0 s))

theorem readStart_afterTraffic (q : Seq) (c : Bool) (n : Nat) (es : List Event) (s : State) :
    readStart (afterTraffic q c n es s) = afterTraffic q true n (es ++ [.cs true]) (clearRx s) :=
  csPrim_afterTraffic q c true n es (clearRx s)

/-- The bytes of an ACK, once read, are found to be one. -/
theorem handshakeAck_received {m n : Nat} {q : Seq} {c : Bool} {es : List Event} {s : State}
    (hack : answersFrom s m ackConst.length = ackConst) :
    handshakeAck (afterTraffic q c n es (received m ackConst.length s)) =
      afterTraffic (.handshake (.waitResponse .command)) true n (es ++ [.cs true])
        (polling 0 (received m ackConst.length s)) := by
  have cells : memRead (received m ackConst.length s).rx 0 ackConst.length = .ok ackConst := by
    rw [memRead_filled (keys_received _ _ _), values_received, hack]
  rw [handshakeAck_ok (s := afterTraffic q c n es (received m ackConst.length s)) cells,
    if_pos (by decide), handshakeWait_afterTraffic]

/-- The events of a handshake with an eager chip between its frame, of `n` transfers, and its end; the
ACK is read from the transfer `m` on. -/
def eagerEvents (s : State) (n m : Nat) : List Event :=
  pollEvents s.config.statusReadCmd (answerAt s n) 0x01 ++
    [.cs true, .sleep s.config.settlePreMs] ++ readEvents s (n + 2) ackConst.length ++ [.cs false] ++
    pollEvents s.config.statusReadCmd (answerAt s (m + 6)) 0x01

/-- `s` after a wait that found the chip ready at its first poll. -/
def readied (s : State) : State := { s with elapsed := 0, poll := .ready }

section
variable {op : Byte} {args : List Byte} {t : Timeout} {s : State}
variable (h : argsFit args = true) (hu : Underway (sendCommandAndAckWord op args t) s)
include h hu

/-- A step of the handshake from a state after some traffic. -/
theorem step_handshake_afterTraffic {p : HandshakePos} {c : Bool} {n : Nat} {es : List Event}
    {u : State} (e : advanceHandshake op args t (afterTraffic (.handshake p) c n es s) = u) :
    step (afterTraffic (.handshake p) c n es s) = .next u :=
  Underway.step_handshake h hu rfl e

/-- A poll of either wait that finds the chip ready. -/
theorem readyPoll_reaches {pos : WaitPos → HandshakePos} (hpos : pos = .waitAck ∨ pos = .waitResponse)
    {n : Nat} (es : List Event) (hready : answerAt s (n + 1) = 0x01) :
    Reaches (afterTraffic (.handshake (pos .command)) true n (es ++ [.cs true]) (polling 0 s))
      (afterTraffic (.handshake (pos (.judge 0x01))) false (n + 2)
        (es ++ pollEvents s.config.statusReadCmd (answerAt s n) 0x01) (polling 0 s)) := by
  have poll := poll_runsFor (carriesWait_handshake h hpos) (s := polling 0 s) hu n (es ++ [.cs true])
  rw [List.append_assoc, show answerAt (polling 0 s) (n + 1) = 0x01 from hready] at poll
  exact poll.reaches

/-- From the end of the frame to the status byte of the first wait. -/
theorem waitAck_reaches {n : Nat} (es : List Event) (hready : answerAt s (n + 1) = 0x01) :
    Reaches (afterTraffic (.handshake (.send .sent)) false n es s)
      (afterTraffic (.handshake (.waitAck (.judge 0x01))) false (n + 2)
        (es ++ pollEvents s.config.statusReadCmd (answerAt s n) 0x01) (polling 0 s)) := by
  have sent : step (afterTraffic (.handshake (.send .sent)) false n es s) = .next _ :=
    step_handshake_afterTraffic h hu (advanceHandshake_send_ended rfl rfl)
  rw [handshakeWait_afterTraffic] at sent
  exact reaches_head sent (readyPoll_reaches h hu (.inl rfl) es hready)

/-- From the ready status byte to the end of the ACK's read. -/
theorem readAck_reaches {n m : Nat} (es : List Event)
    (hm : m = n + (optBytes s.config.dataReadPrefix).length) :
    Reaches (afterTraffic (.handshake (.waitAck (.judge 0x01))) false n es (polling 0 s))
      (afterTraffic (.handshake (.readAck .done)) false (m + ackConst.length)
        (es ++ [.cs true, .sleep s.config.settlePreMs] ++ readEvents s n ackConst.length ++ [.cs false])
        (received m ackConst.length (readied s))) := by
  have ready := step_handshake_afterTraffic h (s := polling 0 s) hu
    (advanceHandshake_waitAck_ended (s := afterTraffic (.handshake (.waitAck (.judge 0x01))) false n es
      (polling 0 s)) rfl (waitBody_judge_ready t _))
  have start := congrArg (goto (.handshake (.readAck .settle)))
    (readStart_afterTraffic (.handshake (.waitAck (.judge 0x01))) false n es (readied s))
  have read := read_reaches (carriesRead_handshake h) (s := readied s) hu (by decide) hm
    (es ++ [.cs true])
  rw [List.append_assoc es] at read
  exact reaches_head (ready.trans (congrArg _ start)) read

/-- From the end of the ACK's read to the end of the handshake. -/
theorem waitResponse_reaches {n m : Nat} (es : List Event)
    (hack : answersFrom s m ackConst.length = ackConst) (hready : answerAt s (n + 1) = 0x01) :
    Reaches (afterTraffic (.handshake (.readAck .done)) false n es
        (received m ackConst.length (readied s)))
      (finish .ok 0 (afterTraffic (.handshake (.waitResponse (.judge 0x01))) false (n + 2)
        (es ++ pollEvents s.config.statusReadCmd (answerAt s n) 0x01)
        (received m ackConst.length (readied s)))) := by
  have acked := step_handshake_afterTraffic h (s := received m ackConst.length (readied s)) hu
    (advanceHandshake_readAck_ended (s := afterTraffic (.handshake (.readAck .done)) false n es
      (received m ackConst.length (readied s))) rfl rfl)
  rw [handshakeAck_received (s := readied s) hack] at acked
  have poll := readyPoll_reaches h (s := received m ackConst.length (readied s)) hu (.inr rfl) es hready
  have last := step_handshake_afterTraffic h
    (s := polling 0 (received m ackConst.length (readied s))) hu
    (advanceHandshake_waitResponse_ended (s := afterTraffic
      (.handshake (.waitResponse (.judge 0x01))) false (n + 2)
      (es ++ pollEvents s.config.statusReadCmd (answerAt s n) 0x01)
      (polling 0 (received m ackConst.length (readied s)))) rfl (waitBody_judge_ready t _))
  exact reaches_head acked (reaches_trans poll (reaches_head last (reaches_refl _)))

/-- A whole handshake with an eager chip (R150), after the `n + 2` events of its frame. -/
theorem handshake_reaches {n m : Nat} (hs : s.seq = .handshake (.send .select))
    (hn : n = (optBytes s.config.dataWritePrefix).length + args.length + 9)
    (hm : m = n + 2 + (optBytes s.config.dataReadPrefix).length)
    (hready : answerAt s (n + 1) = 0x01) (hack : answersFrom s m ackConst.length = ackConst)
    (hready' : answerAt s (m + 7) = 0x01) :
    ∃ fs, fs.length = n + 2 ∧ Reaches s (finish .ok 0
      (afterTraffic (.handshake (.waitResponse (.judge 0x01))) false (m + 8)
        (fs ++ eagerEvents s n m) (received m ackConst.length (readied s)))) := by
  have frame := send_reaches (carriesSend_handshake h) hu hs
  rw [length_encodeFrame, ← Nat.add_assoc, ← hn] at frame
  have run := reaches_trans frame (reaches_trans (waitAck_reaches h hu _ hready)
    (reaches_trans (readAck_reaches h hu _ hm) (waitResponse_reaches h hu _ hack hready')))
  simp only [List.append_assoc] at run
  refine ⟨[.cs true] ++ xferEvents (optBytes s.config.dataWritePrefix ++ encodeFrame op args)
    (answers s n) ++ [.cs false], ?_, ?_⟩
  · simp [xferEvents, answers]
    omega
  · simp only [eagerEvents, List.append_assoc]
    exact run

end

/-- The events of the transfers of an ACK, with a settle sleep of `ms` between two of them. -/
def ackXfers (ms : Nat) : List Event :=
  [.xfer 0x00 0x00, .sleep ms, .xfer 0x00 0x00, .sleep ms, .xfer 0x00 0xFF, .sleep ms, .xfer 0x00 0x00,
    .sleep ms, .xfer 0x00 0xFF, .sleep ms, .xfer 0x00 0x00]

/-- The read loop on an ACK, byte by byte. -/
theorem loopEvents_ack {s : State} {m : Nat} (hack : answersFrom s m ackConst.length = ackConst)
    (k : Nat) : loopEvents s m k ackConst.length =
      (if 0 < k then [.sleep s.config.settleBetweenMs] else []) ++
        ackXfers s.config.settleBetweenMs := by
  obtain ⟨h0, h1, h2, h3, h4, h5⟩ : answerAt s m = 0x00 ∧ answerAt s (m + 1) = 0x00 ∧
      answerAt s (m + 2) = 0xFF ∧ answerAt s (m + 3) = 0x00 ∧ answerAt s (m + 4) = 0xFF ∧
      answerAt s (m + 5) = 0x00 := by
    simpa [answersFrom, ackConst, List.range_succ] using hack
  simp [loopEvents, cellEvents, ackConst, List.range_succ, fillByte, ackXfers, h0, h1, h2, h3, h4, h5]

/-- The events of a whole ACK's read. -/
theorem readEvents_ack {s : State} {n m : Nat} (hm : m = n + (optBytes s.config.dataReadPrefix).length)
    (hack : answersFrom s m ackConst.length = ackConst) :
    readEvents s n ackConst.length =
      xferEvents (optBytes s.config.dataReadPrefix) [answerAt s n] ++
      (if s.config.dataReadPrefix = none then [] else [.sleep s.config.settleBetweenMs]) ++
      ackXfers s.config.settleBetweenMs := by
  rw [readEvents, ← hm, loopEvents_ack hack]
  cases s.config.dataReadPrefix <;> simp [optBytes]

/-- Settles O32: acceptance, then the handshake with an eager chip. -/
theorem handshakeSucceeds : Obligations.HandshakeSucceeds := by
  unfold Obligations.HandshakeSucceeds
  intro s op args t n m hfit hiss hn hm hready hack hready'
  obtain ⟨rest, haccept⟩ := hiss.accepted (decodeRequest_sendCommandAndAckWord hfit) (if_pos hfit)
    fun _ => rfl
  obtain ⟨fs, hfs, run⟩ := handshake_reaches hfit (s := accept (sendCommandAndAckWord op args t)
    (.handshake (.send .select)) { s with host := rest }) ⟨rfl, rfl, hiss.1⟩ rfl hn hm hready hack
    hready'
  refine ⟨_, reaches_head haccept run, rfl, rfl, rfl, rfl, rfl, ?_, rfl, ?_⟩
  · exact (values_received m ackConst.length _).trans hack
  have events := readEvents_ack (n := n + 2) (m := m) hm hack
  have drop : (s.events ++ (fs ++ eagerEvents s n m) ++ [Event.finish .ok 0]).drop
      (s.events.length + n + 2) = eagerEvents s n m ++ [.finish .ok 0] := by
    rw [Nat.add_assoc, ← hfs, ← List.length_append, ← List.append_assoc, List.append_assoc (_ ++ fs),
      List.drop_left]
  refine drop.trans ?_
  simp only [eagerEvents, events, List.append_assoc]
  rfl

/-! ## A command with a response check -/

/-- CHECK_RESPONSE in flight, on a response that carries the code and, if asked for, the status 00. -/
theorem step_checkResponse_ok {code b7 : Byte} {status : Bool} {s : State}
    (hu : Underway (checkResponseWord code status) s) (hs : s.seq = .checkResponse)
    (hlen : responseNeed status ≤ s.rxLen) (h6 : readCell s.rx 6 = some code)
    (h7 : status = true → readCell s.rx 7 = some b7) (hb7 : status = true → b7 = 0x00) :
    step s = .next (finish .ok 0 s) := by
  have run := hu.step hs rfl (decodeRequest_checkResponseWord code status) exec_checkResponse_step
  rwa [checkResponseStep_eq hlen h6 h7, if_pos ⟨rfl, hb7⟩] at run

section
variable {s : State} {rest : List HostAction} {later : List (List HostAction)}
variable (hn : s.resetIn = []) (hf : s.readFault = none)
include hn hf

/-- The host's next request, when its program goes on after one that ended with OK. -/
theorem step_issue_after_ok {r : Request} {i : Instr} {q : Seq} {f : State → State}
    (hh : s.host = (issue r :: rest) :: later)
    (hd : decodeRequest r = .ok i) (hv : valueRefusal i = none)
    (hx : ∀ s, exec i s = .next (operate i r q f s)) :
    step (finish .ok 0 s) = .next (accept r q { finish .ok 0 s with host := rest :: later }) :=
  step_issue_accepts (s := finish .ok 0 s) hn (portReady_iff.mpr ⟨rfl, rfl, hf⟩)
    (congrArg nextAction hh) hd hv hx

/-- READ_RESPONSE after a request that ended with OK. -/
theorem readResponse_after_ok {len : Byte} {p : Nat} (hlen : lengthFits len = true)
    (hh : s.host = (issue (readResponseWord len) :: rest) :: later)
    (hp : p = (optBytes s.config.dataReadPrefix).length) :
    ∃ v, Reaches (finish .ok 0 s) (finish .ok 0 v) ∧ v.resetIn = [] ∧ v.readFault = none ∧
      v.cs = false ∧ v.host = rest :: later ∧ v.rxLen = len.toNat ∧
      ∀ k, k < len.toNat → readCell v.rx k = some (answerAt s (p + k)) := by
  have start := step_issue_after_ok hn hf hh (decodeRequest_readResponseWord hlen) (if_pos hlen)
    fun _ => rfl
  obtain ⟨_, es, rfl, read⟩ := readResponse_reaches hlen (s := accept (readResponseWord len)
    (.readResponse .select) { finish .ok 0 s with host := rest :: later }) ⟨rfl, rfl, hn⟩ rfl
  subst hp
  exact ⟨_, reaches_head start read, hn, hf, rfl, rfl, rfl, fun k hk => readCell_received hk⟩

/-- CHECK_RESPONSE after a request that ended with OK, on a response that carries the code and, if asked
for, the status 00. -/
theorem checkResponse_after_ok {code b7 : Byte} {status : Bool}
    (hh : s.host = (issue (checkResponseWord code status) :: rest) :: later)
    (hlen : responseNeed status ≤ s.rxLen) (h6 : readCell s.rx 6 = some code)
    (h7 : status = true → readCell s.rx 7 = some b7) (hb7 : status = true → b7 = 0x00) :
    ∃ w, Reaches (finish .ok 0 s) (finish .ok 0 w) ∧ w.cs = s.cs ∧ w.host = rest :: later ∧
      w.rxLen = s.rxLen ∧ w.rx = s.rx := by
  have start := step_issue_after_ok hn hf hh (decodeRequest_checkResponseWord code status) rfl
    fun _ => rfl
  have check := step_checkResponse_ok (b7 := b7) (s := accept (checkResponseWord code status)
    .checkResponse { finish .ok 0 s with host := rest :: later }) ⟨rfl, rfl, hn⟩ rfl hlen h6 h7 hb7
  exact ⟨_, reaches_head start (reaches_head check (reaches_refl _)), rfl, rfl, rfl, rfl⟩

end

/-- Settles O37: the handshake, then READ_RESPONSE and CHECK_RESPONSE. -/
theorem commandRunsToItsCheck : Obligations.CommandRunsToItsCheck := by
  unfold Obligations.CommandRunsToItsCheck
  intro s op args t len code status rest later n m d hfit hlen hneed hn hf hflight hh hnn hmm hd
    hready hack hready' h6 h7
  obtain ⟨hb, hr, hs⟩ := hflight
  obtain ⟨fs, -, handshake⟩ := handshake_reaches hfit ⟨hb, hr, hn⟩ hs hnn hmm hready hack hready'
  obtain ⟨v, read, hvn, hvf, hvcs, hvh, hvlen, cells⟩ := readResponse_after_ok (rest := _ :: rest)
    (s := afterTraffic (.handshake (.waitResponse (.judge 0x01))) false (m + 8)
      (fs ++ eagerEvents s n m) (received m ackConst.length (readied s))) hn hf hlen hh rfl
  have cells (k : Nat) (hk : k < len.toNat) : readCell v.rx k = some (answerAt s (d + k)) := by
    rw [cells k hk, answerAt_afterTraffic, ← Nat.add_assoc, hd]
    rfl
  obtain ⟨w, check, hwcs, hwh, hwlen, hwrx⟩ := checkResponse_after_ok hvn hvf hvh
    (hvlen ▸ hneed) (h6 ▸ cells 6 (by split at hneed <;> omega))
    (fun hst => cells 7 (by rw [if_pos hst] at hneed; omega)) h7
  exact ⟨_, reaches_trans handshake (reaches_trans read check), rfl, hwcs.trans hvcs, rfl,
    hwlen.trans hvlen, fun k hk => (congrArg (readCell · k) hwrx).trans (cells k hk), hwh⟩

end Sys2Proof.Machine
